-- ==== Sys2Proof/Word.lean ====
section
/-! DEFINITION. The word types of the datapath (R9, R10): unsigned integers of fixed width. -/

namespace Sys2Proof

/-- `u8`: one byte of the register space or of a frame. -/
abbrev Byte := BitVec 8

/-- `u16`, and the raw bits of an `s16`. -/
abbrev U16 := BitVec 16

/-- `u32`. -/
abbrev U32 := BitVec 32

end Sys2Proof
end

