-- ==== Sys2Proof/Syntax.lean ====
section
/-! DEFINITION. The commands (R81): the eight rows of the opcode table. Commands carry no operand field (R82). -/

namespace Sys2Proof

/-- A command of the DFE, one constructor per row of the opcode table. -/
inductive Instr where
  /-- `NOP`, 0x00 (R133) -/
  | nop
  /-- `INIT`, 0x01 (R118) -/
  | init
  /-- `REBIND`, 0x02 (R119) -/
  | rebind
  /-- `DEINIT`, 0x03 (R120) -/
  | deinit
  /-- `DERIVE`, 0x10 (R102) -/
  | derive
  /-- `SETADDR`, 0x11 (R107) -/
  | setaddr
  /-- `ENCODE`, 0x12 (R115) -/
  | encode
  /-- `TICK`, 0x20 (R121) -/
  | tick
deriving DecidableEq, Repr

/-- The operation group in bits 7:4 of a command's code (R80). -/
inductive Group where
  /-- G = 0x0: session control -/
  | session
  /-- G = 0x1: component commands -/
  | component
  /-- G = 0x2: the scheduler tick -/
  | scheduler
deriving DecidableEq, Repr

end Sys2Proof
end

