-- ==== Sys2Proof/Decode.lean ====
section
/-! DEFINITION. The command decoder (R79 to R83), total on any bytes, and the encoder. A command is one byte and all
8 bits are compared. -/

namespace Sys2Proof

/-- Why bytes are no command. -/
inductive DecodeRefusal where
  /-- no byte was given -/
  | noByte
  /-- the byte is one of the 248 codes outside R81 (R83): the machine raises `ILL_CMD` for it -/
  | undefinedCode (code : Byte)
deriving DecidableEq, Repr

/-- A row of the opcode table: the code is this command's when `code &&& mask = value`. -/
structure OpcodeRow where
  mask : Byte
  value : Byte
  instr : Instr
deriving DecidableEq, Repr

/-- The table of R81. -/
def opcodeTable : List OpcodeRow :=
  [⟨0xFF#8, 0x00#8, .nop⟩, ⟨0xFF#8, 0x01#8, .init⟩, ⟨0xFF#8, 0x02#8, .rebind⟩, ⟨0xFF#8, 0x03#8, .deinit⟩,
   ⟨0xFF#8, 0x10#8, .derive⟩, ⟨0xFF#8, 0x11#8, .setaddr⟩, ⟨0xFF#8, 0x12#8, .encode⟩, ⟨0xFF#8, 0x20#8, .tick⟩]

/-- The first row of a table that a code matches. -/
def lookupCode (code : Byte) : List OpcodeRow → Option Instr
  | [] => none
  | row :: rows => if code &&& row.mask = row.value then some row.instr else lookupCode code rows

/-- Decode the first byte of a byte sequence and hand back the rest (R79: every command is exactly one byte). -/
def decode : List Byte → Except DecodeRefusal (Instr × List Byte)
  | [] => .error .noByte
  | code :: rest =>
    match lookupCode code opcodeTable with
    | some i => .ok (i, rest)
    | none => .error (.undefinedCode code)

/-- The code of a command (R81). -/
def Instr.code : Instr → Byte
  | .nop => 0x00#8
  | .init => 0x01#8
  | .rebind => 0x02#8
  | .deinit => 0x03#8
  | .derive => 0x10#8
  | .setaddr => 0x11#8
  | .encode => 0x12#8
  | .tick => 0x20#8

/-- The bytes of a command: its one code byte (R79). -/
def encode (i : Instr) : List Byte := [i.code]

/-- The group of a code: its bits 7:4 (R80); descriptive only. -/
def groupOf (code : Byte) : Option Group :=
  match (code.extractLsb' 4 4).toNat with
  | 0 => some .session
  | 1 => some .component
  | 2 => some .scheduler
  | _ => none

/-- The first n bytes of a number, least significant byte first. -/
def bytesOfNat : Nat → Nat → List Byte
  | 0, _ => []
  | n + 1, w => BitVec.ofNat 8 w :: bytesOfNat n (w / 256)

/-- The command the decoder reads from an opcode-table word of `nbits` bits. -/
def decodeTableWord (nbits w : Nat) : Option Instr :=
  match decode (bytesOfNat (nbits / 8) w) with
  | .ok (i, _) => some i
  | .error _ => none

end Sys2Proof
end

