-- ==== Sys2Proof/Machine/Bits.lean ====
section
/-! DEFINITION. Byte order of registers (R63, R64), and bit strings cut into bytes, most significant bit first
(R65, R108). -/

namespace Sys2Proof.Machine

/-- Byte i of a multi-byte value, byte 0 holding bits 7:0 (R63). -/
def getByte {n : Nat} (w : BitVec n) (i : Nat) : Byte := w.extractLsb' (8 * i) 8

/-- A multi-byte value with its byte i replaced (R63). -/
def setByte {n : Nat} (w : BitVec n) (i : Nat) (b : Byte) : BitVec n :=
  (w &&& ~~~((0xFF#8).setWidth n <<< (8 * i))) ||| (b.setWidth n <<< (8 * i))

/-- A byte array of n elements that begins with the given bytes and is 0x00 from there on. -/
def padVec (n : Nat) (l : List Byte) : Vector Byte n :=
  ⟨⟨(List.range n).map fun j => l.getD j 0⟩, by simp⟩

/-- The bits of a value, most significant first: what `put(v, n)` appends for an n-bit v (R12, R108). -/
def bitsOf {n : Nat} (v : BitVec n) : List Bool := (List.range n).map fun j => v.getMsbD j

/-- Byte k of a bit string: bit 8k becomes bit 7, bit 8k+7 becomes bit 0, and a missing bit is 0 (R108). -/
def byteAt (w : List Bool) (k : Nat) : Byte :=
  BitVec.ofBool (w.getD (8 * k) false) ++ BitVec.ofBool (w.getD (8 * k + 1) false) ++
  BitVec.ofBool (w.getD (8 * k + 2) false) ++ BitVec.ofBool (w.getD (8 * k + 3) false) ++
  BitVec.ofBool (w.getD (8 * k + 4) false) ++ BitVec.ofBool (w.getD (8 * k + 5) false) ++
  BitVec.ofBool (w.getD (8 * k + 6) false) ++ BitVec.ofBool (w.getD (8 * k + 7) false)

/-- `Bytes(W)`: a bit string padded with zero bits to whole bytes and cut into bytes in order (R108). -/
def packBytes (w : List Bool) : List Byte := (List.range ((w.length + 7) / 8)).map (byteAt w)

end Sys2Proof.Machine
end

