-- ==== Sys2Proof/Config.lean ====
section
/-! DEFINITION. The OPEN parameters of R8 as plain data, and the two free values of the model: the parameter set a
machine was built with and the driver's answers. The parameters R8 gives a value stand in Machine/Fixed.lean. -/

namespace Sys2Proof

/-- The four axes of a live payload (R91). -/
inductive Axis where
  | A | B | C | D
deriving DecidableEq, Repr

/-- `IN_MIN[k]`, `IN_MAX[k]` (read as s16), `OUT_LO[k]`, `OUT_HI[k]` of one axis (R8). -/
structure AxisParams where
  inMin : U16
  inMax : U16
  outLo : Byte
  outHi : Byte
deriving DecidableEq, Repr, Inhabited

/-- The OPEN parameters of R8 (and `DFE_BASE` of R61). The spec gives none of them a value; `Params.wf` of
WellFormed.lean states R8's constraints. -/
structure Params where
  /-- `SCR[0..14]` -/
  scr : Vector Byte 15
  /-- `BIND_ADDR[0..4]` -/
  bindAddr : Vector Byte 5
  bindCh : Byte
  bindCount : U16
  bindMarker : Byte
  periodUs : U32
  initWaitUs : U32
  prngSeed : U32
  prngMul : U32
  prngAdd : U32
  /-- `ZERO_FOLDS`, 0..255 -/
  zeroFolds : Byte
  chBase : Byte
  /-- `CH_SLOTS`, 1..256 -/
  chSlots : Nat
  /-- `PWR_CEIL`, 0..7 -/
  pwrCeil : BitVec 3
  axisA : AxisParams
  axisB : AxisParams
  axisC : AxisParams
  axisD : AxisParams
  rateByte : Byte
  /-- `DFE_BASE`: where the platform puts offset 0x00 (R61). -/
  dfeBase : Nat
deriving DecidableEq, Repr, Inhabited

/-- The ranges of axis k. -/
def Params.axis (p : Params) : Axis → AxisParams
  | .A => p.axisA
  | .B => p.axisB
  | .C => p.axisC
  | .D => p.axisD

/-- The host's address of a register offset (R61). -/
def Params.hostAddress (p : Params) (off : Byte) : Nat := p.dfeBase + off.toNat

/-- The nearest ranges that meet R8's constraints: the same ranges where they meet them already. -/
def AxisParams.legalise (a : AxisParams) : AxisParams :=
  { inMin := if a.inMin.slt a.inMax then a.inMin else BitVec.intMin 16
    inMax := if a.inMin.slt a.inMax then a.inMax else BitVec.intMax 16
    outLo := if a.outLo ≤ a.outHi then a.outLo else a.outHi
    outHi := if a.outLo ≤ a.outHi then a.outHi else a.outLo }

/-- A parameter set that meets R8's constraints: the set itself where it meets them already, so every legal set is
an answer of this function and no legal set is preferred (log 1). -/
def Params.legalise (p : Params) : Params :=
  { p with
    bindCount := if p.bindCount = 0 then 1 else p.bindCount
    periodUs := if p.periodUs = 0 then 1 else p.periodUs
    chSlots := max 1 (min p.chSlots (256 - p.chBase.toNat))
    axisA := p.axisA.legalise
    axisB := p.axisB.legalise
    axisC := p.axisC.legalise
    axisD := p.axisD.legalise }

/-- FREE VALUE: the parameter set a machine was built with, before R8's constraints are imposed. No body: nothing
can be proved of it (log 1). -/
opaque Config.builtParams : Params

/-- The parameter set `State.reset` carries: an unknown set that meets R8's constraints (log 1). -/
def Config.params : Params := Config.builtParams.legalise

/-- FREE VALUE: the driver's n-th answer to `RADIO_RESET`. "Either value is possible, under no law" (R137, R12;
log 2). -/
opaque Config.driverAnswer : Nat → Bool

end Sys2Proof
end

