-- ==== Sys2Proof/Machine/Fixed.lean ====
section
/-! DEFINITION. The parameters that R8 gives a value, "that value in every DFE", and the constant registers. Widths
that are types elsewhere are named here too, so that a reader finds every row of R8. -/

namespace Sys2Proof.Machine

/-- `ADDR_LEN`: `actAddr` and its fellows are `Vector Byte 5`. -/
def addrLen : Nat := 5

/-- `NCH`: `idChan` is `Vector Byte 4`. -/
def nch : Nat := 4

/-- `L_MAX`: the longest logical payload ENCODE accepts. -/
def lMax : Nat := 15

/-- `L_SESSION`: the logical payload length of every session frame. -/
def lSession : Nat := 15

/-- `FRAME_MAX`: the longest physical frame in bytes. -/
def frameMax : Nat := 32

/-- `CRC_POLY`. -/
def crcPoly : U16 := 0x1021#16

/-- `CRC_INIT`. -/
def crcInit : U16 := 0xFFFF#16

/-- `PWR_LEVELS`: levels 0..7, 3 bits. -/
def pwrLevels : Nat := 8

/-- `AX_INV[k]`. -/
def axisInverted : Axis → Bool
  | .A | .B => true
  | .C | .D => false

/-- `AXIS_CH`: the control-input index of an axis. -/
def axisCh : Axis → Nat
  | .A => 1
  | .B => 2
  | .C => 3
  | .D => 4

/-- `FLAG_CH`: the control-input indices of flags 1, 2 and 3. -/
def flag1Ch : Nat := 6
def flag2Ch : Nat := 9
def flag3Ch : Nat := 10

/-- `N_INPUTS`. -/
def nInputs : Nat := 10

/-- `SERIAL_MAX`: the longest serial number in bytes. -/
def serialMax : Nat := 16

/-- `CAP_NUM_CH`, the register at 0x27 (R43). -/
def capNumCh : Byte := 0x0A#8

/-- `CAP_DEF_CH`, the register at 0x28 (R43). -/
def capDefCh : Byte := 0x0A#8

/-- `CAP_FLAGS`, the register at 0x29: AUTOBIND = 1, TELEMETRY = 0, OPTIONS = 0 (R44). -/
def capFlags : Byte := 0x01#8

end Sys2Proof.Machine
end

