-- ==== Sys2Proof/Machine/Crc.lean ====
section
/-! DEFINITION. The checksum (R103, R105). -/

namespace Sys2Proof.Machine

/-- One round of `CrcUpdate`: shift left, and XOR the polynomial in when the bit shifted out is 1 (R103). -/
def crcShift (c : U16) : U16 := if c.msb then (c <<< 1) ^^^ crcPoly else c <<< 1

/-- `n` rounds. -/
def crcRounds : Nat → U16 → U16
  | 0, c => c
  | n + 1, c => crcRounds n (crcShift c)

/-- `CrcUpdate(c, b, n)` as its pseudocode reads (R103). For n < 8 the low bits of b do reach the result, as the
spec's vector CrcUpdate(0x1234, 0x7F, 1) = 0xDA68 shows and against R103's sentence about them (log 8). -/
def crcUpdate (c : U16) (b : Byte) (n : Nat) : U16 := crcRounds n (c ^^^ (b.setWidth 16 <<< 8))

/-- `CrcUpdate(·, b, 8)` over a byte sequence in order. -/
def crcBytes (c : U16) (bs : List Byte) : U16 := bs.foldl (fun c b => crcUpdate c b 8) c

/-- `CrcSeed(a)`: the address folded from the all-ones value in reverse order, byte 4 first (R105). -/
def crcSeed (a : Vector Byte 5) : U16 := crcBytes crcInit [a[4], a[3], a[2], a[1], a[0]]

end Sys2Proof.Machine
end

