-- ==== Sys2Proof/Machine/State.lean ====
section
/-! DEFINITION. The machine's state as plain data: every register of R22, the event stream, the drawn answers, the
scheduler's state, and what the bus still has to deliver. -/

namespace Sys2Proof.Machine

/-- `PHASE` (R30): 0, 1, 2; the value 3 never occurs. -/
inductive Phase where
  | idle | binding | live
deriving DecidableEq, Repr

/-- `RESULT` (R26): 0x00 no DEINIT since reset, 0x01 success, 0xFF failure; no other value occurs. -/
inductive ResetOutcome where
  | none | succeeded | failed
deriving DecidableEq, Repr

/-- The bits of `STATUS` (R25, R151). -/
inductive StatusBit where
  | illCmd | lenErr | busyErr | tickIgn | bindDone
deriving DecidableEq, Repr

/-- The destinations of events (R135). -/
inductive Agent where
  | driver | scheduler | observer
deriving DecidableEq, Repr

/-- The events of the output stream (R135); no other kind occurs. -/
inductive Event where
  /-- R136 -/
  | radioInit
  /-- R137; the driver's answer is drawn by the same command -/
  | radioReset
  /-- R138 -/
  | setChannel (ch : Byte)
  /-- R139 -/
  | setPower (level : BitVec 3)
  /-- R140 -/
  | writePayload (bytes : List Byte)
  /-- R141 -/
  | schedStart (delayUs : U32)
  /-- R142 -/
  | schedStop
  /-- R143 -/
  | tickDone (periodUs : U32)
  /-- R144 -/
  | bindState (value : U32)
deriving DecidableEq, Repr

/-- The scheduler agent's own state (R145). -/
inductive Scheduler where
  | stopped
  | armed (delayUs : U32)
  /-- it has issued the TICK of its armed state and waits for `TICK_DONE` -/
  | waiting
deriving DecidableEq, Repr

/-- What the outside can do to the block, one at a time (R60, R72, R148; R170 for `reset`). -/
inductive Input where
  /-- `MemRead(off, 1)` by the host -/
  | hostRead (off : Byte)
  /-- `MemWrite(off, 1, v)` by the host -/
  | hostWrite (off : Byte) (v : Byte)
  /-- `MemWrite(0x00, 1, TICK)` by the scheduler -/
  | schedTick
  /-- an assertion of the reset input -/
  | reset
deriving DecidableEq, Repr

/-- One byte of the register space by the register it belongs to (R22). Array registers carry the element, multi-byte
registers the byte number, least significant first. -/
inductive RegByte where
  | cmd | status | result | ctrl | pwrReq | pwrApplied | phase | cursor
  | count (byte : Fin 2)
  | pid | plen | flen | serialLen
  | seed (byte : Fin 2)
  | fixedId (byte : Fin 4)
  | addrIn (i : Fin 5)
  | actAddr (i : Fin 5)
  | idAddr (i : Fin 5)
  | idChan (i : Fin 4)
  | capNumCh | capDefCh | capFlags
  | nextPeriod (byte : Fin 4)
  | serial (i : Fin 16)
  | payload (i : Fin 15)
  | frame (i : Fin 32)
  /-- `k` counts from 0: it is `CH_IN[k + 1]` -/
  | chIn (k : Fin 10) (byte : Fin 2)
  | prngState (byte : Fin 4)
  | reserved
deriving DecidableEq, Repr

/-- The access kinds of R23. -/
inductive Access where
  | rw | ro | wo | w1c | warl | razWi
deriving DecidableEq, Repr

/-- The result of an identity derivation (R94 to R99). -/
structure LinkIdentity where
  addr : Vector Byte 5
  chan : Vector Byte 4
  prng : U32
deriving DecidableEq, Repr

/-- No step of the DFE faults: each error is a defined transition, "neither a fault nor a stuck state" (R150, R159).
The type has no constructor; nothing raises it (safe). -/
inductive Fault : Type
deriving DecidableEq, Repr

/-- Why an instruction has no meaning in the model. -/
inductive Refusal where
  /-- raised by no arm: every command has its meaning (safe). It is the interface's name for a command without one. -/
  | notModelled (mnemonic : String)
deriving DecidableEq, Repr

/-- The state of the DFE and of what it meets. -/
@[ext]
structure State where
  /-- `STATUS` bits 4:0 (R25); bits 7:5 read 0 -/
  status : BitVec 5
  result : ResetOutcome
  /-- `CTRL` bits 1:0 (R27): bit 0 `CRC_EN`, bit 1 `FIXED_EN` -/
  ctrl : BitVec 2
  pwrReq : BitVec 3
  pwrApplied : BitVec 3
  phase : Phase
  cursor : BitVec 2
  count : U16
  pid : BitVec 2
  plen : BitVec 6
  flen : BitVec 6
  serialLen : Fin 17
  seed : U16
  fixedId : U32
  addrIn : Vector Byte 5
  actAddr : Vector Byte 5
  idAddr : Vector Byte 5
  idChan : Vector Byte 4
  nextPeriod : U32
  serial : Vector Byte 16
  payload : Vector Byte 15
  frame : Vector Byte 32
  /-- element k is `CH_IN[k + 1]` (R49) -/
  chIn : Vector U16 10
  prngState : U32
  /-- the output event stream, oldest first (R135) -/
  events : List Event
  /-- the driver answers drawn, oldest first (R149) -/
  answers : List Bool
  /-- the scheduler agent (R145; log 5) -/
  sched : Scheduler
  /-- the OPEN parameters, which no step changes (R8; log 1) -/
  params : Params
  /-- the model's own: what the bus still has to deliver, next one first (R72; log 3) -/
  inputs : List Input
  /-- the model's own: the (offset, byte) pairs `MemRead` has handed back, oldest first (log 7) -/
  readLog : List Host.Cell
  /-- the model's own: how many driver answers have been drawn since the model began (log 2) -/
  drawIndex : Nat
deriving DecidableEq, Repr

/-- The machine right after reset (R54, R170): the "reset" column of R22 and an empty event stream. -/
def State.reset : State where
  status := 0
  result := .none
  ctrl := 0b01#2
  pwrReq := 0
  pwrApplied := 0
  phase := .idle
  cursor := 0
  count := 0
  pid := 0
  plen := 0
  flen := 0
  serialLen := 0
  seed := 0x110C#16
  fixedId := 0
  addrIn := .replicate 5 0
  actAddr := .replicate 5 0
  idAddr := .replicate 5 0
  idChan := .replicate 4 0
  nextPeriod := 0
  serial := .replicate 16 0
  payload := .replicate 15 0
  frame := .replicate 32 0
  chIn := .replicate 10 0
  prngState := 0
  events := []
  answers := []
  sched := .stopped
  params := Config.params
  inputs := []
  readLog := []
  drawIndex := 0

end Sys2Proof.Machine
end

