-- ==== Sys2Proof/Machine/Flags.lean ====
section
/-! DEFINITION. The bits of `STATUS` (R25) and of `CTRL` (R27), and the value of one logical flag of a live payload
(R129). -/

namespace Sys2Proof.Machine

/-- The STATUS bit number, which is the condition's code (R151). -/
def statusIndex : StatusBit → Nat
  | .illCmd => 0
  | .lenErr => 1
  | .busyErr => 2
  | .tickIgn => 3
  | .bindDone => 4

/-- STATUS with only this bit set. -/
def statusMask (b : StatusBit) : BitVec 5 := 1#5 <<< statusIndex b

/-- Set one bit of a STATUS value. -/
def setStatusBit (b : StatusBit) (st : BitVec 5) : BitVec 5 := st ||| statusMask b

/-- Clear one bit of a STATUS value. -/
def clearStatusBit (b : StatusBit) (st : BitVec 5) : BitVec 5 := st &&& ~~~statusMask b

/-- The value after a host write of v: "a write of 1 to a bit clears that bit, and a write of 0 leaves it unchanged"
(R23); bits 7:5 of v are ignored (R25). -/
def writeOneToClear (v : Byte) (st : BitVec 5) : BitVec 5 := st &&& ~~~(v.setWidth 5)

/-- One bit of STATUS. -/
def statusBit (b : StatusBit) (s : State) : Bool := s.status.getLsbD (statusIndex b)

/-- `CTRL.CRC_EN` (R27). -/
def crcEnabled (s : State) : Bool := s.ctrl.getLsbD 0

/-- `CTRL.FIXED_EN` (R27). -/
def fixedEnabled (s : State) : Bool := s.ctrl.getLsbD 1

/-- `Flag(raw)`: 1 when raw, read as signed, is strictly greater than zero (R129). -/
def flagValue (raw : U16) : Byte := if 0 < raw.toInt then 1 else 0

end Sys2Proof.Machine
end

