-- ==== Sys2Proof/Machine/Ops.lean ====
section
/-! DEFINITION. The named operations over the state: the register space (R22, R23), raising an error (the DFE's only
exception, R150, R161), emitting an event (R12, R74), the driver's drawn answer (R12, R137), the active address
(R106) and the applied power (R130). -/

namespace Sys2Proof.Machine

/-! ### The register space -/

/-- The register byte at an offset: the map of R22. -/
def regAt (off : Byte) : RegByte :=
  let a := off.toNat
  if a = 0x00 then .cmd
  else if a = 0x01 then .status
  else if a = 0x02 then .result
  else if a = 0x03 then .ctrl
  else if a = 0x04 then .pwrReq
  else if a = 0x05 then .pwrApplied
  else if a = 0x06 then .phase
  else if a = 0x07 then .cursor
  else if h : 0x08 ≤ a ∧ a < 0x0A then .count ⟨a - 0x08, by omega⟩
  else if a = 0x0A then .pid
  else if a = 0x0B then .plen
  else if a = 0x0C then .flen
  else if a = 0x0D then .serialLen
  else if h : 0x0E ≤ a ∧ a < 0x10 then .seed ⟨a - 0x0E, by omega⟩
  else if h : 0x10 ≤ a ∧ a < 0x14 then .fixedId ⟨a - 0x10, by omega⟩
  else if h : 0x14 ≤ a ∧ a < 0x19 then .addrIn ⟨a - 0x14, by omega⟩
  else if h : 0x19 ≤ a ∧ a < 0x1E then .actAddr ⟨a - 0x19, by omega⟩
  else if h : 0x1E ≤ a ∧ a < 0x23 then .idAddr ⟨a - 0x1E, by omega⟩
  else if h : 0x23 ≤ a ∧ a < 0x27 then .idChan ⟨a - 0x23, by omega⟩
  else if a = 0x27 then .capNumCh
  else if a = 0x28 then .capDefCh
  else if a = 0x29 then .capFlags
  else if h : 0x2C ≤ a ∧ a < 0x30 then .nextPeriod ⟨a - 0x2C, by omega⟩
  else if h : 0x30 ≤ a ∧ a < 0x40 then .serial ⟨a - 0x30, by omega⟩
  else if h : 0x40 ≤ a ∧ a < 0x4F then .payload ⟨a - 0x40, by omega⟩
  else if h : 0x50 ≤ a ∧ a < 0x70 then .frame ⟨a - 0x50, by omega⟩
  else if h : 0x70 ≤ a ∧ a < 0x84 then .chIn ⟨(a - 0x70) / 2, by omega⟩ ⟨(a - 0x70) % 2, by omega⟩
  else if h : 0x84 ≤ a ∧ a < 0x88 then .prngState ⟨a - 0x84, by omega⟩
  else .reserved

/-- The offset of a register byte (R22); `reserved` stands for many offsets and answers the first of them. -/
def offsetOf : RegByte → Byte
  | .cmd => 0x00#8
  | .status => 0x01#8
  | .result => 0x02#8
  | .ctrl => 0x03#8
  | .pwrReq => 0x04#8
  | .pwrApplied => 0x05#8
  | .phase => 0x06#8
  | .cursor => 0x07#8
  | .count b => 0x08#8 + BitVec.ofNat 8 b
  | .pid => 0x0A#8
  | .plen => 0x0B#8
  | .flen => 0x0C#8
  | .serialLen => 0x0D#8
  | .seed b => 0x0E#8 + BitVec.ofNat 8 b
  | .fixedId b => 0x10#8 + BitVec.ofNat 8 b
  | .addrIn i => 0x14#8 + BitVec.ofNat 8 i
  | .actAddr i => 0x19#8 + BitVec.ofNat 8 i
  | .idAddr i => 0x1E#8 + BitVec.ofNat 8 i
  | .idChan i => 0x23#8 + BitVec.ofNat 8 i
  | .capNumCh => 0x27#8
  | .capDefCh => 0x28#8
  | .capFlags => 0x29#8
  | .nextPeriod b => 0x2C#8 + BitVec.ofNat 8 b
  | .serial i => 0x30#8 + BitVec.ofNat 8 i
  | .payload i => 0x40#8 + BitVec.ofNat 8 i
  | .frame i => 0x50#8 + BitVec.ofNat 8 i
  | .chIn k b => 0x70#8 + BitVec.ofNat 8 (2 * k + b)
  | .prngState b => 0x84#8 + BitVec.ofNat 8 b
  | .reserved => 0x2A#8

/-- The access kind of a register byte (R22). -/
def accessOf : RegByte → Access
  | .cmd => .wo
  | .status => .w1c
  | .serialLen => .warl
  | .ctrl | .pwrReq | .plen | .fixedId _ | .addrIn _ | .serial _ | .payload _ | .chIn _ _ => .rw
  | .result | .pwrApplied | .phase | .cursor | .count _ | .pid | .flen | .seed _ | .actAddr _ | .idAddr _
  | .idChan _ | .capNumCh | .capDefCh | .capFlags | .nextPeriod _ | .frame _ | .prngState _ => .ro
  | .reserved => .razWi

/-- The byte `PHASE` reads as (R30). -/
def phaseByte : Phase → Byte
  | .idle => 0x00#8
  | .binding => 0x01#8
  | .live => 0x02#8

/-- The byte `RESULT` reads as (R26). -/
def resultByte : ResetOutcome → Byte
  | .none => 0x00#8
  | .succeeded => 0x01#8
  | .failed => 0xFF#8

/-- The byte a register byte reads as (R23 to R51). -/
def readReg (s : State) : RegByte → Byte
  | .cmd => 0x00#8
  | .status => s.status.setWidth 8
  | .result => resultByte s.result
  | .ctrl => s.ctrl.setWidth 8
  | .pwrReq => s.pwrReq.setWidth 8
  | .pwrApplied => s.pwrApplied.setWidth 8
  | .phase => phaseByte s.phase
  | .cursor => s.cursor.setWidth 8
  | .count b => getByte s.count b
  | .pid => s.pid.setWidth 8
  | .plen => s.plen.setWidth 8
  | .flen => s.flen.setWidth 8
  | .serialLen => BitVec.ofNat 8 s.serialLen
  | .seed b => getByte s.seed b
  | .fixedId b => getByte s.fixedId b
  | .addrIn i => s.addrIn[i]
  | .actAddr i => s.actAddr[i]
  | .idAddr i => s.idAddr[i]
  | .idChan i => s.idChan[i]
  | .capNumCh => capNumCh
  | .capDefCh => capDefCh
  | .capFlags => capFlags
  | .nextPeriod b => getByte s.nextPeriod b
  | .serial i => s.serial[i]
  | .payload i => s.payload[i]
  | .frame i => s.frame[i]
  | .chIn k b => getByte s.chIn[k] b
  | .prngState b => getByte s.prngState b
  | .reserved => 0x00#8

/-- What a host write of v stores (R23): RW stores the live bits, R/W1C clears, WARL stores `min(v, 16)` (R36), RO and
reserved bytes ignore it (R51). A write to `CMD` stores nothing: it issues a command (`issue` of Machine/Bus.lean). -/
def writeReg (r : RegByte) (v : Byte) (s : State) : State :=
  match r with
  | .status => { s with status := writeOneToClear v s.status }
  | .ctrl => { s with ctrl := v.setWidth 2 }
  | .pwrReq => { s with pwrReq := v.setWidth 3 }
  | .plen => { s with plen := v.setWidth 6 }
  | .serialLen => { s with serialLen := ⟨min v.toNat 16, by omega⟩ }
  | .fixedId b => { s with fixedId := setByte s.fixedId b v }
  | .addrIn i => { s with addrIn := s.addrIn.set i v }
  | .serial i => { s with serial := s.serial.set i v }
  | .payload i => { s with payload := s.payload.set i v }
  | .chIn k b => { s with chIn := s.chIn.set k (setByte s.chIn[k] b v) }
  | .cmd | .result | .pwrApplied | .phase | .cursor | .count _ | .pid | .flen | .seed _ | .actAddr _ | .idAddr _
  | .idChan _ | .capNumCh | .capDefCh | .capFlags | .nextPeriod _ | .frame _ | .prngState _ | .reserved => s

/-- `MemRead(off, 1)` (R11). -/
def memRead (s : State) (off : Byte) : Byte := readReg s (regAt off)

/-- What `MemWrite(off, 1, v)` stores (R11), for every offset but `CMD`'s. -/
def memWrite (off v : Byte) (s : State) : State := writeReg (regAt off) v s

/-! ### The register space as a cell list -/

/-- What an offset that a cell list does not name reads as. -/
def unlistedByte : Byte := 0x00#8

/-- The register space as (offset, byte) cells in canonical form: offsets rising, no cell equal to `unlistedByte`
(log 10). -/
def memory (s : State) : List Host.Cell :=
  (List.range 256).filterMap fun a =>
    if memRead s (BitVec.ofNat 8 a) = unlistedByte then none else some (a, memRead s (BitVec.ofNat 8 a))

/-- The byte a cell list holds at an address. -/
def cellByte (a : Nat) : List Host.Cell → Byte
  | [] => unlistedByte
  | (b, v) :: rest => if b = a then v else cellByte a rest

/-- The canonical form of a cell list of the register space: addresses strictly rising and below 256, no cell equal to
what an unlisted address reads as. -/
def Memory.wf : List Host.Cell → Bool
  | [] => true
  | [(a, v)] => decide (a < 256 ∧ v ≠ unlistedByte)
  | (a, v) :: (b, w) :: rest => decide (a < b ∧ v ≠ unlistedByte) && Memory.wf ((b, w) :: rest)

/-! ### Errors, events, the drawn answer -/

/-- `raise ERR`: set the STATUS bit of the condition and make no other change (R12, R150). The one way a command meets
an exception; the DFE saves nothing, enters no handler and returns from nothing (R161, R162). -/
def raise (b : StatusBit) (s : State) : State := { s with status := setStatusBit b s.status }

/-- `STATUS.BIND_DONE <- 1` (R124). -/
def setBindDone (s : State) : State := { s with status := setStatusBit .bindDone s.status }

/-- `STATUS.BIND_DONE <- 0` (R118). -/
def clearBindDone (s : State) : State := { s with status := clearStatusBit .bindDone s.status }

/-- The agent an event is addressed to (R135). -/
def eventAgent : Event → Agent
  | .radioInit | .radioReset | .setChannel _ | .setPower _ | .writePayload _ => .driver
  | .schedStart _ | .schedStop | .tickDone _ => .scheduler
  | .bindState _ => .observer

/-- The scheduler's state after an event (R145). -/
def schedulerAfter (e : Event) (sc : Scheduler) : Scheduler :=
  match e with
  | .schedStart d => .armed d
  | .tickDone p => .armed p
  | .schedStop => .stopped
  | .radioInit | .radioReset | .setChannel _ | .setPower _ | .writePayload _ | .bindState _ => sc

/-- The scheduler's state after it has issued a TICK: one TICK per armed state (R145); a TICK it issues in another
state "is not prevented by the bus" and leaves it as it is. -/
def schedulerIssues : Scheduler → Scheduler
  | .armed _ => .waiting
  | .stopped => .stopped
  | .waiting => .waiting

/-- `emit EV`: append the event to the output stream (R12, R74) and deliver it to the scheduler (R145; log 5). -/
def emit (e : Event) (s : State) : State :=
  { s with events := s.events ++ [e], sched := schedulerAfter e s.sched }

/-- The events of a stream addressed to one agent, in stream order (R74). -/
def eventsFor (a : Agent) (es : List Event) : List Event := es.filter fun e => eventAgent e == a

/-- `draw ok : Bool`: the driver's next answer, a free value (R12, R137; log 2). -/
def drawnAnswer (s : State) : Bool := Config.driverAnswer s.drawIndex

/-- The answer is one of the run's drawn answers (R149), and the next draw is another one. -/
def recordAnswer (ok : Bool) (s : State) : State :=
  { s with answers := s.answers ++ [ok], drawIndex := s.drawIndex + 1 }

/-! ### The active address and the applied power -/

/-- `SetActiveAddress(a)`, the only writer of `ACT_ADDR` and `SEED` (R106). -/
def setActiveAddress (a : Vector Byte 5) (s : State) : State := { s with actAddr := a, seed := crcSeed a }

/-- `min(PWR_REQ.LEVEL, PWR_CEIL)` (R130). -/
def clampedPower (s : State) : BitVec 3 := if s.pwrReq ≤ s.params.pwrCeil then s.pwrReq else s.params.pwrCeil

/-- Write `PWR_APPLIED` and emit `SET_POWER` with the level just written (R139). -/
def applyPower (level : BitVec 3) (s : State) : State :=
  emit (.setPower level) { s with pwrApplied := level }

end Sys2Proof.Machine
end

