-- ==== Sys2Proof/Machine/Interface.lean ====
section
/-! DEFINITION. The no-op command of the external interface (43_interface.md). -/

namespace Sys2Proof.Machine

/-- `NOP`: no register changes and no event is emitted, in every phase (R133). -/
def execNop (s : State) : Host.Outcome State Fault Refusal := .next s

end Sys2Proof.Machine
end

