-- ==== Sys2Proof/Machine/Operands.lean ====
section
/-! DEFINITION. The operands of the commands, which they read from registers (R82): the identity inputs (R94), the
logical payload of ENCODE (R115) and of the ticks (R123, R127), the scaled axes (R128) and the observer's value
(R144). -/

namespace Sys2Proof.Machine

/-! ### Identity inputs -/

/-- `SERIAL[0..SERIAL_LEN−1]`, byte 0 first (R95). -/
def serialBytes (s : State) : List Byte := s.serial.toList.take s.serialLen

/-- `FIXED_ID`, least significant byte first (R96). -/
def fixedIdBytes (s : State) : List Byte :=
  [getByte s.fixedId 0, getByte s.fixedId 1, getByte s.fixedId 2, getByte s.fixedId 3]

/-! ### Logical payloads -/

/-- `PAYLOAD[0..PLEN−1]`, the host's payload (R115). -/
def hostPayload (s : State) : List Byte := s.payload.toList.take s.plen.toNat

/-- `BindPayload()` (R123, layout R90). -/
def bindPayload (s : State) : List Byte :=
  [s.params.bindMarker] ++ s.idChan.toList ++ s.idAddr.toList ++ List.replicate 5 0

/-- `CH_IN[k]`, k from 1 (R49). -/
def controlInput (s : State) (k : Nat) : U16 := s.chIn.toList.getD (k - 1) 0

/-- `Scale(k, raw)` with the ranges of the axis and its inversion bit given: clamp, rescale with floor division, mirror
when inverted, all in exact integers (R128). -/
def scaleWith (a : AxisParams) (inverted : Bool) (raw : U16) : Byte :=
  let v := raw.toInt
  let c := min (max v a.inMin.toInt) a.inMax.toInt
  let q := ((c - a.inMin.toInt) * ((a.outHi.toNat : Int) - a.outLo.toNat)) / (a.inMax.toInt - a.inMin.toInt)
  BitVec.ofInt 8 (if inverted then a.outHi.toNat - q else a.outLo.toNat + q)

/-- `Scale(k, raw)` (R128). -/
def scale (p : Params) (k : Axis) (raw : U16) : Byte := scaleWith (p.axis k) (axisInverted k) raw

/-- The byte of axis k from its control input (R127). -/
def axisByte (s : State) (k : Axis) : Byte := scale s.params k (controlInput s (axisCh k))

/-- Byte 5 of a live payload: flag 1 in bit 0, flag 2 in bit 1, flag 3 in bit 2 (R91, R127). -/
def flagsByte (s : State) : Byte :=
  flagValue (controlInput s flag1Ch) ||| (flagValue (controlInput s flag2Ch) <<< 1) |||
    (flagValue (controlInput s flag3Ch) <<< 2)

/-- `LivePayload()` (R127, layout R91). -/
def livePayload (s : State) : List Byte :=
  [axisByte s .A, axisByte s .B, axisByte s .C, axisByte s .D, s.params.rateByte, flagsByte s] ++ List.replicate 9 0

/-! ### The observer's value -/

/-- The bind time in milliseconds, rounded up and saturated at 2^32 − 1 (R118, R144). -/
def bindTimeMs (p : Params) : U32 :=
  BitVec.ofNat 32 (min ((p.bindCount.toNat * p.periodUs.toNat + 999) / 1000) (2 ^ 32 - 1))

end Sys2Proof.Machine
end

