-- ==== Sys2Proof/Machine/Codec.lean ====
section
/-! DEFINITION. The emulation codec (41_codec.md) and its commands SETADDR and ENCODE. -/

namespace Sys2Proof.Machine

/-- What a frame is built from: the active address's byte 0, the checksum seed and enable, the packet id (R114) and
the scramble table. -/
structure CodecContext where
  guardByte : Byte
  seed : U16
  crcOn : Bool
  packetId : BitVec 2
  scr : Vector Byte 15
deriving DecidableEq, Repr

/-- The context the registers hold (R114). -/
def codecContext (s : State) : CodecContext :=
  { guardByte := s.actAddr[0], seed := s.seed, crcOn := crcEnabled s, packetId := s.pid, scr := s.params.scr }

/-- The control byte: the length in the top 6 bits, the packet id in the bottom 2 (R85, R110). -/
def controlByte (len : Nat) (packetId : BitVec 2) : Byte := BitVec.ofNat 6 len ++ packetId

/-- `P[i] XOR SCR[i]` for every payload byte (R112). -/
def scramble (scr : Vector Byte 15) (payload : List Byte) : List Byte :=
  List.zipWith (· ^^^ ·) payload scr.toList

/-- The bit string after framing steps 1 to 4: two guard bytes, the control byte, the no-ack bit, the scrambled
payload (R109 to R112). -/
def plainBits (x : CodecContext) (payload : List Byte) : List Bool :=
  bitsOf x.guardByte ++ bitsOf x.guardByte ++ bitsOf (controlByte payload.length x.packetId) ++ [true] ++
    (scramble x.scr payload).flatMap bitsOf

/-- The checksum K over all the bits of steps 1 to 4: whole bytes first, then the final single bit (R113). -/
def frameChecksum (x : CodecContext) (payload : List Byte) : U16 :=
  let b := packBytes (plainBits x payload)
  crcUpdate (crcBytes x.seed (b.take (3 + payload.length))) (b.getD (3 + payload.length) 0) 1

/-- The whole bit string: with K appended, bit 15 first, when the checksum is on (R113). -/
def frameBits (x : CodecContext) (payload : List Byte) : List Bool :=
  if x.crcOn then plainBits x payload ++ bitsOf (frameChecksum x payload) else plainBits x payload

/-- The physical frame of a logical payload (R114). -/
def buildFrame (x : CodecContext) (payload : List Byte) : List Byte := packBytes (frameBits x payload)

/-- The frame the registers give for a payload. -/
def frameOf (payload : List Byte) (s : State) : List Byte := buildFrame (codecContext s) payload

/-- `Encode(P, L)`: writes `FRAME`, `FLEN` and `PID`, and nothing else (R114). -/
def encodeFrame (payload : List Byte) (s : State) : State :=
  { s with
    frame := padVec 32 (frameOf payload s)
    flen := BitVec.ofNat 6 (frameOf payload s).length
    pid := s.pid + 1 }

/-- `SETADDR` (R107): refused with `BUSY_ERR` outside Idle. -/
def execSetaddr (s : State) : Host.Outcome State Fault Refusal :=
  .next (if s.phase = .idle then setActiveAddress s.addrIn s else raise .busyErr s)

/-- `ENCODE` (R115): `BUSY_ERR` is checked first, `LEN_ERR` second. -/
def execEncode (s : State) : Host.Outcome State Fault Refusal :=
  .next
    (if s.phase ≠ .idle then raise .busyErr s
     else if lMax < s.plen.toNat then raise .lenErr s
     else encodeFrame (hostPayload s) s)

end Sys2Proof.Machine
end

