-- ==== Sys2Proof/Machine/Identity.lean ====
section
/-! DEFINITION. The identity derivation unit (40_identity.md) and its command DERIVE. -/

namespace Sys2Proof.Machine

/-- `Step(s, b) = (s · PRNG_MUL + PRNG_ADD + b) mod 2^32` (R92). -/
def prngStep (p : Params) (s : U32) (b : Byte) : U32 := s * p.prngMul + p.prngAdd + b.setWidth 32

/-- Fold a byte sequence in order (R93). -/
def prngFold (p : Params) (s : U32) (bs : List Byte) : U32 := bs.foldl (prngStep p) s

/-- An advance: a fold of the zero byte (R93). -/
def prngAdvance (p : Params) (s : U32) : U32 := prngStep p s 0x00#8

/-- The generator after the seed, the serial, the fixed identifier when it is enabled, and the zero folds
(R94 to R97). -/
def foldedState (s : State) : U32 :=
  let afterSerial := prngFold s.params s.params.prngSeed (serialBytes s)
  let afterFixed := if fixedEnabled s then prngFold s.params afterSerial (fixedIdBytes s) else afterSerial
  prngFold s.params afterFixed (List.replicate s.params.zeroFolds.toNat 0x00#8)

/-- `CH_BASE + (byte mod CH_SLOTS)` (R99). -/
def channelOf (p : Params) (b : Byte) : Byte := BitVec.ofNat 8 (p.chBase.toNat + b.toNat % p.chSlots)

/-- Steps 4 and 5 of a derivation from the folded generator state (R98, R99). -/
def extractIdentity (p : Params) (s : U32) : LinkIdentity :=
  let s4 := prngAdvance p s
  let s5 := prngAdvance p s4
  { addr := #v[getByte s 0, getByte s 1, getByte s 2, getByte s 3, getByte s4 0]
    chan := #v[channelOf p (getByte s5 0), channelOf p (getByte s5 1), channelOf p (getByte s5 2),
      channelOf p (getByte s5 3)]
    prng := s5 }

/-- What `IdentityDerive()` computes from the registers (R94 to R99). -/
def derivedIdentity (s : State) : LinkIdentity := extractIdentity s.params (foldedState s)

/-- `IdentityDerive()`: writes `ID_ADDR`, `ID_CHAN` and `PRNG_STATE` (R94 to R99). -/
def identityDerive (s : State) : State :=
  { s with
    idAddr := (derivedIdentity s).addr
    idChan := (derivedIdentity s).chan
    prngState := (derivedIdentity s).prng }

/-- `DERIVE` (R102): refused with `BUSY_ERR` outside Idle. -/
def execDerive (s : State) : Host.Outcome State Fault Refusal :=
  .next (if s.phase = .idle then identityDerive s else raise .busyErr s)

end Sys2Proof.Machine
end

