-- ==== Sys2Proof/Machine/Session.lean ====
section
/-! DEFINITION. The session state machine (42_session.md): INIT, REBIND, DEINIT and TICK. -/

namespace Sys2Proof.Machine

/-- `PHASE <- Binding`, `COUNT <- BIND_COUNT`, `CURSOR <- 0` (R118). -/
def enterBinding (s : State) : State :=
  { s with phase := .binding, count := s.params.bindCount, cursor := 0 }

/-- `SetActiveAddress(BIND_ADDR)` (R118). -/
def useBindAddress (s : State) : State := setActiveAddress s.params.bindAddr s

/-- Apply and program the clamped request, even when it is the level applied already (R118, R139). -/
def programPower (s : State) : State := applyPower (clampedPower s) s

/-- Tell the observer the bind time (R118, R144). -/
def announceBind (s : State) : State := emit (.bindState (bindTimeMs s.params)) s

/-- `NEXT_PERIOD <- p` (R45). -/
def setHint (p : U32) (s : State) : State := { s with nextPeriod := p }

/-- Write the initial wait as the hint and ask the scheduler to start (R118, R141). -/
def askStart (s : State) : State := emit (.schedStart s.params.initWaitUs) (setHint s.params.initWaitUs s)

/-- The pseudocode of INIT, which REBIND shares (R118, R119), in its order. -/
def startSession (s : State) : State :=
  s |> identityDerive |> enterBinding |> clearBindDone |> useBindAddress |> emit .radioInit |> programPower
    |> announceBind |> askStart

/-- `INIT`, legal in every phase (R118). -/
def execInit (s : State) : Host.Outcome State Fault Refusal := .next (startSession s)

/-- `REBIND`, exactly the effect of INIT (R119). -/
def execRebind (s : State) : Host.Outcome State Fault Refusal := .next (startSession s)

/-- What `RESULT` records of the driver's answer (R120, R156). -/
def resetOutcome (ok : Bool) : ResetOutcome := if ok then .succeeded else .failed

/-- `PHASE <- Idle` and `NEXT_PERIOD <- 0` (R120). -/
def enterIdle (s : State) : State := { s with phase := .idle, nextPeriod := 0 }

/-- The driver's answer is drawn and recorded in `RESULT` (R120, R156). -/
def takeAnswer (ok : Bool) (s : State) : State := { recordAnswer ok s with result := resetOutcome ok }

/-- The pseudocode of DEINIT for a given driver's answer (R120), in its order. -/
def stopSession (ok : Bool) (s : State) : State :=
  s |> enterIdle |> emit .schedStop |> emit .radioReset |> takeAnswer ok

/-- `DEINIT`, legal in every phase, with the answer the driver gives (R120, R137). -/
def execDeinit (s : State) : Host.Outcome State Fault Refusal := .next (stopSession (drawnAnswer s) s)

/-- Encode a payload and hand the frame to the driver on a channel: the transmission of a tick (R122, R125; "In a tick
it always comes directly before that tick's WRITE_PAYLOAD", R138). -/
def transmit (ch : Byte) (payload : List Byte) (s : State) : State :=
  s |> encodeFrame payload |> emit (.setChannel ch) |> emit (.writePayload (frameOf payload s))

/-- `COUNT <- COUNT − 1` (R122). `COUNT ≥ 1` in Binding by INV2, so it does not wrap (log 9). -/
def countDown (s : State) : State := { s with count := s.count - 1 }

/-- `PHASE <- Live` (R124). -/
def enterLive (s : State) : State := { s with phase := .live }

/-- `BindComplete()`: Binding → Live (R124). -/
def bindComplete (s : State) : State :=
  s |> setActiveAddress s.idAddr |> enterLive |> setBindDone |> emit (.bindState 0)

/-- "if R[COUNT] = 0: BindComplete()" (R122). -/
def completeIfCounted (s : State) : State := if s.count = 0 then bindComplete s else s

/-- `BindTick()` (R122). -/
def bindTick (s : State) : State :=
  s |> transmit s.params.bindCh (bindPayload s) |> countDown |> completeIfCounted

/-- `CURSOR <- (CURSOR + 1) mod 4` (R126). -/
def advanceCursor (s : State) : State := { s with cursor := s.cursor + 1 }

/-- `LiveTick()` (R125): transmit on the channel under the cursor, then move the cursor. -/
def liveTick (s : State) : State :=
  s |> transmit s.idChan[s.cursor.toFin] (livePayload s) |> advanceCursor

/-- `PowerCheck()` (R131). -/
def powerCheck (s : State) : State :=
  if clampedPower s = s.pwrApplied then s else applyPower (clampedPower s) s

/-- The period hint and `TICK_DONE`, the end of a tick that is not ignored (R121, R143). -/
def reportPeriod (s : State) : State := emit (.tickDone s.params.periodUs) (setHint s.params.periodUs s)

/-- What ends a tick in Binding or Live (R121). -/
def finishTick (s : State) : State := s |> powerCheck |> reportPeriod

/-- `TICK` (R121). -/
def execTick (s : State) : Host.Outcome State Fault Refusal :=
  .next
    (match s.phase with
     | .idle => raise .tickIgn s
     | .binding => finishTick (bindTick s)
     | .live => finishTick (liveTick s))

end Sys2Proof.Machine
end

