-- ==== Sys2Proof/Machine/Dispatch.lean ====
section
/-! DEFINITION. One arm per command: the meaning of each (R81). -/

namespace Sys2Proof.Machine

def exec (i : Instr) (s : State) : Host.Outcome State Fault Refusal :=
  match i with
  | .nop => Sys2Proof.Machine.execNop s
  | .init => Sys2Proof.Machine.execInit s
  | .rebind => Sys2Proof.Machine.execRebind s
  | .deinit => Sys2Proof.Machine.execDeinit s
  | .derive => Sys2Proof.Machine.execDerive s
  | .setaddr => Sys2Proof.Machine.execSetaddr s
  | .encode => Sys2Proof.Machine.execEncode s
  | .tick => Sys2Proof.Machine.execTick s

end Sys2Proof.Machine
end

