-- ==== Sys2Proof/Machine/Bus.lean ====
section
/-! DEFINITION. The command port and the bus: what one input does (R24, R69, R72). -/

namespace Sys2Proof.Machine

/-- Issue the command with this code: run it, or raise `ILL_CMD` when the code is undefined (R24, R152). -/
def issue (code : Byte) (s : State) : Host.Outcome State Fault Refusal :=
  match decode [code] with
  | .ok (i, _) => exec i s
  | .error _ => .next (raise .illCmd s)

/-- A host write: `CMD` runs a command, every other byte is stored as its access kind says (R69). -/
def hostWrite (off v : Byte) (s : State) : Host.Outcome State Fault Refusal :=
  match regAt off with
  | .cmd => issue v s
  | r => .next (writeReg r v s)

/-- A host read: no register and no event changes (R69); the byte handed back is recorded (log 7). -/
def hostRead (off : Byte) (s : State) : State :=
  { s with readLog := s.readLog ++ [(off.toNat, memRead s off)] }

/-- An assertion of the reset input: every register to its reset value, the event stream empty, the scheduler stopped
(R170); the parameters, the inputs still to come and the draw counter stay (log 6). -/
def assertReset (s : State) : State :=
  { State.reset with params := s.params, inputs := s.inputs, drawIndex := s.drawIndex }

/-- The scheduler's own state moves as it issues a TICK (R145). -/
def noteTickIssued (s : State) : State := { s with sched := schedulerIssues s.sched }

/-- The scheduler writes TICK's code to `CMD` (R60, R145). -/
def schedTick (s : State) : Host.Outcome State Fault Refusal := issue Instr.tick.code (noteTickIssued s)

/-- The head of the inputs is taken. -/
def withInputs (rest : List Input) (s : State) : State := { s with inputs := rest }

/-- Serve one input, whole, before the next (R72). -/
def serve (x : Input) (s : State) : Host.Outcome State Fault Refusal :=
  match x with
  | .hostRead off => .next (hostRead off s)
  | .hostWrite off v => hostWrite off v s
  | .schedTick => schedTick s
  | .reset => .next (assertReset s)

/-- Serve the next input of the bus; with none to serve the block changes nothing (log 3). -/
def serveNext (s : State) : Host.Outcome State Fault Refusal :=
  match s.inputs with
  | [] => .next s
  | x :: rest => serve x (withInputs rest s)

/-- Put a host write of a command's code at the head of the bus (log 4). -/
def placeCommand (code : Byte) (s : State) : State :=
  { s with inputs := .hostWrite 0x00#8 code :: s.inputs }

end Sys2Proof.Machine
end

