-- ==== Sys2Proof/Machine/Step.lean ====
section
/-! DEFINITION. One step of the machine: the next input of the bus, served whole (R13, R72). -/

namespace Sys2Proof.Machine

/-- One step. -/
def step (s : State) : Host.Outcome State Fault Refusal := serveNext s

/-- The state whose next step runs the command in an opcode-table word: its byte is the next write to `CMD` (log 4). -/
def State.withFetchWord (s : State) (nbits w : Nat) : State :=
  placeCommand ((bytesOfNat (nbits / 8) w).headD 0) s

end Sys2Proof.Machine
end

