-- ==== Sys2Proof/Machine/Script.lean ====
section
/-! DEFINITION. The script syntax and its pseudo-instructions (R84): each line expands to the bus transactions it puts
on the bus. -/

namespace Sys2Proof.Machine

/-- A script line (R84). "Register names stand for their offsets": the offset of a named byte is `offsetOf`. -/
inductive ScriptLine where
  /-- `WR reg, v` -/
  | wr (off : Byte) (v : Byte)
  /-- `RD reg` -/
  | rd (off : Byte)
  /-- a command mnemonic: `WR CMD, code` by the host, and by the scheduler for TICK -/
  | cmd (i : Instr)
  | wr16 (off : Byte) (v : U16)
  | wr32 (off : Byte) (v : U32)
  | wrbuf (off : Byte) (bytes : List Byte)
  | clrstat
  | ticks (n : Nat)
  | rd16 (off : Byte)
  | rd32 (off : Byte)
  /-- `RDBUF reg, n`: n counts the bytes read. DESIGN CHOICE (log 16): R84 says only "byte reads at increasing
  offsets". -/
  | rdbuf (off : Byte) (n : Nat)
deriving DecidableEq, Repr

/-- Writes of bytes at consecutive offsets, lowest first, from 0xFF on to 0x00 (log 16). -/
def writesFrom (off : Byte) : List Byte → List Input
  | [] => []
  | v :: vs => .hostWrite off v :: writesFrom (off + 1) vs

/-- Reads of exactly n bytes at consecutive offsets, lowest first, from 0xFF on to 0x00 (log 16). -/
def readsFrom (off : Byte) : Nat → List Input
  | 0 => []
  | n + 1 => .hostRead off :: readsFrom (off + 1) n

/-- A command line: the scheduler writes TICK, the host every other command (R84). -/
def commandInput : Instr → Input
  | .tick => .schedTick
  | .nop => .hostWrite 0x00#8 Instr.nop.code
  | .init => .hostWrite 0x00#8 Instr.init.code
  | .rebind => .hostWrite 0x00#8 Instr.rebind.code
  | .deinit => .hostWrite 0x00#8 Instr.deinit.code
  | .derive => .hostWrite 0x00#8 Instr.derive.code
  | .setaddr => .hostWrite 0x00#8 Instr.setaddr.code
  | .encode => .hostWrite 0x00#8 Instr.encode.code

/-- The bus transactions of a script line (R84). That `RDBUF reg, n` reads the n bytes reg+0 … reg+n−1 is the model's
choice (log 16). -/
def expandLine : ScriptLine → List Input
  | .wr off v => [.hostWrite off v]
  | .rd off => [.hostRead off]
  | .cmd i => [commandInput i]
  | .wr16 off v => writesFrom off [getByte v 0, getByte v 1]
  | .wr32 off v => writesFrom off [getByte v 0, getByte v 1, getByte v 2, getByte v 3]
  | .wrbuf off bytes => writesFrom off bytes
  | .clrstat => [.hostWrite (offsetOf .status) 0xFF#8]
  | .ticks n => List.replicate n .schedTick
  | .rd16 off => readsFrom off 2
  | .rd32 off => readsFrom off 4
  | .rdbuf off n => readsFrom off n

/-- The bus transactions of a script. -/
def expandScript (lines : List ScriptLine) : List Input := lines.flatMap expandLine

end Sys2Proof.Machine
end

