-- ==== Sys2Proof/Machine/Format.lean ====
section
/-! DEFINITION. The frame format as 30_encoding.md and R104 state it independently of ENCODE's bit writer: the byte
form (R87), the length law (R88), the inverse (R89) and the bit-serial checksum register (R104). No command of the
DFE runs these; they are the terms that statements about frames are made in. -/

namespace Sys2Proof.Machine

/-- `b_last`: 1 when L = 0, else bit 0 of the last scrambled byte (R87). -/
def lastBit (scrambled : List Byte) : Bool := ((scrambled.getLast?).map fun b => b.getLsbD 0).getD true

/-- Bytes 3 .. 2+L of a frame: each scrambled byte's bits 7:1 below the bit before them (R87). -/
def shiftedBytes : Bool → List Byte → List Byte
  | _, [] => []
  | before, b :: rest => (BitVec.ofBool before ++ b.extractLsb' 1 7) :: shiftedBytes (b.getLsbD 0) rest

/-- A frame by the byte equations of R87, from its guard byte, control byte, scrambled bytes and checksum. -/
def frameByBytes (g c : Byte) (scrambled : List Byte) (checksum : Option U16) : List Byte :=
  let last := BitVec.ofBool (lastBit scrambled)
  [g, g, c] ++ shiftedBytes true scrambled ++
    match checksum with
    | none => [last ++ 0#7]
    | some k => [last ++ k.extractLsb' 9 7, k.extractLsb' 1 8, k.extractLsb' 0 1 ++ 0#7]

/-- The length law of R88. -/
def frameLength (crcOn : Bool) (len : Nat) : Nat := if crcOn then 6 + len else 4 + len

/-- `S[i]` unpacked from a frame (R89). -/
def unpackByte (f : List Byte) (i : Nat) : Byte :=
  (f.getD (3 + i) 0).extractLsb' 0 7 ++ (f.getD (4 + i) 0).extractLsb' 7 1

/-- The logical payload of a frame, `P[i] = S[i] XOR SCR[i]`: its control byte says how many bytes (R89). -/
def unpackFrame (scr : Vector Byte 15) (f : List Byte) : List Byte :=
  List.zipWith (fun b k => b ^^^ k) ((List.range ((f.getD 2 0).extractLsb' 2 6).toNat).map (unpackByte f)) scr.toList

/-- One bit into the bit-serial checksum register (R104). -/
def crcSerialBit (c : U16) (x : Bool) : U16 := if c.msb != x then (c <<< 1) ^^^ crcPoly else c <<< 1

/-- The bit-serial checksum register over a bit string in stream order (R104). -/
def crcSerial (c : U16) (bits : List Bool) : U16 := bits.foldl crcSerialBit c

end Sys2Proof.Machine
end

