-- ==== Sys2Proof/WellFormed.lean ====
section
/-! DEFINITION. Well-formedness. A command has no operand field (R79, R82), so every command is well formed. What the
spec does constrain is the parameter set (R8): one check per constraint. -/

namespace Sys2Proof

/-- Every command is well formed: it has no operand field to check (R79, R82). -/
def Instr.wellFormed : Instr → Bool
  | .nop | .init | .rebind | .deinit | .derive | .setaddr | .encode | .tick => true

/-- `1 ≤ BIND_COUNT ≤ 65535` (R8). -/
def Params.bindCountOk (p : Params) : Bool := decide (1 ≤ p.bindCount.toNat)

/-- `PERIOD_US ≥ 1` (R8). -/
def Params.periodOk (p : Params) : Bool := decide (1 ≤ p.periodUs.toNat)

/-- `1 ≤ CH_SLOTS ≤ 256` (R8). -/
def Params.slotsOk (p : Params) : Bool := decide (1 ≤ p.chSlots ∧ p.chSlots ≤ 256)

/-- `CH_BASE + CH_SLOTS − 1 ≤ 255` (R8). -/
def Params.channelsFit (p : Params) : Bool := decide (p.chBase.toNat + p.chSlots - 1 ≤ 255)

/-- `IN_MIN < IN_MAX` as signed numbers (R8). -/
def AxisParams.inputOk (a : AxisParams) : Bool := decide (a.inMin.toInt < a.inMax.toInt)

/-- `OUT_LO ≤ OUT_HI` (R8). -/
def AxisParams.outputOk (a : AxisParams) : Bool := decide (a.outLo.toNat ≤ a.outHi.toNat)

def AxisParams.wf (a : AxisParams) : Bool := a.inputOk && a.outputOk

/-- R8's constraints on the OPEN parameters. -/
def Params.wf (p : Params) : Bool :=
  p.bindCountOk && p.periodOk && p.slotsOk && p.channelsFit &&
    p.axisA.wf && p.axisB.wf && p.axisC.wf && p.axisD.wf

end Sys2Proof
end

