-- ==== Sys2Proof/Safety.lean ====
section
/-! DEFINITION. What a safe state and a safe event stream are (R53, 43_interface.md section 2), what a run shows (R149),
and the terms the statements are made in. -/

namespace Sys2Proof.Machine

/-! ### The invariants of R53 -/

/-- INV1 to INV8 of R53, over a parameter set that meets R8's constraints. -/
structure Inv (s : State) : Prop where
  paramsLegal : s.params.wf = true
  /-- INV1 -/
  cursorInTable : s.cursor.toNat < 4
  /-- INV2 -/
  bindingCount : s.phase = .binding → 1 ≤ s.count.toNat ∧ s.count.toNat ≤ s.params.bindCount.toNat
  /-- INV3 -/
  liveCount : s.phase = .live → s.count = 0
  /-- INV4 -/
  bindingAddress : s.phase = .binding → s.actAddr = s.params.bindAddr
  /-- INV5 -/
  liveAddress : s.phase = .live → s.actAddr = s.idAddr
  /-- INV6 -/
  powerBelowCeiling : s.pwrApplied ≤ s.params.pwrCeil
  /-- INV7 -/
  seedOfAddress : s.seed = crcSeed s.actAddr
  /-- INV8, first half -/
  frameLengthLegal : s.flen = 0 ∨ ∃ l, l ≤ 15 ∧ (s.flen.toNat = 4 + l ∨ s.flen.toNat = 6 + l)
  /-- INV8, second half -/
  framePadded : ∀ j : Fin 32, s.flen.toNat ≤ j.val → s.frame[j] = 0

/-! ### The rules of the event stream -/

/-- The event asks the driver to tune or to transmit. -/
def usesRadio : Event → Bool
  | .setChannel _ | .setPower _ | .writePayload _ => true
  | .radioInit | .radioReset | .schedStart _ | .schedStop | .tickDone _ | .bindState _ => false

/-- What the stream so far shows of R130, R136, R138, R140, R141 and R143, and the scheduler agent's own state as the
model reads R145 (log 5). -/
structure StreamRules (s : State) : Prop where
  /-- "no SET_POWER event ever carries a level above PWR_CEIL" (R130) -/
  powerBelowCeiling : ∀ level, .setPower level ∈ s.events → level ≤ s.params.pwrCeil
  /-- "There are 19 or 21 of them" (R140) -/
  payloadLength : ∀ bytes, .writePayload bytes ∈ s.events → bytes.length = 19 ∨ bytes.length = 21
  /-- SET_CHANNEL "always comes directly before that tick's WRITE_PAYLOAD" (R138) -/
  channelBeforePayload : ∀ before bytes after, s.events = before ++ .writePayload bytes :: after →
    ∃ earlier ch, before = earlier ++ [.setChannel ch]
  /-- tuning and transmission come after a RADIO_INIT (R136) -/
  radioBroughtUp : ∀ before e after, s.events = before ++ e :: after → usesRadio e = true → .radioInit ∈ before
  /-- a running session has brought the radio up (R118) -/
  sessionBroughtUp : s.phase ≠ .idle → .radioInit ∈ s.events
  /-- "`delay_us` is `INIT_WAIT_US`" (R141) -/
  startDelay : ∀ d, .schedStart d ∈ s.events → d = s.params.initWaitUs
  /-- the period "is always PERIOD_US" (R143) -/
  tickPeriod : ∀ p, .tickDone p ∈ s.events → p = s.params.periodUs
  /-- while a session runs the scheduler is armed with the last hint: the model's reading of R145, by which an event
  takes effect in the command that emits it (log 5) -/
  schedulerArmed : s.phase ≠ .idle → s.sched = .armed s.nextPeriod
  /-- outside a session the hint is 0 (R45) and the scheduler is stopped: the latter is the model's reading of R142 and
  R145 (log 5), since R155 speaks of "a scheduler that has not yet processed SCHED_STOP" -/
  schedulerStopped : s.phase = .idle → s.sched = .stopped ∧ s.nextPeriod = 0

/-! ### What a run shows -/

/-- A run's result: "the register image, offsets 0x00 to 0xFF, as read by MemRead; the event stream; the sequence of
driver answers drawn" (R149). -/
structure Observation where
  image : List Byte
  events : List Event
  answers : List Bool
deriving DecidableEq, Repr

/-- The observation of a state (R149). -/
def observe (s : State) : Observation :=
  { image := (List.range 256).map fun a => memRead s (BitVec.ofNat 8 a), events := s.events, answers := s.answers }

/-! ### Terms for statements -/

/-- The register image after reset, by offset range (R54). -/
def resetByte (off : Byte) : Byte :=
  if off = 0x03#8 then 0x01#8
  else if off = 0x0E#8 then 0x0C#8
  else if off = 0x0F#8 then 0x11#8
  else if off = 0x27#8 ∨ off = 0x28#8 then 0x0A#8
  else if off = 0x29#8 then 0x01#8
  else 0x00#8

/-- The access kind of an offset, written out from the table of R22. -/
def accessInTable (off : Byte) : Access :=
  if off = 0x00#8 then .wo
  else if off = 0x01#8 then .w1c
  else if off = 0x0D#8 then .warl
  else if off = 0x03#8 ∨ off = 0x04#8 ∨ off = 0x0B#8 then .rw
  else if 0x10#8 ≤ off ∧ off ≤ 0x18#8 then .rw
  else if 0x30#8 ≤ off ∧ off ≤ 0x4E#8 then .rw
  else if 0x70#8 ≤ off ∧ off ≤ 0x83#8 then .rw
  else if off = 0x2A#8 ∨ off = 0x2B#8 ∨ off = 0x4F#8 ∨ 0x88#8 ≤ off then .razWi
  else .ro

/-- The bits of a byte register that a write can set: the reserved bits of R27, R28 and R34 are RAZ/WI. -/
def liveMask : RegByte → Byte
  | .ctrl => 0x03#8
  | .pwrReq => 0x07#8
  | .plen => 0x3F#8
  | _ => 0xFF#8

/-- The byte an offset reads as after a host write of v to it, by its access kind (R23, R36). -/
def byteAfterWrite (old v : Byte) (r : RegByte) : Byte :=
  match accessOf r with
  | .rw => v &&& liveMask r
  | .warl => BitVec.ofNat 8 (min v.toNat 16)
  | .w1c => old &&& ~~~v
  | .ro => old
  | .wo | .razWi => 0x00#8

/-- The input writes this code to `CMD`, whoever issues it (R164). -/
def writesCode (code : Byte) : Input → Bool
  | .hostWrite off v => off == 0x00#8 && v == code
  | .schedTick => code == 0x20#8
  | .hostRead _ | .reset => false

/-- The input is a TICK. -/
def isTick (x : Input) : Bool := writesCode 0x20#8 x

/-- The input is no session command and no reset: not INIT, REBIND or DEINIT (R132 "with no other session
command"). -/
def sessionQuiet (x : Input) : Bool :=
  !(writesCode 0x01#8 x || writesCode 0x02#8 x || writesCode 0x03#8 x || x == .reset)

/-- The 248 undefined codes are those the table of R81 does not list. -/
def definedCodes : List Byte := [0x00#8, 0x01#8, 0x02#8, 0x03#8, 0x10#8, 0x11#8, 0x12#8, 0x20#8]

/-- The level INIT, REBIND and the power check apply: `min(PWR_REQ.LEVEL, PWR_CEIL)` in numbers (R130). -/
def appliedLevel (s : State) : BitVec 3 := BitVec.ofNat 3 (min s.pwrReq.toNat s.params.pwrCeil.toNat)

/-- The state INIT and REBIND leave, written out from the pseudocode of R118: every register it writes and the four
events in order. The scheduler agent's own state is not moved here. -/
def startedState (s : State) : State :=
  { s with
    idAddr := (derivedIdentity s).addr
    idChan := (derivedIdentity s).chan
    prngState := (derivedIdentity s).prng
    phase := .binding
    count := s.params.bindCount
    cursor := 0
    status := s.status &&& 0b01111#5
    actAddr := s.params.bindAddr
    seed := crcSeed s.params.bindAddr
    pwrApplied := appliedLevel s
    nextPeriod := s.params.initWaitUs
    events := s.events ++
      [.radioInit, .setPower (appliedLevel s),
       .bindState (BitVec.ofNat 32
         (min ((s.params.bindCount.toNat * s.params.periodUs.toNat + 999) / 1000) (2 ^ 32 - 1))),
       .schedStart s.params.initWaitUs] }

/-- The frame `Encode` builds of a payload, the registers it reads written out: the guard bytes are `ACT_ADDR[0]` (R109),
the packet id is the `PID` held before (R110), the checksum is on when `CTRL.CRC_EN` is 1 and starts from `SEED`
(R113), the scramble table is `SCR` (R112). -/
def encodedFrame (payload : List Byte) (s : State) : List Byte :=
  buildFrame
    { guardByte := s.actAddr[0], seed := s.seed, crcOn := s.ctrl.getLsbD 0, packetId := s.pid, scr := s.params.scr }
    payload

/-- The SET_POWER of a tick's power check: none when the clamped request is the applied level (R131). -/
def powerEvents (s : State) : List Event :=
  if appliedLevel s = s.pwrApplied then [] else [.setPower (appliedLevel s)]

/-- The state a tick in Binding leaves, written out from R121, R122, R124 and R131, the scheduler agent's own state
not moved. -/
def boundState (s : State) : State :=
  let f := encodedFrame (bindPayload s) s
  let last := s.count = 1
  { s with
    frame := padVec 32 f
    flen := BitVec.ofNat 6 f.length
    pid := s.pid + 1
    count := s.count - 1
    actAddr := if last then s.idAddr else s.actAddr
    seed := if last then crcSeed s.idAddr else s.seed
    phase := if last then .live else .binding
    status := if last then s.status ||| 0b10000#5 else s.status
    pwrApplied := appliedLevel s
    nextPeriod := s.params.periodUs
    events := s.events ++ [.setChannel s.params.bindCh, .writePayload f] ++
      (if last then [.bindState 0] else []) ++ powerEvents s ++ [.tickDone s.params.periodUs] }

/-- The state a tick in Live leaves, written out from R121, R125 and R131, the scheduler agent's own state not
moved. -/
def hoppedState (s : State) : State :=
  let f := encodedFrame (livePayload s) s
  { s with
    frame := padVec 32 f
    flen := BitVec.ofNat 6 f.length
    pid := s.pid + 1
    cursor := s.cursor + 1
    pwrApplied := appliedLevel s
    nextPeriod := s.params.periodUs
    events := s.events ++ [.setChannel s.idChan[s.cursor.toFin], .writePayload f] ++
      powerEvents s ++ [.tickDone s.params.periodUs] }

/-- The register bytes in the "writes" column of R82, by command. -/
def mayWrite (i : Instr) (r : RegByte) : Bool :=
  match i with
  | .nop => false
  | .init | .rebind =>
    match r with
    | .idAddr _ | .idChan _ | .prngState _ | .phase | .count _ | .cursor | .actAddr _ | .seed _ | .pwrApplied
    | .status | .nextPeriod _ => true
    | _ => false
  | .deinit =>
    match r with
    | .phase | .result | .nextPeriod _ => true
    | _ => false
  | .derive =>
    match r with
    | .idAddr _ | .idChan _ | .prngState _ | .status => true
    | _ => false
  | .setaddr =>
    match r with
    | .actAddr _ | .seed _ | .status => true
    | _ => false
  | .encode =>
    match r with
    | .frame _ | .flen | .pid | .status => true
    | _ => false
  | .tick =>
    match r with
    | .frame _ | .flen | .pid | .count _ | .cursor | .phase | .actAddr _ | .seed _ | .status | .pwrApplied
    | .nextPeriod _ => true
    | _ => false

/-- The events in the "events" column of R82, by command. -/
def mayEmit (i : Instr) (e : Event) : Bool :=
  match i with
  | .nop | .derive | .setaddr | .encode => false
  | .init | .rebind =>
    match e with
    | .radioInit | .setPower _ | .bindState _ | .schedStart _ => true
    | _ => false
  | .deinit =>
    match e with
    | .schedStop | .radioReset => true
    | _ => false
  | .tick =>
    match e with
    | .setChannel _ | .writePayload _ | .bindState _ | .setPower _ | .tickDone _ => true
    | _ => false

/-- The channels an event stream selects, in order. -/
def channelsOf (es : List Event) : List Byte :=
  es.filterMap fun e => match e with
    | .setChannel ch => some ch
    | _ => none

/-- The frames an event stream transmits, in order. -/
def framesOf (es : List Event) : List (List Byte) :=
  es.filterMap fun e => match e with
    | .writePayload bytes => some bytes
    | _ => none

/-- The phase after an input, by the table of R117. -/
def phaseAfter (x : Input) (s : State) : Phase :=
  if x = .reset then .idle
  else if writesCode 0x01#8 x || writesCode 0x02#8 x then .binding
  else if writesCode 0x03#8 x then .idle
  else if isTick x && decide (s.phase = .binding) && decide (s.count = 1) then .live
  else s.phase

end Sys2Proof.Machine
end

