-- ==== Sys2Proof/Certificates/Slice0/Obligations.lean ====
section
/-! DEFINITION. The statements for the provers. Inputs stand in the list `inputs` by log 3, and the driver's answer is
the free value of log 2, wherever a statement speaks of them. -/

open Sys2Proof Sys2Proof.Machine

/-! ### Commands: results, frames and completion -/

/-- R133: NOP is the code 0x00 and completes with the same state, in every phase. -/
def Obligations.NopChangesNothing : Prop :=
  encode .nop = [0x00#8] ∧ ∀ s : State, exec .nop s = .next s

/-- R118: INIT is the code 0x01 and completes in every state, with the registers and the four events of its
pseudocode; everything `startedState` does not name is unchanged, but for the scheduler agent's own state, which
`SchedulerFollowsEvents` states. -/
def Obligations.InitStartsSession : Prop :=
  encode .init = [0x01#8] ∧
    ∀ s : State, ∃ t, exec .init s = .next t ∧ t = { startedState s with sched := t.sched }

/-- R119: REBIND is the code 0x02 and has exactly the effect of INIT. -/
def Obligations.RebindStartsSessionAnew : Prop :=
  encode .rebind = [0x02#8] ∧
    ∀ s : State, ∃ t, exec .rebind s = .next t ∧ exec .init s = .next t ∧
      t = { startedState s with sched := t.sched }

/-- R120: DEINIT is the code 0x03 and completes in every state: Idle, no hint, SCHED_STOP then RADIO_RESET, and RESULT
from the driver's answer, whichever it is, read at 0x02 as 0x01 or 0xFF; a TICK after it is ignored. Everything else
is unchanged but for the scheduler agent's own state (`SchedulerFollowsEvents`) and the model's draw counter (log 2). Which answer it is,
`DeinitRecordsTheDrawnAnswer` states. -/
def Obligations.DeinitStopsSession : Prop :=
  encode .deinit = [0x03#8] ∧
    ∀ s : State, ∃ (t : State) (ok : Bool), exec .deinit s = .next t ∧
      t = { s with
        phase := .idle
        nextPeriod := 0
        events := s.events ++ [.schedStop, .radioReset]
        answers := s.answers ++ [ok]
        result := if ok then .succeeded else .failed
        sched := t.sched
        drawIndex := t.drawIndex } ∧
      memRead t 0x02#8 = (if ok then 0x01#8 else 0xFF#8) ∧
      exec .tick t = .next { t with status := t.status ||| 0b01000#5 }

/-- What RADIO_RESET answers, in the model's terms (log 2): DEINIT draws the free value at the draw counter, whichever of
the two it is, records it among the answers and as RESULT, and moves the counter by one, so that no draw repeats; no
other command draws (60_exceptions.md section 2). That the answer is a value at a counter is the model's choice. -/
def Obligations.DeinitRecordsTheDrawnAnswer : Prop :=
  (∀ s : State, ∃ t, exec .deinit s = .next t ∧
    t.answers = s.answers ++ [Config.driverAnswer s.drawIndex] ∧
    t.result = (if Config.driverAnswer s.drawIndex then .succeeded else .failed) ∧
    memRead t 0x02#8 = (if Config.driverAnswer s.drawIndex then 0x01#8 else 0xFF#8) ∧
    t.drawIndex = s.drawIndex + 1) ∧
  ∀ (i : Instr) (s t : State), i ≠ .deinit → exec i s = .next t → t.drawIndex = s.drawIndex ∧ t.answers = s.answers

/-- R102: DERIVE is the code 0x10; in Idle it writes the derived identity and nothing else, and a second DERIVE gives
the same; in Binding and Live it raises BUSY_ERR and changes nothing else. -/
def Obligations.DeriveWritesIdentityInIdle : Prop :=
  encode .derive = [0x10#8] ∧
    ∀ s : State,
      (s.phase = .idle → ∃ t, exec .derive s = .next t ∧ exec .derive t = .next t ∧
        t = { s with
          idAddr := (derivedIdentity s).addr
          idChan := (derivedIdentity s).chan
          prngState := (derivedIdentity s).prng }) ∧
      (s.phase ≠ .idle → exec .derive s = .next { s with status := s.status ||| 0b00100#5 })

/-- R107: SETADDR is the code 0x11; in Idle it makes ADDR_IN the active address and recomputes the seed, in
Binding and Live it raises BUSY_ERR and changes nothing else. -/
def Obligations.SetaddrActivatesAddressInIdle : Prop :=
  encode .setaddr = [0x11#8] ∧
    ∀ s : State,
      (s.phase = .idle → exec .setaddr s = .next { s with actAddr := s.addrIn, seed := crcSeed s.addrIn }) ∧
      (s.phase ≠ .idle → exec .setaddr s = .next { s with status := s.status ||| 0b00100#5 })

/-- R115 with R114: ENCODE is the code 0x12; in Idle with PLEN ≤ 15 it stores the frame of PAYLOAD[0..PLEN−1], padded
with 0x00, and its length, and advances PID mod 4; the frame is built from ACT_ADDR[0], SEED, CTRL.CRC_EN and the PID
held before (`encodedFrame` writes them out). BUSY_ERR is checked first, LEN_ERR second, and a refusal changes nothing
else. -/
def Obligations.EncodeStoresFrameInIdle : Prop :=
  encode .encode = [0x12#8] ∧
    ∀ s : State,
      (s.phase = .idle → s.plen.toNat ≤ 15 →
        ∃ t, exec .encode s = .next t ∧
          (∀ j : Fin 32, t.frame[j] = (encodedFrame (s.payload.toList.take s.plen.toNat) s).getD j 0) ∧
          t.flen.toNat = (encodedFrame (s.payload.toList.take s.plen.toNat) s).length ∧
          t.pid.toNat = (s.pid.toNat + 1) % 4 ∧
          t = { s with frame := t.frame, flen := t.flen, pid := t.pid }) ∧
      (s.phase ≠ .idle → exec .encode s = .next { s with status := s.status ||| 0b00100#5 }) ∧
      (s.phase = .idle → 15 < s.plen.toNat → exec .encode s = .next { s with status := s.status ||| 0b00010#5 })

/-- R155: a TICK in Idle sets TICK_IGN, emits nothing and changes no other register. -/
def Obligations.TickInIdleIsIgnored : Prop :=
  encode .tick = [0x20#8] ∧
    ∀ s : State, s.phase = .idle → exec .tick s = .next { s with status := s.status ||| 0b01000#5 }

/-- R122: a TICK in Binding transmits the bind frame on BIND_CH, counts down, completes the bind (R124) when COUNT was
1, and ends with the power check and TICK_DONE (R121, R131); everything `boundState` does not name is unchanged, but
for the scheduler agent's own state (`SchedulerFollowsEvents`). COUNT ≥ 1 in Binding is INV2 of R53, which
`EveryStepKeepsInvariants` states. -/
def Obligations.TickInBindingTransmitsAndCounts : Prop :=
  ∀ s : State, s.phase = .binding → 1 ≤ s.count.toNat →
    ∃ t, exec .tick s = .next t ∧ t = { boundState s with sched := t.sched }

/-- R125: a TICK in Live transmits the live frame on the channel under the cursor, advances the cursor, and ends with
the power check and TICK_DONE (R121, R131); everything `hoppedState` does not name is unchanged, but for the scheduler
agent's own state (`SchedulerFollowsEvents`). -/
def Obligations.TickInLiveTransmitsAndHops : Prop :=
  ∀ s : State, s.phase = .live → ∃ t, exec .tick s = .next t ∧ t = { hoppedState s with sched := t.sched }

/-- The scheduler agent after each command (43_interface.md section 3, R145): armed by SCHED_START and by TICK_DONE,
stopped by SCHED_STOP, and as it was after a command that sends it no event. That it has the event when the command
ends is the model's reading (log 5). -/
def Obligations.SchedulerFollowsEvents : Prop :=
  ∀ (i : Instr) (s t : State), exec i s = .next t →
    t.sched =
      (if i = .init ∨ i = .rebind then .armed s.params.initWaitUs
       else if i = .deinit then .stopped
       else if i = .tick ∧ s.phase ≠ .idle then .armed s.params.periodUs
       else s.sched)

/-- R154: in a session DERIVE, SETADDR and ENCODE set BUSY_ERR, whatever PLEN holds, and change nothing else. -/
def Obligations.ComponentCommandsRefusedInSession : Prop :=
  ∀ (i : Instr) (s : State), i = .derive ∨ i = .setaddr ∨ i = .encode → s.phase ≠ .idle →
    exec i s = .next { s with status := s.status ||| 0b00100#5 }

/-- R152: a code outside the eight sets ILL_CMD and nothing else happens, whatever the phase; there are 248 such
codes. -/
def Obligations.UndefinedCodeOnlySetsIllCmd : Prop :=
  (∀ (code : Byte) (s : State), code ∉ definedCodes → issue code s = .next { s with status := s.status ||| 0b00001#5 }) ∧
    ((List.range 256).filter fun n => BitVec.ofNat 8 n ∉ definedCodes).length = 248

/-- Every command, in every state, completes (R159, section 2 of 60_exceptions.md), and so does every input. -/
def Obligations.EveryInputCompletes : Prop :=
  (∀ (i : Instr) (s : State), ∃ t, exec i s = .next t) ∧
    ∀ s : State, ∃ t, step s = .next t ∧ t.inputs = s.inputs.tail

/-! ### What the commands compute -/

/-- R92: one generator step is s · PRNG_MUL + PRNG_ADD + b mod 2^32; under the test-only constants it gives the rule's
two examples. -/
def Obligations.GeneratorStepIsLinear : Prop :=
  (∀ (p : Params) (s : U32) (b : Byte),
    (prngStep p s b).toNat = (s.toNat * p.prngMul.toNat + p.prngAdd.toNat + b.toNat) % 2 ^ 32) ∧
  ∀ p : Params, p.prngMul = 0x0019660D#32 → p.prngAdd = 0x3C6EF35F#32 →
    prngStep p 0x01234567#32 0x01#8 = 0x1FEF839B#32 ∧ prngStep p 0xFFFFFFFF#32 0xFF#8 = 0x3C558E51#32

/-- R94 to R99: a derivation folds, from PRNG_SEED, the serial, the fixed identifier when enabled and ZERO_FOLDS zero
bytes, then extracts address and channels from the state and its next two advances; it writes nothing else. -/
def Obligations.DerivationFoldsThenExtracts : Prop :=
  ∀ s : State, s.params.wf = true →
    ∃ (t : State) (s3 s4 s5 : U32),
      t = identityDerive s ∧
      s3 = (s.serial.toList.take s.serialLen ++
          (if s.ctrl.getLsbD 1 then
            [s.fixedId.extractLsb' 0 8, s.fixedId.extractLsb' 8 8, s.fixedId.extractLsb' 16 8,
              s.fixedId.extractLsb' 24 8] else []) ++
          List.replicate s.params.zeroFolds.toNat 0x00#8).foldl (prngStep s.params) s.params.prngSeed ∧
      s4 = prngStep s.params s3 0x00#8 ∧ s5 = prngStep s.params s4 0x00#8 ∧
      t.idAddr.toList =
        [s3.extractLsb' 0 8, s3.extractLsb' 8 8, s3.extractLsb' 16 8, s3.extractLsb' 24 8, s4.extractLsb' 0 8] ∧
      (∀ i : Fin 4, t.idChan[i].toNat =
        s.params.chBase.toNat + (s5.extractLsb' (8 * i) 8).toNat % s.params.chSlots) ∧
      t.prngState = s5 ∧
      t = { s with idAddr := t.idAddr, idChan := t.idChan, prngState := t.prngState }

/-- The dependency property of 40_identity.md section 2 (R101's sentence, which the spec derives): equal parameters
and equal inputs give equal identities; serial bytes from SERIAL_LEN on, and FIXED_ID when it is not enabled, do not
matter. -/
def Obligations.DerivationReadsOnlyItsInputs : Prop :=
  ∀ s t : State, s.params = t.params → s.serialLen = t.serialLen →
    (∀ i : Fin 16, i.val < s.serialLen.val → s.serial[i] = t.serial[i]) →
    s.ctrl.getLsbD 1 = t.ctrl.getLsbD 1 → (s.ctrl.getLsbD 1 = true → s.fixedId = t.fixedId) →
    derivedIdentity s = derivedIdentity t

/-- R105: the seed folds the address bytes in reverse order from 0xFFFF; with the rule's four examples. -/
def Obligations.ChecksumSeedFoldsAddressInReverse : Prop :=
  (∀ a : Vector Byte 5, crcSeed a =
    crcUpdate (crcUpdate (crcUpdate (crcUpdate (crcUpdate 0xFFFF#16 a[4] 8) a[3] 8) a[2] 8) a[1] 8) a[0] 8) ∧
  crcSeed #v[0x00#8, 0x00#8, 0x00#8, 0x00#8, 0x00#8] = 0x110C#16 ∧
  crcSeed #v[0xC1#8, 0xC2#8, 0xC3#8, 0xC4#8, 0xC5#8] = 0xBE4A#16 ∧
  crcSeed #v[0x01#8, 0x02#8, 0x03#8, 0x04#8, 0x05#8] = 0xD7B9#16 ∧
  crcSeed #v[0xFF#8, 0xFF#8, 0xFF#8, 0xFF#8, 0xFF#8] = 0xD26C#16

/-- The bit-serial form of 41_codec.md section 1 (R104's claim, which the spec derives), for a last byte whose low
seven bits are 0: only there do R103's pseudocode and R104 agree (log 8). -/
def Obligations.ByteUpdatesEqualBitSerialRegister : Prop :=
  ∀ (c : U16) (bytes : List Byte) (last : Byte), last.extractLsb' 0 7 = 0 →
    crcUpdate (crcBytes c bytes) last 1 = crcSerial c (bytes.flatMap bitsOf ++ [last.msb])

/-- The checksum of a frame is the bit-serial register over all its 25 + 8L bits before K, from SEED (41_codec.md
sections 1 and 3). -/
def Obligations.FrameChecksumCoversEveryBit : Prop :=
  ∀ (x : CodecContext) (payload : List Byte), payload.length ≤ 15 →
    (plainBits x payload).length = 25 + 8 * payload.length ∧
      frameChecksum x payload = crcSerial x.seed (plainBits x payload)

/-- The bit writer's frame is the byte form of 30_encoding.md section 3 (the equations the spec derives in R87), whose
byte i of the scrambled payload is P[i] XOR SCR[i]. -/
def Obligations.FrameMatchesByteEquations : Prop :=
  ∀ (x : CodecContext) (payload : List Byte), payload.length ≤ 15 →
    buildFrame x payload =
      frameByBytes x.guardByte (BitVec.ofNat 8 (payload.length <<< 2 ||| x.packetId.toNat))
        (List.zipWith (fun p k => p ^^^ k) payload x.scr.toList)
        (if x.crcOn then some (frameChecksum x payload) else none)

/-- The frame length is 4 + L without the checksum and 6 + L with it (30_encoding.md section 3; the law the spec
derives in R88). -/
def Obligations.FrameLengthLaw : Prop :=
  ∀ (x : CodecContext) (payload : List Byte), payload.length ≤ 15 →
    (buildFrame x payload).length = (if x.crcOn then 6 + payload.length else 4 + payload.length)

/-- Unpacking a frame gives the logical payload back, and its no-ack bit is 1 (30_encoding.md section 3; the inverse
the spec derives in R89). -/
def Obligations.UnpackingRecoversPayload : Prop :=
  ∀ (x : CodecContext) (payload : List Byte), payload.length ≤ 15 →
    unpackFrame x.scr (buildFrame x payload) = payload ∧
      ((buildFrame x payload).getD 3 0).getLsbD 7 = true

/-- R90: the 15 bytes of a bind payload. -/
def Obligations.BindPayloadLayout : Prop :=
  ∀ s : State, bindPayload s =
    [s.params.bindMarker, s.idChan[0], s.idChan[1], s.idChan[2], s.idChan[3],
     s.idAddr[0], s.idAddr[1], s.idAddr[2], s.idAddr[3], s.idAddr[4], 0x00#8, 0x00#8, 0x00#8, 0x00#8, 0x00#8]

/-- R91: the 15 bytes of a live payload: axes A and B inverted, C and D not, the rate byte, the flags byte with its
bits 7:3 zero, and nine zero bytes. -/
def Obligations.LivePayloadLayout : Prop :=
  ∀ s : State,
    livePayload s =
      [scaleWith s.params.axisA true s.chIn[0], scaleWith s.params.axisB true s.chIn[1],
       scaleWith s.params.axisC false s.chIn[2], scaleWith s.params.axisD false s.chIn[3], s.params.rateByte,
       flagsByte s, 0x00#8, 0x00#8, 0x00#8, 0x00#8, 0x00#8, 0x00#8, 0x00#8, 0x00#8, 0x00#8] ∧
    ((flagsByte s).getLsbD 0 = true ↔ 0 < s.chIn[5].toInt) ∧
    ((flagsByte s).getLsbD 1 = true ↔ 0 < s.chIn[8].toInt) ∧
    ((flagsByte s).getLsbD 2 = true ↔ 0 < s.chIn[9].toInt) ∧
    (flagsByte s).extractLsb' 3 5 = 0

/-- R128: the scaled byte is OUT_LO + q, or OUT_HI − q when inverted, with q the floor of the rescaled clamped input;
it lies in [OUT_LO, OUT_HI], the product is below 2^24, and an input at or beyond an end of the range gives the
byte of that end. -/
def Obligations.ScaleClampsAndRescales : Prop :=
  ∀ (a : AxisParams) (inverted : Bool) (raw : U16), a.wf = true →
    ∃ c q : Int,
      c = min (max raw.toInt a.inMin.toInt) a.inMax.toInt ∧
      q = (c - a.inMin.toInt) * ((a.outHi.toNat : Int) - a.outLo.toNat) / (a.inMax.toInt - a.inMin.toInt) ∧
      ((scaleWith a inverted raw).toNat : Int) = (if inverted then a.outHi.toNat - q else a.outLo.toNat + q) ∧
      (c - a.inMin.toInt) * ((a.outHi.toNat : Int) - a.outLo.toNat) < 2 ^ 24 ∧
      a.outLo ≤ scaleWith a inverted raw ∧ scaleWith a inverted raw ≤ a.outHi ∧
      (raw.toInt ≤ a.inMin.toInt → scaleWith a inverted raw = if inverted then a.outHi else a.outLo) ∧
      (a.inMax.toInt ≤ raw.toInt → scaleWith a inverted raw = if inverted then a.outLo else a.outHi)

/-- The observer's start value (43_interface.md section 2, R144): the bind time in milliseconds rounded up, saturated,
and never 0. -/
def Obligations.ObserverStartValueIsPositive : Prop :=
  ∀ p : Params, p.wf = true →
    (bindTimeMs p).toNat = min ((p.bindCount.toNat * p.periodUs.toNat + 999) / 1000) (2 ^ 32 - 1) ∧
      1 ≤ (bindTimeMs p).toNat

/-! ### Encoding -/

/-- R81: the code of each command, and that decoding and encoding agree both ways on single bytes, whatever
follows. -/
def Obligations.DecodeAndEncodeAgree : Prop :=
  [Instr.nop, .init, .rebind, .deinit, .derive, .setaddr, .encode, .tick].map encode =
    [[0x00#8], [0x01#8], [0x02#8], [0x03#8], [0x10#8], [0x11#8], [0x12#8], [0x20#8]] ∧
  (∀ (i : Instr) (rest : List Byte), decode (encode i ++ rest) = .ok (i, rest)) ∧
    ∀ (code : Byte) (i : Instr) (rest : List Byte), decode [code] = .ok (i, rest) → encode i = [code] ∧ rest = []

/-- The words of the table, written out bit by bit, decode to their commands. -/
def Obligations.WrittenCodesDecode : Prop :=
  decodeTableWord 8 0b00000000 = some .nop ∧ decodeTableWord 8 0b00000001 = some .init ∧
    decodeTableWord 8 0b00010010 = some .encode ∧ decodeTableWord 8 0b00100000 = some .tick ∧
    decodeTableWord 8 0b00010011 = none

/-- A host write of a byte to `CMD` issues that command at once (R24): the step is exec of the decoded command on the
state whose next input has been taken; an undefined code raises ILL_CMD; a scheduler tick runs TICK after the
scheduler's own state has moved to waiting, which is the model's reading of R145 (log 5); a read of `CMD` returns 0x00
and issues nothing, where what it returns is seen in `readLog`, the model's own record (log 7). The list `inputs` is
the model's (log 3). -/
def Obligations.StepRunsDecodedCommand : Prop :=
  (∀ (s : State) (code : Byte) (rest : List Input) (i : Instr),
    s.inputs = .hostWrite 0x00#8 code :: rest → decode [code] = .ok (i, []) → i.wellFormed = true →
      step s = exec i { s with inputs := rest }) ∧
  (∀ (s : State) (code : Byte) (rest : List Input) (e : DecodeRefusal),
    s.inputs = .hostWrite 0x00#8 code :: rest → decode [code] = .error e →
      step s = .next { s with inputs := rest, status := s.status ||| 0b00001#5 }) ∧
  (∀ (s : State) (rest : List Input), s.inputs = .schedTick :: rest →
      step s = exec .tick { s with inputs := rest, sched := schedulerIssues s.sched }) ∧
  ∀ (s : State) (rest : List Input), s.inputs = .hostRead 0x00#8 :: rest →
      step s = .next { s with inputs := rest, readLog := s.readLog ++ [(0, 0x00#8)] }

/-- A table word placed by `withFetchWord` is what the next step runs (log 4). -/
def Obligations.PlacedWordRunsNext : Prop :=
  ∀ (s : State) (w : Nat) (i : Instr), decodeTableWord 8 w = some i → step (s.withFetchWord 8 w) = exec i s

/-! ### The register space -/

/-- R54: the whole register image after reset, and an empty event stream. -/
def Obligations.RegisterImageAfterReset : Prop :=
  (∀ off : Byte, memRead State.reset off = resetByte off) ∧ State.reset.events = []

/-- R170: serving an assertion of the reset input, from every state, puts every register to its reset value and
empties the event stream; it emits no event, and the scheduler is stopped. -/
def Obligations.ResetInputRestoresRegisters : Prop :=
  ∀ s : State, ∃ t, serve .reset s = .next t ∧
    (∀ off : Byte, memRead t off = resetByte off) ∧ t.events = [] ∧ t.sched = .stopped

/-- R43 with R44: the capability registers are constants in every state, and a write does not change them. -/
def Obligations.CapabilityRegistersAreConstant : Prop :=
  ∀ (s : State) (v : Byte) (off : Byte),
    memRead (memWrite off v s) 0x27#8 = 0x0A#8 ∧ memRead (memWrite off v s) 0x28#8 = 0x0A#8 ∧
      memRead (memWrite off v s) 0x29#8 = 0x01#8

/-- R23 with R36 and R69: a host write served at any offset but `CMD`'s completes, the offset then reads as its access
kind says, every other offset reads as before, and the write emits nothing and touches nothing outside the register
space. A write to `CMD` runs a command instead (R24): `StepRunsDecodedCommand` states it. -/
def Obligations.RegisterWriteFollowsAccessKind : Prop :=
  ∀ (s : State) (off v : Byte), off ≠ 0x00#8 →
    ∃ t, serve (.hostWrite off v) s = .next t ∧
      memRead t off = byteAfterWrite (memRead s off) v (regAt off) ∧
      (∀ other : Byte, other ≠ off → memRead t other = memRead s other) ∧
      t.events = s.events ∧ t.answers = s.answers ∧ t.sched = s.sched ∧ t.params = s.params ∧
      t.inputs = s.inputs ∧ t.readLog = s.readLog ∧ t.drawIndex = s.drawIndex

/-- R63: every multi-byte register is little-endian: its byte at the lowest offset holds bits 7:0, and so on. -/
def Obligations.MultiByteRegistersAreLittleEndian : Prop :=
  ∀ s : State,
    memRead s 0x09#8 ++ memRead s 0x08#8 = s.count ∧
    memRead s 0x0F#8 ++ memRead s 0x0E#8 = s.seed ∧
    memRead s 0x13#8 ++ memRead s 0x12#8 ++ memRead s 0x11#8 ++ memRead s 0x10#8 = s.fixedId ∧
    memRead s 0x2F#8 ++ memRead s 0x2E#8 ++ memRead s 0x2D#8 ++ memRead s 0x2C#8 = s.nextPeriod ∧
    memRead s 0x87#8 ++ memRead s 0x86#8 ++ memRead s 0x85#8 ++ memRead s 0x84#8 = s.prngState ∧
    ∀ k : Fin 10, memRead s (BitVec.ofNat 8 (0x71 + 2 * k)) ++ memRead s (BitVec.ofNat 8 (0x70 + 2 * k)) = s.chIn[k]

/-- What a read gives at every offset of R22 that is no byte of a multi-byte register and no constant, in every state:
each register stands at its offset with its reserved bits 0, element i of an array at its base plus i (R64), PHASE and
RESULT by their codes (R30, R26), `CMD` and the reserved offsets read 0 (R24, R51).
`MultiByteRegistersAreLittleEndian` and `CapabilityRegistersAreConstant` state the other offsets. -/
def Obligations.ReadsShowTheRegisters : Prop :=
  ∀ s : State,
    memRead s 0x00#8 = 0x00#8 ∧
    memRead s 0x01#8 = 0b000#3 ++ s.status ∧
    memRead s 0x02#8 = (match s.result with | .none => 0x00#8 | .succeeded => 0x01#8 | .failed => 0xFF#8) ∧
    memRead s 0x03#8 = 0b000000#6 ++ s.ctrl ∧
    memRead s 0x04#8 = 0b00000#5 ++ s.pwrReq ∧
    memRead s 0x05#8 = 0b00000#5 ++ s.pwrApplied ∧
    memRead s 0x06#8 = (match s.phase with | .idle => 0x00#8 | .binding => 0x01#8 | .live => 0x02#8) ∧
    memRead s 0x07#8 = 0b000000#6 ++ s.cursor ∧
    memRead s 0x0A#8 = 0b000000#6 ++ s.pid ∧
    memRead s 0x0B#8 = 0b00#2 ++ s.plen ∧
    memRead s 0x0C#8 = 0b00#2 ++ s.flen ∧
    (memRead s 0x0D#8).toNat = s.serialLen ∧
    (∀ i : Fin 5, memRead s (BitVec.ofNat 8 (0x14 + i)) = s.addrIn[i]) ∧
    (∀ i : Fin 5, memRead s (BitVec.ofNat 8 (0x19 + i)) = s.actAddr[i]) ∧
    (∀ i : Fin 5, memRead s (BitVec.ofNat 8 (0x1E + i)) = s.idAddr[i]) ∧
    (∀ i : Fin 4, memRead s (BitVec.ofNat 8 (0x23 + i)) = s.idChan[i]) ∧
    (∀ i : Fin 16, memRead s (BitVec.ofNat 8 (0x30 + i)) = s.serial[i]) ∧
    (∀ i : Fin 15, memRead s (BitVec.ofNat 8 (0x40 + i)) = s.payload[i]) ∧
    (∀ i : Fin 32, memRead s (BitVec.ofNat 8 (0x50 + i)) = s.frame[i]) ∧
    ∀ off : Byte, off = 0x2A#8 ∨ off = 0x2B#8 ∨ off = 0x4F#8 ∨ 0x88#8 ≤ off → memRead s off = 0x00#8

/-- The names by which other statements speak of offsets are those of the table of R22: each offset's register byte,
that a read goes through it, and its access kind. -/
def Obligations.RegisterMapFollowsTheTable : Prop :=
  (∀ (s : State) (off : Byte), memRead s off = readReg s (regAt off)) ∧
  (∀ off : Byte, accessOf (regAt off) = accessInTable off) ∧
  [0x00#8, 0x01#8, 0x02#8, 0x03#8, 0x04#8, 0x05#8, 0x06#8, 0x07#8, 0x0A#8, 0x0B#8, 0x0C#8, 0x0D#8, 0x27#8, 0x28#8,
      0x29#8].map regAt =
    [.cmd, .status, .result, .ctrl, .pwrReq, .pwrApplied, .phase, .cursor, .pid, .plen, .flen, .serialLen, .capNumCh,
      .capDefCh, .capFlags] ∧
  (∀ b : Fin 2, regAt (BitVec.ofNat 8 (0x08 + b)) = .count b ∧ regAt (BitVec.ofNat 8 (0x0E + b)) = .seed b) ∧
  (∀ b : Fin 4, regAt (BitVec.ofNat 8 (0x10 + b)) = .fixedId b ∧ regAt (BitVec.ofNat 8 (0x2C + b)) = .nextPeriod b ∧
    regAt (BitVec.ofNat 8 (0x84 + b)) = .prngState b) ∧
  (∀ i : Fin 5, regAt (BitVec.ofNat 8 (0x14 + i)) = .addrIn i ∧ regAt (BitVec.ofNat 8 (0x19 + i)) = .actAddr i ∧
    regAt (BitVec.ofNat 8 (0x1E + i)) = .idAddr i) ∧
  (∀ i : Fin 4, regAt (BitVec.ofNat 8 (0x23 + i)) = .idChan i) ∧
  (∀ i : Fin 16, regAt (BitVec.ofNat 8 (0x30 + i)) = .serial i) ∧
  (∀ i : Fin 15, regAt (BitVec.ofNat 8 (0x40 + i)) = .payload i) ∧
  (∀ i : Fin 32, regAt (BitVec.ofNat 8 (0x50 + i)) = .frame i) ∧
  ∀ (k : Fin 10) (b : Fin 2), regAt (BitVec.ofNat 8 (0x70 + 2 * k + b)) = .chIn k b

/-- R69, its sentences on reads: a read of any offset changes no byte of the register space and no event, and the byte
handed back is the one the offset reads as (log 7). -/
def Obligations.ReadsHaveNoSideEffect : Prop :=
  ∀ (s : State) (off : Byte) (rest : List Input), s.inputs = .hostRead off :: rest →
    ∃ t, step s = .next t ∧ observe t = observe s ∧ t.inputs = rest ∧
      t.readLog = s.readLog ++ [(off.toNat, memRead s off)]

/-! ### Whole-machine rules -/

/-- The "writes" and "events" columns of R82: a command changes no byte of the register space outside the registers
its row names, and appends only events of the kinds its row names. -/
def Obligations.CommandsWriteOnlyTheirRow : Prop :=
  ∀ (i : Instr) (s t : State), exec i s = .next t →
    (∀ r : RegByte, mayWrite i r = false → readReg t r = readReg s r) ∧
      ∃ new, t.events = s.events ++ new ∧ ∀ e ∈ new, mayEmit i e = true

/-- No step changes the parameters (R8; log 1), and but for a reset no step withdraws or reorders an event (R74,
R135). -/
def Obligations.ParametersFixedAndEventsOnlyGrow : Prop :=
  ∀ s t : State, step s = .next t →
    t.params = s.params ∧ (s.inputs.head? ≠ some .reset → ∃ new, t.events = s.events ++ new)

/-- STATUS bits are sticky (10_state.md section 3, R25): a set bit is cleared only by a host write of 1 to it, by
reset, or, for BIND_DONE, by INIT or REBIND. -/
def Obligations.StatusBitsAreSticky : Prop :=
  ∀ (x : Input) (s t : State) (b : StatusBit), serve x s = .next t →
    statusBit b s = true → statusBit b t = false →
      (∃ v : Byte, x = .hostWrite 0x01#8 v ∧ v.getLsbD (statusIndex b) = true) ∨ x = .reset ∨
        (b = .bindDone ∧ (writesCode 0x01#8 x = true ∨ writesCode 0x02#8 x = true))

/-- R151: the conditions that set a STATUS bit, each sets its bit, and no other condition does. -/
def Obligations.StatusBitsSetByTheirConditions : Prop :=
  ∀ (x : Input) (s t : State) (b : StatusBit), serve x s = .next t → statusBit b s = false →
    (statusBit b t = true ↔
      match b with
      | .illCmd => ∃ code, writesCode code x = true ∧ code ∉ definedCodes
      | .lenErr => writesCode 0x12#8 x = true ∧ s.phase = .idle ∧ 15 < s.plen.toNat
      | .busyErr =>
        (writesCode 0x10#8 x = true ∨ writesCode 0x11#8 x = true ∨ writesCode 0x12#8 x = true) ∧ s.phase ≠ .idle
      | .tickIgn => writesCode 0x20#8 x = true ∧ s.phase = .idle
      | .bindDone => writesCode 0x20#8 x = true ∧ s.phase = .binding ∧ t.phase = .live)

/-- R117: the phase moves by the table and in no other way, from every state in which Binding has a count left
(INV2 of R53). -/
def Obligations.PhaseMovesByTheTable : Prop :=
  ∀ (x : Input) (s t : State), (s.phase = .binding → 1 ≤ s.count.toNat) → serve x s = .next t →
    t.phase = phaseAfter x s

/-- The identity is immutable within a session (10_state.md section 4, R41 and R42): only a reset, INIT, REBIND, or
DERIVE in Idle, changes it. -/
def Obligations.IdentityImmutableInSession : Prop :=
  ∀ (x : Input) (s t : State), serve x s = .next t → (t.idAddr ≠ s.idAddr ∨ t.idChan ≠ s.idChan) →
    x = .reset ∨ writesCode 0x01#8 x = true ∨ writesCode 0x02#8 x = true ∨
      (writesCode 0x10#8 x = true ∧ s.phase = .idle)

/-- The packet id advances mod 4 at every successful ENCODE and every tick of a session, and at nothing else but reset
(10_state.md section 3, R33). -/
def Obligations.PacketIdCountsEncodes : Prop :=
  ∀ (x : Input) (s t : State), x ≠ .reset → serve x s = .next t →
    t.pid = if (writesCode 0x12#8 x ∧ s.phase = .idle ∧ s.plen.toNat ≤ 15) ∨ (isTick x ∧ s.phase ≠ .idle)
      then s.pid + 1 else s.pid

/-- R126: the cursor advances, once, only in a Live tick, after the channel of that tick's frame has been selected;
INIT and REBIND set it to 0; every other command leaves it alone. -/
def Obligations.CursorAdvancesOnlyInLiveTicks : Prop :=
  ∀ (i : Instr) (s t : State), exec i s = .next t →
    t.cursor.toNat =
      (if i = .init ∨ i = .rebind then 0
       else if i = .tick ∧ s.phase = .live then (s.cursor.toNat + 1) % 4 else s.cursor.toNat) ∧
    (i = .tick → s.phase = .live →
      ∃ later, t.events = s.events ++ .setChannel s.idChan[s.cursor.toFin] :: later ∧ channelsOf later = [])

/-- A TICK the host writes behaves exactly like one the scheduler writes, but for the scheduler agent's own state
(60_exceptions.md section 4, R164). -/
def Obligations.HostTickEqualsSchedulerTick : Prop :=
  ∀ s : State, ∃ t u, serve .schedTick s = .next t ∧ serve (.hostWrite 0x00#8 0x20#8) s = .next u ∧
    t = { u with sched := t.sched }

/-- Every frame a session transmits has 19 bytes when CRC_EN is 0 at its tick and 21 when it is 1, and is what
FRAME[0..FLEN−1] then holds (42_session.md section 6; R140). -/
def Obligations.SessionFramesHaveFixedLength : Prop :=
  ∀ s : State, s.phase ≠ .idle →
    ∃ t f, exec .tick s = .next t ∧ framesOf t.events = framesOf s.events ++ [f] ∧
      f.length = (if s.ctrl.getLsbD 0 then 21 else 19) ∧ t.flen.toNat = f.length ∧
      t.frame.toList.take t.flen.toNat = f

/-! ### Invariants and runs -/

/-- The invariants of 10_state.md section 6 hold at reset. -/
def Obligations.InvariantsHoldAtReset : Prop := Inv State.reset

/-- The invariants of 10_state.md section 6 (INV1 to INV8) are kept by every step, from every state that has them. -/
def Obligations.EveryStepKeepsInvariants : Prop :=
  ∀ s t : State, Inv s → step s = .next t → Inv t

/-- The rules of the event stream hold at reset, and those of the scheduler agent as the model reads R145 (log 5). -/
def Obligations.StreamRulesHoldAtReset : Prop := StreamRules State.reset

/-- The rules of the event stream (43_interface.md section 2) are kept by every step, from every state that has them,
and with them the scheduler agent's own state: armed with the hint while a session runs, stopped outside one. That
the scheduler has an event when the command that emits it ends is the model's reading of R145 (log 5). -/
def Obligations.EveryStepKeepsStreamRules : Prop :=
  ∀ s t : State, StreamRules s → step s = .next t → StreamRules t

/-- The bind countdown of 42_session.md section 6, item 1, and 43_interface.md section 3: after INIT and any inputs
that hold no session command and no reset, with k ticks among them, k < BIND_COUNT leaves Binding with
BIND_COUNT − k to go and k ≥ BIND_COUNT leaves Live; the observer has received the start value, which is not 0,
and then a single 0 if the bind is complete; and up to the transition exactly k frames went out, all on BIND_CH.
A session that REBIND starts is the same one, by `RebindStartsSessionAnew`. -/
def Obligations.BindCountdownReachesLive : Prop :=
  ∀ (s : State) (rest : List Input), s.params.wf = true → s.inputs = .hostWrite 0x00#8 0x01#8 :: rest →
    (∀ x ∈ rest, sessionQuiet x = true) →
    ∃ t new, Sys2Proof.core.run (rest.length + 1) s = .next t ∧ t.events = s.events ++ new ∧
      (rest.countP isTick < s.params.bindCount.toNat →
        t.phase = .binding ∧ t.count.toNat = s.params.bindCount.toNat - rest.countP isTick) ∧
      (s.params.bindCount.toNat ≤ rest.countP isTick → t.phase = .live ∧ t.count = 0) ∧
      (∃ start : U32, start ≠ 0 ∧ eventsFor .observer new =
        .bindState start :: (if s.params.bindCount.toNat ≤ rest.countP isTick then [.bindState 0] else [])) ∧
      (rest.countP isTick ≤ s.params.bindCount.toNat →
        (framesOf new).length = rest.countP isTick ∧
          channelsOf new = List.replicate (rest.countP isTick) s.params.bindCh)

/-- Hopping, 42_session.md section 6, item 2: from a Live state, over any inputs that hold no session command and no
reset, the j-th Live tick transmits on ID_CHAN[(CURSOR + j) mod 4], and the phase stays Live. -/
def Obligations.LiveTicksHopThroughTheTable : Prop :=
  ∀ s : State, s.phase = .live → (∀ x ∈ s.inputs, sessionQuiet x = true) →
    ∃ t new, Sys2Proof.core.run s.inputs.length s = .next t ∧ t.phase = .live ∧ t.events = s.events ++ new ∧
      t.cursor.toNat = (s.cursor.toNat + s.inputs.countP isTick) % 4 ∧
      channelsOf new = (List.range (s.inputs.countP isTick)).map
        fun j => s.idChan.toList.getD ((s.cursor.toNat + j) % 4) 0
end

