-- ==== Sys2Proof/Laws/Codec.lean ====
section
/-! SUPPORT. The bit writer (R108) byte by byte, and the checksum bit by bit (R103, R104). -/

namespace Sys2Proof.Machine

/-! ### The bit writer -/

@[simp] theorem length_bitsOf {n : Nat} (v : BitVec n) : (bitsOf v).length = n := by simp [bitsOf]

theorem bitsOf_byte (b : Byte) : bitsOf b = [b.getLsbD 7, b.getLsbD 6, b.getLsbD 5, b.getLsbD 4, b.getLsbD 3,
    b.getLsbD 2, b.getLsbD 1, b.getLsbD 0] := by
  simp [bitsOf, BitVec.getMsbD, List.range, List.range.loop]

@[simp] theorem length_packBytes (w : List Bool) : (packBytes w).length = (w.length + 7) / 8 := by
  simp [packBytes]

/-- A byte from eight bits, most significant first. -/
def byteOf (b7 b6 b5 b4 b3 b2 b1 b0 : Bool) : Byte :=
  BitVec.ofBool b7 ++ BitVec.ofBool b6 ++ BitVec.ofBool b5 ++ BitVec.ofBool b4 ++ BitVec.ofBool b3 ++
    BitVec.ofBool b2 ++ BitVec.ofBool b1 ++ BitVec.ofBool b0

/-- The first byte of eight bits or more is those bits; the other bytes come from the rest. -/
theorem packBytes_eight (b7 b6 b5 b4 b3 b2 b1 b0 : Bool) (w : List Bool) :
    packBytes (b7 :: b6 :: b5 :: b4 :: b3 :: b2 :: b1 :: b0 :: w) = byteOf b7 b6 b5 b4 b3 b2 b1 b0 :: packBytes w := by
  simp only [packBytes, List.length_cons, Nat.add_assoc]
  rw [show w.length + (1 + (1 + (1 + (1 + (1 + (1 + (1 + (1 + 7)))))))) = w.length + 15 from by omega,
    show (w.length + 15) / 8 = (w.length + 7) / 8 + 1 from by omega, List.range_succ_eq_map, List.map_cons,
    List.map_map]
  rfl

theorem byteOf_bits (b : Byte) : byteOf (b.getLsbD 7) (b.getLsbD 6) (b.getLsbD 5) (b.getLsbD 4) (b.getLsbD 3)
    (b.getLsbD 2) (b.getLsbD 1) (b.getLsbD 0) = b := by
  revert b; decide +kernel

/-- A whole byte put on a byte boundary comes out as that byte. -/
theorem packBytes_byte (b : Byte) (w : List Bool) : packBytes (bitsOf b ++ w) = b :: packBytes w := by
  rw [bitsOf_byte]
  exact (packBytes_eight ..).trans (by rw [byteOf_bits]; rfl)

/-- A byte put one bit off the boundary: its bits 7:1 below the bit before it, its bit 0 left over (R112). -/
theorem packBytes_shifted (x : Bool) (b : Byte) (w : List Bool) :
    packBytes (x :: (bitsOf b ++ w)) = (BitVec.ofBool x ++ b.extractLsb' 1 7) :: packBytes (b.getLsbD 0 :: w) := by
  have hbyte : ∀ (y : Bool) (c : Byte), byteOf y (c.getLsbD 7) (c.getLsbD 6) (c.getLsbD 5) (c.getLsbD 4)
      (c.getLsbD 3) (c.getLsbD 2) (c.getLsbD 1) = BitVec.ofBool y ++ c.extractLsb' 1 7 := by decide +kernel
  rw [bitsOf_byte]
  exact (packBytes_eight ..).trans (by rw [hbyte]; rfl)

/-- Whole bytes one bit off the boundary, before any tail (R87, R112). -/
theorem packBytes_shiftedBytes (x : Bool) (bs : List Byte) (w : List Bool) :
    packBytes (x :: (bs.flatMap bitsOf ++ w)) =
      shiftedBytes x bs ++ packBytes (((bs.getLast?).map fun b => b.getLsbD 0).getD x :: w) := by
  induction bs generalizing x with
  | nil => simp [shiftedBytes]
  | cons b rest ih =>
    rw [List.flatMap_cons, List.append_assoc, packBytes_shifted, ih, shiftedBytes, List.cons_append]
    cases rest <;> simp [List.getLast?_cons]

/-- The one byte of fewer than eight bits, padded with zero bits. -/
theorem packBytes_one (x : Bool) : packBytes [x] = [BitVec.ofBool x ++ 0#7] := by
  cases x <;> decide +kernel

@[simp] theorem length_shiftedBytes (x : Bool) (bs : List Byte) : (shiftedBytes x bs).length = bs.length := by
  induction bs generalizing x with
  | nil => rfl
  | cons b rest ih => simp [shiftedBytes, ih]

@[simp] theorem length_flatMap_bitsOf (bs : List Byte) : (bs.flatMap bitsOf).length = 8 * bs.length := by
  induction bs with
  | nil => rfl
  | cons b rest ih => simp [ih]; omega

theorem length_scramble (scr : Vector Byte 15) (payload : List Byte) (h : payload.length ≤ 15) :
    (scramble scr payload).length = payload.length := by
  simp [scramble, h]

/-- The frame the statements write out is the frame the codec builds (R114). -/
@[simp] theorem encodedFrame_eq_frameOf (payload : List Byte) (s : State) : encodedFrame payload s = frameOf payload s := rfl

/-- Element j of a padded array: the list's byte, or 0x00 past its end (R114). -/
theorem getElem_padVec (n : Nat) (l : List Byte) (j : Fin n) : (padVec n l)[j] = l.getD j 0 := by
  simp [padVec]

/-! ### The checksum -/

theorem crcRounds_succ (n : Nat) (c : U16) : crcRounds (n + 1) c = crcRounds n (crcShift c) := rfl

/-- One round on the checksum with a byte XORed in is one bit of the bit-serial register, the byte moved up. -/
theorem crcShift_xor_byte (c : U16) (b : Byte) :
    crcShift (c ^^^ (b.setWidth 16 <<< 8)) = crcSerialBit c b.msb ^^^ ((b <<< 1).setWidth 16 <<< 8) := by
  have hmsb : (c ^^^ (b.setWidth 16 <<< 8)).msb = (c.msb != b.msb) := by
    simp [BitVec.msb_eq_getLsbD_last]
  have hshift : (c ^^^ (b.setWidth 16 <<< 8)) <<< 1 = (c <<< 1) ^^^ ((b <<< 1).setWidth 16 <<< 8) := by
    rw [BitVec.shiftLeft_xor_distrib]
    have hbyte : ∀ b : Byte, b.setWidth 16 <<< 8 <<< 1 = ((b <<< 1).setWidth 16 <<< 8 : U16) := by decide +kernel
    rw [hbyte]
  rw [crcShift, crcSerialBit, hmsb, hshift]
  split
  · rw [BitVec.xor_assoc, BitVec.xor_assoc, BitVec.xor_comm crcPoly]
  · rfl

/-- `CrcUpdate(c, b, 8)` is eight bits of the bit-serial register (R104). -/
theorem crcUpdate_byte (c : U16) (b : Byte) : crcUpdate c b 8 = crcSerial c (bitsOf b) := by
  have hzero : ∀ b : Byte, ((((((((b <<< 1) <<< 1) <<< 1) <<< 1) <<< 1) <<< 1) <<< 1) <<< 1).setWidth 16 <<< 8 = 0#16 := by
    decide +kernel
  have hbits : ∀ b : Byte, b.msb = b.getLsbD 7 ∧ (b <<< 1).msb = b.getLsbD 6 ∧ ((b <<< 1) <<< 1).msb = b.getLsbD 5 ∧
      (((b <<< 1) <<< 1) <<< 1).msb = b.getLsbD 4 ∧ ((((b <<< 1) <<< 1) <<< 1) <<< 1).msb = b.getLsbD 3 ∧
      (((((b <<< 1) <<< 1) <<< 1) <<< 1) <<< 1).msb = b.getLsbD 2 ∧
      ((((((b <<< 1) <<< 1) <<< 1) <<< 1) <<< 1) <<< 1).msb = b.getLsbD 1 ∧
      (((((((b <<< 1) <<< 1) <<< 1) <<< 1) <<< 1) <<< 1) <<< 1).msb = b.getLsbD 0 := by decide +kernel
  obtain ⟨h7, h6, h5, h4, h3, h2, h1, h0⟩ := hbits b
  simp only [crcUpdate, crcRounds, crcShift_xor_byte, hzero, h7, h6, h5, h4, h3, h2, h1, h0, bitsOf_byte, crcSerial,
    List.foldl_cons, List.foldl_nil, BitVec.xor_zero]

/-- Byte updates in order are the bit-serial register over their bits (R104). -/
theorem crcBytes_eq_serial (c : U16) (bs : List Byte) : crcBytes c bs = crcSerial c (bs.flatMap bitsOf) := by
  induction bs generalizing c with
  | nil => rfl
  | cons b rest ih =>
    rw [List.flatMap_cons, crcSerial, List.foldl_append, ← crcSerial, ← crcSerial, ← crcUpdate_byte, ← ih]
    rfl

/-- The 1-bit update is one bit of the register when the byte's other bits are 0 (R104; log 8). -/
theorem crcUpdate_bit (c : U16) (b : Byte) (h : b.extractLsb' 0 7 = 0) : crcUpdate c b 1 = crcSerialBit c b.msb := by
  have hzero : ∀ b : Byte, b.extractLsb' 0 7 = 0 → (b <<< 1).setWidth 16 <<< 8 = 0#16 := by decide +kernel
  rw [crcUpdate, crcRounds, crcRounds, crcShift_xor_byte, hzero b h, BitVec.xor_zero]

end Sys2Proof.Machine
end

