-- ==== Sys2Proof/Laws/State.lean ====
section
/-! SUPPORT. One lemma per field per named update of the state, so that no proof unfolds an update. -/

namespace Sys2Proof.Machine

@[simp] theorem raise_status (b : StatusBit) (s : State) : (raise b s).status = setStatusBit b s.status := rfl
@[simp] theorem raise_result (b : StatusBit) (s : State) : (raise b s).result = s.result := rfl
@[simp] theorem raise_ctrl (b : StatusBit) (s : State) : (raise b s).ctrl = s.ctrl := rfl
@[simp] theorem raise_pwrReq (b : StatusBit) (s : State) : (raise b s).pwrReq = s.pwrReq := rfl
@[simp] theorem raise_pwrApplied (b : StatusBit) (s : State) : (raise b s).pwrApplied = s.pwrApplied := rfl
@[simp] theorem raise_phase (b : StatusBit) (s : State) : (raise b s).phase = s.phase := rfl
@[simp] theorem raise_cursor (b : StatusBit) (s : State) : (raise b s).cursor = s.cursor := rfl
@[simp] theorem raise_count (b : StatusBit) (s : State) : (raise b s).count = s.count := rfl
@[simp] theorem raise_pid (b : StatusBit) (s : State) : (raise b s).pid = s.pid := rfl
@[simp] theorem raise_plen (b : StatusBit) (s : State) : (raise b s).plen = s.plen := rfl
@[simp] theorem raise_flen (b : StatusBit) (s : State) : (raise b s).flen = s.flen := rfl
@[simp] theorem raise_serialLen (b : StatusBit) (s : State) : (raise b s).serialLen = s.serialLen := rfl
@[simp] theorem raise_seed (b : StatusBit) (s : State) : (raise b s).seed = s.seed := rfl
@[simp] theorem raise_fixedId (b : StatusBit) (s : State) : (raise b s).fixedId = s.fixedId := rfl
@[simp] theorem raise_addrIn (b : StatusBit) (s : State) : (raise b s).addrIn = s.addrIn := rfl
@[simp] theorem raise_actAddr (b : StatusBit) (s : State) : (raise b s).actAddr = s.actAddr := rfl
@[simp] theorem raise_idAddr (b : StatusBit) (s : State) : (raise b s).idAddr = s.idAddr := rfl
@[simp] theorem raise_idChan (b : StatusBit) (s : State) : (raise b s).idChan = s.idChan := rfl
@[simp] theorem raise_nextPeriod (b : StatusBit) (s : State) : (raise b s).nextPeriod = s.nextPeriod := rfl
@[simp] theorem raise_serial (b : StatusBit) (s : State) : (raise b s).serial = s.serial := rfl
@[simp] theorem raise_payload (b : StatusBit) (s : State) : (raise b s).payload = s.payload := rfl
@[simp] theorem raise_frame (b : StatusBit) (s : State) : (raise b s).frame = s.frame := rfl
@[simp] theorem raise_chIn (b : StatusBit) (s : State) : (raise b s).chIn = s.chIn := rfl
@[simp] theorem raise_prngState (b : StatusBit) (s : State) : (raise b s).prngState = s.prngState := rfl
@[simp] theorem raise_events (b : StatusBit) (s : State) : (raise b s).events = s.events := rfl
@[simp] theorem raise_answers (b : StatusBit) (s : State) : (raise b s).answers = s.answers := rfl
@[simp] theorem raise_sched (b : StatusBit) (s : State) : (raise b s).sched = s.sched := rfl
@[simp] theorem raise_params (b : StatusBit) (s : State) : (raise b s).params = s.params := rfl
@[simp] theorem raise_inputs (b : StatusBit) (s : State) : (raise b s).inputs = s.inputs := rfl
@[simp] theorem raise_readLog (b : StatusBit) (s : State) : (raise b s).readLog = s.readLog := rfl
@[simp] theorem raise_drawIndex (b : StatusBit) (s : State) : (raise b s).drawIndex = s.drawIndex := rfl

@[simp] theorem setBindDone_status (s : State) : (setBindDone s).status = setStatusBit .bindDone s.status := rfl
@[simp] theorem setBindDone_result (s : State) : (setBindDone s).result = s.result := rfl
@[simp] theorem setBindDone_ctrl (s : State) : (setBindDone s).ctrl = s.ctrl := rfl
@[simp] theorem setBindDone_pwrReq (s : State) : (setBindDone s).pwrReq = s.pwrReq := rfl
@[simp] theorem setBindDone_pwrApplied (s : State) : (setBindDone s).pwrApplied = s.pwrApplied := rfl
@[simp] theorem setBindDone_phase (s : State) : (setBindDone s).phase = s.phase := rfl
@[simp] theorem setBindDone_cursor (s : State) : (setBindDone s).cursor = s.cursor := rfl
@[simp] theorem setBindDone_count (s : State) : (setBindDone s).count = s.count := rfl
@[simp] theorem setBindDone_pid (s : State) : (setBindDone s).pid = s.pid := rfl
@[simp] theorem setBindDone_plen (s : State) : (setBindDone s).plen = s.plen := rfl
@[simp] theorem setBindDone_flen (s : State) : (setBindDone s).flen = s.flen := rfl
@[simp] theorem setBindDone_serialLen (s : State) : (setBindDone s).serialLen = s.serialLen := rfl
@[simp] theorem setBindDone_seed (s : State) : (setBindDone s).seed = s.seed := rfl
@[simp] theorem setBindDone_fixedId (s : State) : (setBindDone s).fixedId = s.fixedId := rfl
@[simp] theorem setBindDone_addrIn (s : State) : (setBindDone s).addrIn = s.addrIn := rfl
@[simp] theorem setBindDone_actAddr (s : State) : (setBindDone s).actAddr = s.actAddr := rfl
@[simp] theorem setBindDone_idAddr (s : State) : (setBindDone s).idAddr = s.idAddr := rfl
@[simp] theorem setBindDone_idChan (s : State) : (setBindDone s).idChan = s.idChan := rfl
@[simp] theorem setBindDone_nextPeriod (s : State) : (setBindDone s).nextPeriod = s.nextPeriod := rfl
@[simp] theorem setBindDone_serial (s : State) : (setBindDone s).serial = s.serial := rfl
@[simp] theorem setBindDone_payload (s : State) : (setBindDone s).payload = s.payload := rfl
@[simp] theorem setBindDone_frame (s : State) : (setBindDone s).frame = s.frame := rfl
@[simp] theorem setBindDone_chIn (s : State) : (setBindDone s).chIn = s.chIn := rfl
@[simp] theorem setBindDone_prngState (s : State) : (setBindDone s).prngState = s.prngState := rfl
@[simp] theorem setBindDone_events (s : State) : (setBindDone s).events = s.events := rfl
@[simp] theorem setBindDone_answers (s : State) : (setBindDone s).answers = s.answers := rfl
@[simp] theorem setBindDone_sched (s : State) : (setBindDone s).sched = s.sched := rfl
@[simp] theorem setBindDone_params (s : State) : (setBindDone s).params = s.params := rfl
@[simp] theorem setBindDone_inputs (s : State) : (setBindDone s).inputs = s.inputs := rfl
@[simp] theorem setBindDone_readLog (s : State) : (setBindDone s).readLog = s.readLog := rfl
@[simp] theorem setBindDone_drawIndex (s : State) : (setBindDone s).drawIndex = s.drawIndex := rfl

@[simp] theorem clearBindDone_status (s : State) : (clearBindDone s).status = clearStatusBit .bindDone s.status := rfl
@[simp] theorem clearBindDone_result (s : State) : (clearBindDone s).result = s.result := rfl
@[simp] theorem clearBindDone_ctrl (s : State) : (clearBindDone s).ctrl = s.ctrl := rfl
@[simp] theorem clearBindDone_pwrReq (s : State) : (clearBindDone s).pwrReq = s.pwrReq := rfl
@[simp] theorem clearBindDone_pwrApplied (s : State) : (clearBindDone s).pwrApplied = s.pwrApplied := rfl
@[simp] theorem clearBindDone_phase (s : State) : (clearBindDone s).phase = s.phase := rfl
@[simp] theorem clearBindDone_cursor (s : State) : (clearBindDone s).cursor = s.cursor := rfl
@[simp] theorem clearBindDone_count (s : State) : (clearBindDone s).count = s.count := rfl
@[simp] theorem clearBindDone_pid (s : State) : (clearBindDone s).pid = s.pid := rfl
@[simp] theorem clearBindDone_plen (s : State) : (clearBindDone s).plen = s.plen := rfl
@[simp] theorem clearBindDone_flen (s : State) : (clearBindDone s).flen = s.flen := rfl
@[simp] theorem clearBindDone_serialLen (s : State) : (clearBindDone s).serialLen = s.serialLen := rfl
@[simp] theorem clearBindDone_seed (s : State) : (clearBindDone s).seed = s.seed := rfl
@[simp] theorem clearBindDone_fixedId (s : State) : (clearBindDone s).fixedId = s.fixedId := rfl
@[simp] theorem clearBindDone_addrIn (s : State) : (clearBindDone s).addrIn = s.addrIn := rfl
@[simp] theorem clearBindDone_actAddr (s : State) : (clearBindDone s).actAddr = s.actAddr := rfl
@[simp] theorem clearBindDone_idAddr (s : State) : (clearBindDone s).idAddr = s.idAddr := rfl
@[simp] theorem clearBindDone_idChan (s : State) : (clearBindDone s).idChan = s.idChan := rfl
@[simp] theorem clearBindDone_nextPeriod (s : State) : (clearBindDone s).nextPeriod = s.nextPeriod := rfl
@[simp] theorem clearBindDone_serial (s : State) : (clearBindDone s).serial = s.serial := rfl
@[simp] theorem clearBindDone_payload (s : State) : (clearBindDone s).payload = s.payload := rfl
@[simp] theorem clearBindDone_frame (s : State) : (clearBindDone s).frame = s.frame := rfl
@[simp] theorem clearBindDone_chIn (s : State) : (clearBindDone s).chIn = s.chIn := rfl
@[simp] theorem clearBindDone_prngState (s : State) : (clearBindDone s).prngState = s.prngState := rfl
@[simp] theorem clearBindDone_events (s : State) : (clearBindDone s).events = s.events := rfl
@[simp] theorem clearBindDone_answers (s : State) : (clearBindDone s).answers = s.answers := rfl
@[simp] theorem clearBindDone_sched (s : State) : (clearBindDone s).sched = s.sched := rfl
@[simp] theorem clearBindDone_params (s : State) : (clearBindDone s).params = s.params := rfl
@[simp] theorem clearBindDone_inputs (s : State) : (clearBindDone s).inputs = s.inputs := rfl
@[simp] theorem clearBindDone_readLog (s : State) : (clearBindDone s).readLog = s.readLog := rfl
@[simp] theorem clearBindDone_drawIndex (s : State) : (clearBindDone s).drawIndex = s.drawIndex := rfl

@[simp] theorem emit_status (e : Event) (s : State) : (emit e s).status = s.status := rfl
@[simp] theorem emit_result (e : Event) (s : State) : (emit e s).result = s.result := rfl
@[simp] theorem emit_ctrl (e : Event) (s : State) : (emit e s).ctrl = s.ctrl := rfl
@[simp] theorem emit_pwrReq (e : Event) (s : State) : (emit e s).pwrReq = s.pwrReq := rfl
@[simp] theorem emit_pwrApplied (e : Event) (s : State) : (emit e s).pwrApplied = s.pwrApplied := rfl
@[simp] theorem emit_phase (e : Event) (s : State) : (emit e s).phase = s.phase := rfl
@[simp] theorem emit_cursor (e : Event) (s : State) : (emit e s).cursor = s.cursor := rfl
@[simp] theorem emit_count (e : Event) (s : State) : (emit e s).count = s.count := rfl
@[simp] theorem emit_pid (e : Event) (s : State) : (emit e s).pid = s.pid := rfl
@[simp] theorem emit_plen (e : Event) (s : State) : (emit e s).plen = s.plen := rfl
@[simp] theorem emit_flen (e : Event) (s : State) : (emit e s).flen = s.flen := rfl
@[simp] theorem emit_serialLen (e : Event) (s : State) : (emit e s).serialLen = s.serialLen := rfl
@[simp] theorem emit_seed (e : Event) (s : State) : (emit e s).seed = s.seed := rfl
@[simp] theorem emit_fixedId (e : Event) (s : State) : (emit e s).fixedId = s.fixedId := rfl
@[simp] theorem emit_addrIn (e : Event) (s : State) : (emit e s).addrIn = s.addrIn := rfl
@[simp] theorem emit_actAddr (e : Event) (s : State) : (emit e s).actAddr = s.actAddr := rfl
@[simp] theorem emit_idAddr (e : Event) (s : State) : (emit e s).idAddr = s.idAddr := rfl
@[simp] theorem emit_idChan (e : Event) (s : State) : (emit e s).idChan = s.idChan := rfl
@[simp] theorem emit_nextPeriod (e : Event) (s : State) : (emit e s).nextPeriod = s.nextPeriod := rfl
@[simp] theorem emit_serial (e : Event) (s : State) : (emit e s).serial = s.serial := rfl
@[simp] theorem emit_payload (e : Event) (s : State) : (emit e s).payload = s.payload := rfl
@[simp] theorem emit_frame (e : Event) (s : State) : (emit e s).frame = s.frame := rfl
@[simp] theorem emit_chIn (e : Event) (s : State) : (emit e s).chIn = s.chIn := rfl
@[simp] theorem emit_prngState (e : Event) (s : State) : (emit e s).prngState = s.prngState := rfl
@[simp] theorem emit_events (e : Event) (s : State) : (emit e s).events = s.events ++ [e] := rfl
@[simp] theorem emit_answers (e : Event) (s : State) : (emit e s).answers = s.answers := rfl
@[simp] theorem emit_sched (e : Event) (s : State) : (emit e s).sched = schedulerAfter e s.sched := rfl
@[simp] theorem emit_params (e : Event) (s : State) : (emit e s).params = s.params := rfl
@[simp] theorem emit_inputs (e : Event) (s : State) : (emit e s).inputs = s.inputs := rfl
@[simp] theorem emit_readLog (e : Event) (s : State) : (emit e s).readLog = s.readLog := rfl
@[simp] theorem emit_drawIndex (e : Event) (s : State) : (emit e s).drawIndex = s.drawIndex := rfl

@[simp] theorem recordAnswer_status (ok : Bool) (s : State) : (recordAnswer ok s).status = s.status := rfl
@[simp] theorem recordAnswer_result (ok : Bool) (s : State) : (recordAnswer ok s).result = s.result := rfl
@[simp] theorem recordAnswer_ctrl (ok : Bool) (s : State) : (recordAnswer ok s).ctrl = s.ctrl := rfl
@[simp] theorem recordAnswer_pwrReq (ok : Bool) (s : State) : (recordAnswer ok s).pwrReq = s.pwrReq := rfl
@[simp] theorem recordAnswer_pwrApplied (ok : Bool) (s : State) : (recordAnswer ok s).pwrApplied = s.pwrApplied := rfl
@[simp] theorem recordAnswer_phase (ok : Bool) (s : State) : (recordAnswer ok s).phase = s.phase := rfl
@[simp] theorem recordAnswer_cursor (ok : Bool) (s : State) : (recordAnswer ok s).cursor = s.cursor := rfl
@[simp] theorem recordAnswer_count (ok : Bool) (s : State) : (recordAnswer ok s).count = s.count := rfl
@[simp] theorem recordAnswer_pid (ok : Bool) (s : State) : (recordAnswer ok s).pid = s.pid := rfl
@[simp] theorem recordAnswer_plen (ok : Bool) (s : State) : (recordAnswer ok s).plen = s.plen := rfl
@[simp] theorem recordAnswer_flen (ok : Bool) (s : State) : (recordAnswer ok s).flen = s.flen := rfl
@[simp] theorem recordAnswer_serialLen (ok : Bool) (s : State) : (recordAnswer ok s).serialLen = s.serialLen := rfl
@[simp] theorem recordAnswer_seed (ok : Bool) (s : State) : (recordAnswer ok s).seed = s.seed := rfl
@[simp] theorem recordAnswer_fixedId (ok : Bool) (s : State) : (recordAnswer ok s).fixedId = s.fixedId := rfl
@[simp] theorem recordAnswer_addrIn (ok : Bool) (s : State) : (recordAnswer ok s).addrIn = s.addrIn := rfl
@[simp] theorem recordAnswer_actAddr (ok : Bool) (s : State) : (recordAnswer ok s).actAddr = s.actAddr := rfl
@[simp] theorem recordAnswer_idAddr (ok : Bool) (s : State) : (recordAnswer ok s).idAddr = s.idAddr := rfl
@[simp] theorem recordAnswer_idChan (ok : Bool) (s : State) : (recordAnswer ok s).idChan = s.idChan := rfl
@[simp] theorem recordAnswer_nextPeriod (ok : Bool) (s : State) : (recordAnswer ok s).nextPeriod = s.nextPeriod := rfl
@[simp] theorem recordAnswer_serial (ok : Bool) (s : State) : (recordAnswer ok s).serial = s.serial := rfl
@[simp] theorem recordAnswer_payload (ok : Bool) (s : State) : (recordAnswer ok s).payload = s.payload := rfl
@[simp] theorem recordAnswer_frame (ok : Bool) (s : State) : (recordAnswer ok s).frame = s.frame := rfl
@[simp] theorem recordAnswer_chIn (ok : Bool) (s : State) : (recordAnswer ok s).chIn = s.chIn := rfl
@[simp] theorem recordAnswer_prngState (ok : Bool) (s : State) : (recordAnswer ok s).prngState = s.prngState := rfl
@[simp] theorem recordAnswer_events (ok : Bool) (s : State) : (recordAnswer ok s).events = s.events := rfl
@[simp] theorem recordAnswer_answers (ok : Bool) (s : State) : (recordAnswer ok s).answers = s.answers ++ [ok] := rfl
@[simp] theorem recordAnswer_sched (ok : Bool) (s : State) : (recordAnswer ok s).sched = s.sched := rfl
@[simp] theorem recordAnswer_params (ok : Bool) (s : State) : (recordAnswer ok s).params = s.params := rfl
@[simp] theorem recordAnswer_inputs (ok : Bool) (s : State) : (recordAnswer ok s).inputs = s.inputs := rfl
@[simp] theorem recordAnswer_readLog (ok : Bool) (s : State) : (recordAnswer ok s).readLog = s.readLog := rfl
@[simp] theorem recordAnswer_drawIndex (ok : Bool) (s : State) : (recordAnswer ok s).drawIndex = s.drawIndex + 1 := rfl

@[simp] theorem setActiveAddress_status (a : Vector Byte 5) (s : State) : (setActiveAddress a s).status = s.status := rfl
@[simp] theorem setActiveAddress_result (a : Vector Byte 5) (s : State) : (setActiveAddress a s).result = s.result := rfl
@[simp] theorem setActiveAddress_ctrl (a : Vector Byte 5) (s : State) : (setActiveAddress a s).ctrl = s.ctrl := rfl
@[simp] theorem setActiveAddress_pwrReq (a : Vector Byte 5) (s : State) : (setActiveAddress a s).pwrReq = s.pwrReq := rfl
@[simp] theorem setActiveAddress_pwrApplied (a : Vector Byte 5) (s : State) : (setActiveAddress a s).pwrApplied = s.pwrApplied := rfl
@[simp] theorem setActiveAddress_phase (a : Vector Byte 5) (s : State) : (setActiveAddress a s).phase = s.phase := rfl
@[simp] theorem setActiveAddress_cursor (a : Vector Byte 5) (s : State) : (setActiveAddress a s).cursor = s.cursor := rfl
@[simp] theorem setActiveAddress_count (a : Vector Byte 5) (s : State) : (setActiveAddress a s).count = s.count := rfl
@[simp] theorem setActiveAddress_pid (a : Vector Byte 5) (s : State) : (setActiveAddress a s).pid = s.pid := rfl
@[simp] theorem setActiveAddress_plen (a : Vector Byte 5) (s : State) : (setActiveAddress a s).plen = s.plen := rfl
@[simp] theorem setActiveAddress_flen (a : Vector Byte 5) (s : State) : (setActiveAddress a s).flen = s.flen := rfl
@[simp] theorem setActiveAddress_serialLen (a : Vector Byte 5) (s : State) : (setActiveAddress a s).serialLen = s.serialLen := rfl
@[simp] theorem setActiveAddress_seed (a : Vector Byte 5) (s : State) : (setActiveAddress a s).seed = crcSeed a := rfl
@[simp] theorem setActiveAddress_fixedId (a : Vector Byte 5) (s : State) : (setActiveAddress a s).fixedId = s.fixedId := rfl
@[simp] theorem setActiveAddress_addrIn (a : Vector Byte 5) (s : State) : (setActiveAddress a s).addrIn = s.addrIn := rfl
@[simp] theorem setActiveAddress_actAddr (a : Vector Byte 5) (s : State) : (setActiveAddress a s).actAddr = a := rfl
@[simp] theorem setActiveAddress_idAddr (a : Vector Byte 5) (s : State) : (setActiveAddress a s).idAddr = s.idAddr := rfl
@[simp] theorem setActiveAddress_idChan (a : Vector Byte 5) (s : State) : (setActiveAddress a s).idChan = s.idChan := rfl
@[simp] theorem setActiveAddress_nextPeriod (a : Vector Byte 5) (s : State) : (setActiveAddress a s).nextPeriod = s.nextPeriod := rfl
@[simp] theorem setActiveAddress_serial (a : Vector Byte 5) (s : State) : (setActiveAddress a s).serial = s.serial := rfl
@[simp] theorem setActiveAddress_payload (a : Vector Byte 5) (s : State) : (setActiveAddress a s).payload = s.payload := rfl
@[simp] theorem setActiveAddress_frame (a : Vector Byte 5) (s : State) : (setActiveAddress a s).frame = s.frame := rfl
@[simp] theorem setActiveAddress_chIn (a : Vector Byte 5) (s : State) : (setActiveAddress a s).chIn = s.chIn := rfl
@[simp] theorem setActiveAddress_prngState (a : Vector Byte 5) (s : State) : (setActiveAddress a s).prngState = s.prngState := rfl
@[simp] theorem setActiveAddress_events (a : Vector Byte 5) (s : State) : (setActiveAddress a s).events = s.events := rfl
@[simp] theorem setActiveAddress_answers (a : Vector Byte 5) (s : State) : (setActiveAddress a s).answers = s.answers := rfl
@[simp] theorem setActiveAddress_sched (a : Vector Byte 5) (s : State) : (setActiveAddress a s).sched = s.sched := rfl
@[simp] theorem setActiveAddress_params (a : Vector Byte 5) (s : State) : (setActiveAddress a s).params = s.params := rfl
@[simp] theorem setActiveAddress_inputs (a : Vector Byte 5) (s : State) : (setActiveAddress a s).inputs = s.inputs := rfl
@[simp] theorem setActiveAddress_readLog (a : Vector Byte 5) (s : State) : (setActiveAddress a s).readLog = s.readLog := rfl
@[simp] theorem setActiveAddress_drawIndex (a : Vector Byte 5) (s : State) : (setActiveAddress a s).drawIndex = s.drawIndex := rfl

@[simp] theorem applyPower_status (level : BitVec 3) (s : State) : (applyPower level s).status = s.status := rfl
@[simp] theorem applyPower_result (level : BitVec 3) (s : State) : (applyPower level s).result = s.result := rfl
@[simp] theorem applyPower_ctrl (level : BitVec 3) (s : State) : (applyPower level s).ctrl = s.ctrl := rfl
@[simp] theorem applyPower_pwrReq (level : BitVec 3) (s : State) : (applyPower level s).pwrReq = s.pwrReq := rfl
@[simp] theorem applyPower_pwrApplied (level : BitVec 3) (s : State) : (applyPower level s).pwrApplied = level := rfl
@[simp] theorem applyPower_phase (level : BitVec 3) (s : State) : (applyPower level s).phase = s.phase := rfl
@[simp] theorem applyPower_cursor (level : BitVec 3) (s : State) : (applyPower level s).cursor = s.cursor := rfl
@[simp] theorem applyPower_count (level : BitVec 3) (s : State) : (applyPower level s).count = s.count := rfl
@[simp] theorem applyPower_pid (level : BitVec 3) (s : State) : (applyPower level s).pid = s.pid := rfl
@[simp] theorem applyPower_plen (level : BitVec 3) (s : State) : (applyPower level s).plen = s.plen := rfl
@[simp] theorem applyPower_flen (level : BitVec 3) (s : State) : (applyPower level s).flen = s.flen := rfl
@[simp] theorem applyPower_serialLen (level : BitVec 3) (s : State) : (applyPower level s).serialLen = s.serialLen := rfl
@[simp] theorem applyPower_seed (level : BitVec 3) (s : State) : (applyPower level s).seed = s.seed := rfl
@[simp] theorem applyPower_fixedId (level : BitVec 3) (s : State) : (applyPower level s).fixedId = s.fixedId := rfl
@[simp] theorem applyPower_addrIn (level : BitVec 3) (s : State) : (applyPower level s).addrIn = s.addrIn := rfl
@[simp] theorem applyPower_actAddr (level : BitVec 3) (s : State) : (applyPower level s).actAddr = s.actAddr := rfl
@[simp] theorem applyPower_idAddr (level : BitVec 3) (s : State) : (applyPower level s).idAddr = s.idAddr := rfl
@[simp] theorem applyPower_idChan (level : BitVec 3) (s : State) : (applyPower level s).idChan = s.idChan := rfl
@[simp] theorem applyPower_nextPeriod (level : BitVec 3) (s : State) : (applyPower level s).nextPeriod = s.nextPeriod := rfl
@[simp] theorem applyPower_serial (level : BitVec 3) (s : State) : (applyPower level s).serial = s.serial := rfl
@[simp] theorem applyPower_payload (level : BitVec 3) (s : State) : (applyPower level s).payload = s.payload := rfl
@[simp] theorem applyPower_frame (level : BitVec 3) (s : State) : (applyPower level s).frame = s.frame := rfl
@[simp] theorem applyPower_chIn (level : BitVec 3) (s : State) : (applyPower level s).chIn = s.chIn := rfl
@[simp] theorem applyPower_prngState (level : BitVec 3) (s : State) : (applyPower level s).prngState = s.prngState := rfl
@[simp] theorem applyPower_events (level : BitVec 3) (s : State) : (applyPower level s).events = s.events ++ [.setPower level] := rfl
@[simp] theorem applyPower_answers (level : BitVec 3) (s : State) : (applyPower level s).answers = s.answers := rfl
@[simp] theorem applyPower_sched (level : BitVec 3) (s : State) : (applyPower level s).sched = s.sched := rfl
@[simp] theorem applyPower_params (level : BitVec 3) (s : State) : (applyPower level s).params = s.params := rfl
@[simp] theorem applyPower_inputs (level : BitVec 3) (s : State) : (applyPower level s).inputs = s.inputs := rfl
@[simp] theorem applyPower_readLog (level : BitVec 3) (s : State) : (applyPower level s).readLog = s.readLog := rfl
@[simp] theorem applyPower_drawIndex (level : BitVec 3) (s : State) : (applyPower level s).drawIndex = s.drawIndex := rfl

@[simp] theorem identityDerive_status (s : State) : (identityDerive s).status = s.status := rfl
@[simp] theorem identityDerive_result (s : State) : (identityDerive s).result = s.result := rfl
@[simp] theorem identityDerive_ctrl (s : State) : (identityDerive s).ctrl = s.ctrl := rfl
@[simp] theorem identityDerive_pwrReq (s : State) : (identityDerive s).pwrReq = s.pwrReq := rfl
@[simp] theorem identityDerive_pwrApplied (s : State) : (identityDerive s).pwrApplied = s.pwrApplied := rfl
@[simp] theorem identityDerive_phase (s : State) : (identityDerive s).phase = s.phase := rfl
@[simp] theorem identityDerive_cursor (s : State) : (identityDerive s).cursor = s.cursor := rfl
@[simp] theorem identityDerive_count (s : State) : (identityDerive s).count = s.count := rfl
@[simp] theorem identityDerive_pid (s : State) : (identityDerive s).pid = s.pid := rfl
@[simp] theorem identityDerive_plen (s : State) : (identityDerive s).plen = s.plen := rfl
@[simp] theorem identityDerive_flen (s : State) : (identityDerive s).flen = s.flen := rfl
@[simp] theorem identityDerive_serialLen (s : State) : (identityDerive s).serialLen = s.serialLen := rfl
@[simp] theorem identityDerive_seed (s : State) : (identityDerive s).seed = s.seed := rfl
@[simp] theorem identityDerive_fixedId (s : State) : (identityDerive s).fixedId = s.fixedId := rfl
@[simp] theorem identityDerive_addrIn (s : State) : (identityDerive s).addrIn = s.addrIn := rfl
@[simp] theorem identityDerive_actAddr (s : State) : (identityDerive s).actAddr = s.actAddr := rfl
@[simp] theorem identityDerive_idAddr (s : State) : (identityDerive s).idAddr = (derivedIdentity s).addr := rfl
@[simp] theorem identityDerive_idChan (s : State) : (identityDerive s).idChan = (derivedIdentity s).chan := rfl
@[simp] theorem identityDerive_nextPeriod (s : State) : (identityDerive s).nextPeriod = s.nextPeriod := rfl
@[simp] theorem identityDerive_serial (s : State) : (identityDerive s).serial = s.serial := rfl
@[simp] theorem identityDerive_payload (s : State) : (identityDerive s).payload = s.payload := rfl
@[simp] theorem identityDerive_frame (s : State) : (identityDerive s).frame = s.frame := rfl
@[simp] theorem identityDerive_chIn (s : State) : (identityDerive s).chIn = s.chIn := rfl
@[simp] theorem identityDerive_prngState (s : State) : (identityDerive s).prngState = (derivedIdentity s).prng := rfl
@[simp] theorem identityDerive_events (s : State) : (identityDerive s).events = s.events := rfl
@[simp] theorem identityDerive_answers (s : State) : (identityDerive s).answers = s.answers := rfl
@[simp] theorem identityDerive_sched (s : State) : (identityDerive s).sched = s.sched := rfl
@[simp] theorem identityDerive_params (s : State) : (identityDerive s).params = s.params := rfl
@[simp] theorem identityDerive_inputs (s : State) : (identityDerive s).inputs = s.inputs := rfl
@[simp] theorem identityDerive_readLog (s : State) : (identityDerive s).readLog = s.readLog := rfl
@[simp] theorem identityDerive_drawIndex (s : State) : (identityDerive s).drawIndex = s.drawIndex := rfl

@[simp] theorem encodeFrame_status (p : List Byte) (s : State) : (encodeFrame p s).status = s.status := rfl
@[simp] theorem encodeFrame_result (p : List Byte) (s : State) : (encodeFrame p s).result = s.result := rfl
@[simp] theorem encodeFrame_ctrl (p : List Byte) (s : State) : (encodeFrame p s).ctrl = s.ctrl := rfl
@[simp] theorem encodeFrame_pwrReq (p : List Byte) (s : State) : (encodeFrame p s).pwrReq = s.pwrReq := rfl
@[simp] theorem encodeFrame_pwrApplied (p : List Byte) (s : State) : (encodeFrame p s).pwrApplied = s.pwrApplied := rfl
@[simp] theorem encodeFrame_phase (p : List Byte) (s : State) : (encodeFrame p s).phase = s.phase := rfl
@[simp] theorem encodeFrame_cursor (p : List Byte) (s : State) : (encodeFrame p s).cursor = s.cursor := rfl
@[simp] theorem encodeFrame_count (p : List Byte) (s : State) : (encodeFrame p s).count = s.count := rfl
@[simp] theorem encodeFrame_pid (p : List Byte) (s : State) : (encodeFrame p s).pid = s.pid + 1 := rfl
@[simp] theorem encodeFrame_plen (p : List Byte) (s : State) : (encodeFrame p s).plen = s.plen := rfl
@[simp] theorem encodeFrame_flen (p : List Byte) (s : State) : (encodeFrame p s).flen = BitVec.ofNat 6 (frameOf p s).length := rfl
@[simp] theorem encodeFrame_serialLen (p : List Byte) (s : State) : (encodeFrame p s).serialLen = s.serialLen := rfl
@[simp] theorem encodeFrame_seed (p : List Byte) (s : State) : (encodeFrame p s).seed = s.seed := rfl
@[simp] theorem encodeFrame_fixedId (p : List Byte) (s : State) : (encodeFrame p s).fixedId = s.fixedId := rfl
@[simp] theorem encodeFrame_addrIn (p : List Byte) (s : State) : (encodeFrame p s).addrIn = s.addrIn := rfl
@[simp] theorem encodeFrame_actAddr (p : List Byte) (s : State) : (encodeFrame p s).actAddr = s.actAddr := rfl
@[simp] theorem encodeFrame_idAddr (p : List Byte) (s : State) : (encodeFrame p s).idAddr = s.idAddr := rfl
@[simp] theorem encodeFrame_idChan (p : List Byte) (s : State) : (encodeFrame p s).idChan = s.idChan := rfl
@[simp] theorem encodeFrame_nextPeriod (p : List Byte) (s : State) : (encodeFrame p s).nextPeriod = s.nextPeriod := rfl
@[simp] theorem encodeFrame_serial (p : List Byte) (s : State) : (encodeFrame p s).serial = s.serial := rfl
@[simp] theorem encodeFrame_payload (p : List Byte) (s : State) : (encodeFrame p s).payload = s.payload := rfl
@[simp] theorem encodeFrame_frame (p : List Byte) (s : State) : (encodeFrame p s).frame = padVec 32 (frameOf p s) := rfl
@[simp] theorem encodeFrame_chIn (p : List Byte) (s : State) : (encodeFrame p s).chIn = s.chIn := rfl
@[simp] theorem encodeFrame_prngState (p : List Byte) (s : State) : (encodeFrame p s).prngState = s.prngState := rfl
@[simp] theorem encodeFrame_events (p : List Byte) (s : State) : (encodeFrame p s).events = s.events := rfl
@[simp] theorem encodeFrame_answers (p : List Byte) (s : State) : (encodeFrame p s).answers = s.answers := rfl
@[simp] theorem encodeFrame_sched (p : List Byte) (s : State) : (encodeFrame p s).sched = s.sched := rfl
@[simp] theorem encodeFrame_params (p : List Byte) (s : State) : (encodeFrame p s).params = s.params := rfl
@[simp] theorem encodeFrame_inputs (p : List Byte) (s : State) : (encodeFrame p s).inputs = s.inputs := rfl
@[simp] theorem encodeFrame_readLog (p : List Byte) (s : State) : (encodeFrame p s).readLog = s.readLog := rfl
@[simp] theorem encodeFrame_drawIndex (p : List Byte) (s : State) : (encodeFrame p s).drawIndex = s.drawIndex := rfl

@[simp] theorem transmit_status (ch : Byte) (p : List Byte) (s : State) : (transmit ch p s).status = s.status := rfl
@[simp] theorem transmit_result (ch : Byte) (p : List Byte) (s : State) : (transmit ch p s).result = s.result := rfl
@[simp] theorem transmit_ctrl (ch : Byte) (p : List Byte) (s : State) : (transmit ch p s).ctrl = s.ctrl := rfl
@[simp] theorem transmit_pwrReq (ch : Byte) (p : List Byte) (s : State) : (transmit ch p s).pwrReq = s.pwrReq := rfl
@[simp] theorem transmit_pwrApplied (ch : Byte) (p : List Byte) (s : State) : (transmit ch p s).pwrApplied = s.pwrApplied := rfl
@[simp] theorem transmit_phase (ch : Byte) (p : List Byte) (s : State) : (transmit ch p s).phase = s.phase := rfl
@[simp] theorem transmit_cursor (ch : Byte) (p : List Byte) (s : State) : (transmit ch p s).cursor = s.cursor := rfl
@[simp] theorem transmit_count (ch : Byte) (p : List Byte) (s : State) : (transmit ch p s).count = s.count := rfl
@[simp] theorem transmit_pid (ch : Byte) (p : List Byte) (s : State) : (transmit ch p s).pid = s.pid + 1 := rfl
@[simp] theorem transmit_plen (ch : Byte) (p : List Byte) (s : State) : (transmit ch p s).plen = s.plen := rfl
@[simp] theorem transmit_flen (ch : Byte) (p : List Byte) (s : State) : (transmit ch p s).flen = BitVec.ofNat 6 (frameOf p s).length := rfl
@[simp] theorem transmit_serialLen (ch : Byte) (p : List Byte) (s : State) : (transmit ch p s).serialLen = s.serialLen := rfl
@[simp] theorem transmit_seed (ch : Byte) (p : List Byte) (s : State) : (transmit ch p s).seed = s.seed := rfl
@[simp] theorem transmit_fixedId (ch : Byte) (p : List Byte) (s : State) : (transmit ch p s).fixedId = s.fixedId := rfl
@[simp] theorem transmit_addrIn (ch : Byte) (p : List Byte) (s : State) : (transmit ch p s).addrIn = s.addrIn := rfl
@[simp] theorem transmit_actAddr (ch : Byte) (p : List Byte) (s : State) : (transmit ch p s).actAddr = s.actAddr := rfl
@[simp] theorem transmit_idAddr (ch : Byte) (p : List Byte) (s : State) : (transmit ch p s).idAddr = s.idAddr := rfl
@[simp] theorem transmit_idChan (ch : Byte) (p : List Byte) (s : State) : (transmit ch p s).idChan = s.idChan := rfl
@[simp] theorem transmit_nextPeriod (ch : Byte) (p : List Byte) (s : State) : (transmit ch p s).nextPeriod = s.nextPeriod := rfl
@[simp] theorem transmit_serial (ch : Byte) (p : List Byte) (s : State) : (transmit ch p s).serial = s.serial := rfl
@[simp] theorem transmit_payload (ch : Byte) (p : List Byte) (s : State) : (transmit ch p s).payload = s.payload := rfl
@[simp] theorem transmit_frame (ch : Byte) (p : List Byte) (s : State) : (transmit ch p s).frame = padVec 32 (frameOf p s) := rfl
@[simp] theorem transmit_chIn (ch : Byte) (p : List Byte) (s : State) : (transmit ch p s).chIn = s.chIn := rfl
@[simp] theorem transmit_prngState (ch : Byte) (p : List Byte) (s : State) : (transmit ch p s).prngState = s.prngState := rfl
@[simp] theorem transmit_events (ch : Byte) (p : List Byte) (s : State) : (transmit ch p s).events = s.events ++ [.setChannel ch] ++ [.writePayload (frameOf p s)] := rfl
@[simp] theorem transmit_answers (ch : Byte) (p : List Byte) (s : State) : (transmit ch p s).answers = s.answers := rfl
@[simp] theorem transmit_sched (ch : Byte) (p : List Byte) (s : State) : (transmit ch p s).sched = s.sched := rfl
@[simp] theorem transmit_params (ch : Byte) (p : List Byte) (s : State) : (transmit ch p s).params = s.params := rfl
@[simp] theorem transmit_inputs (ch : Byte) (p : List Byte) (s : State) : (transmit ch p s).inputs = s.inputs := rfl
@[simp] theorem transmit_readLog (ch : Byte) (p : List Byte) (s : State) : (transmit ch p s).readLog = s.readLog := rfl
@[simp] theorem transmit_drawIndex (ch : Byte) (p : List Byte) (s : State) : (transmit ch p s).drawIndex = s.drawIndex := rfl

@[simp] theorem bindComplete_status (s : State) : (bindComplete s).status = setStatusBit .bindDone s.status := rfl
@[simp] theorem bindComplete_result (s : State) : (bindComplete s).result = s.result := rfl
@[simp] theorem bindComplete_ctrl (s : State) : (bindComplete s).ctrl = s.ctrl := rfl
@[simp] theorem bindComplete_pwrReq (s : State) : (bindComplete s).pwrReq = s.pwrReq := rfl
@[simp] theorem bindComplete_pwrApplied (s : State) : (bindComplete s).pwrApplied = s.pwrApplied := rfl
@[simp] theorem bindComplete_phase (s : State) : (bindComplete s).phase = .live := rfl
@[simp] theorem bindComplete_cursor (s : State) : (bindComplete s).cursor = s.cursor := rfl
@[simp] theorem bindComplete_count (s : State) : (bindComplete s).count = s.count := rfl
@[simp] theorem bindComplete_pid (s : State) : (bindComplete s).pid = s.pid := rfl
@[simp] theorem bindComplete_plen (s : State) : (bindComplete s).plen = s.plen := rfl
@[simp] theorem bindComplete_flen (s : State) : (bindComplete s).flen = s.flen := rfl
@[simp] theorem bindComplete_serialLen (s : State) : (bindComplete s).serialLen = s.serialLen := rfl
@[simp] theorem bindComplete_seed (s : State) : (bindComplete s).seed = crcSeed s.idAddr := rfl
@[simp] theorem bindComplete_fixedId (s : State) : (bindComplete s).fixedId = s.fixedId := rfl
@[simp] theorem bindComplete_addrIn (s : State) : (bindComplete s).addrIn = s.addrIn := rfl
@[simp] theorem bindComplete_actAddr (s : State) : (bindComplete s).actAddr = s.idAddr := rfl
@[simp] theorem bindComplete_idAddr (s : State) : (bindComplete s).idAddr = s.idAddr := rfl
@[simp] theorem bindComplete_idChan (s : State) : (bindComplete s).idChan = s.idChan := rfl
@[simp] theorem bindComplete_nextPeriod (s : State) : (bindComplete s).nextPeriod = s.nextPeriod := rfl
@[simp] theorem bindComplete_serial (s : State) : (bindComplete s).serial = s.serial := rfl
@[simp] theorem bindComplete_payload (s : State) : (bindComplete s).payload = s.payload := rfl
@[simp] theorem bindComplete_frame (s : State) : (bindComplete s).frame = s.frame := rfl
@[simp] theorem bindComplete_chIn (s : State) : (bindComplete s).chIn = s.chIn := rfl
@[simp] theorem bindComplete_prngState (s : State) : (bindComplete s).prngState = s.prngState := rfl
@[simp] theorem bindComplete_events (s : State) : (bindComplete s).events = s.events ++ [.bindState 0] := rfl
@[simp] theorem bindComplete_answers (s : State) : (bindComplete s).answers = s.answers := rfl
@[simp] theorem bindComplete_sched (s : State) : (bindComplete s).sched = s.sched := rfl
@[simp] theorem bindComplete_params (s : State) : (bindComplete s).params = s.params := rfl
@[simp] theorem bindComplete_inputs (s : State) : (bindComplete s).inputs = s.inputs := rfl
@[simp] theorem bindComplete_readLog (s : State) : (bindComplete s).readLog = s.readLog := rfl
@[simp] theorem bindComplete_drawIndex (s : State) : (bindComplete s).drawIndex = s.drawIndex := rfl

@[simp] theorem assertReset_status (s : State) : (assertReset s).status = State.reset.status := rfl
@[simp] theorem assertReset_result (s : State) : (assertReset s).result = State.reset.result := rfl
@[simp] theorem assertReset_ctrl (s : State) : (assertReset s).ctrl = State.reset.ctrl := rfl
@[simp] theorem assertReset_pwrReq (s : State) : (assertReset s).pwrReq = State.reset.pwrReq := rfl
@[simp] theorem assertReset_pwrApplied (s : State) : (assertReset s).pwrApplied = State.reset.pwrApplied := rfl
@[simp] theorem assertReset_phase (s : State) : (assertReset s).phase = State.reset.phase := rfl
@[simp] theorem assertReset_cursor (s : State) : (assertReset s).cursor = State.reset.cursor := rfl
@[simp] theorem assertReset_count (s : State) : (assertReset s).count = State.reset.count := rfl
@[simp] theorem assertReset_pid (s : State) : (assertReset s).pid = State.reset.pid := rfl
@[simp] theorem assertReset_plen (s : State) : (assertReset s).plen = State.reset.plen := rfl
@[simp] theorem assertReset_flen (s : State) : (assertReset s).flen = State.reset.flen := rfl
@[simp] theorem assertReset_serialLen (s : State) : (assertReset s).serialLen = State.reset.serialLen := rfl
@[simp] theorem assertReset_seed (s : State) : (assertReset s).seed = State.reset.seed := rfl
@[simp] theorem assertReset_fixedId (s : State) : (assertReset s).fixedId = State.reset.fixedId := rfl
@[simp] theorem assertReset_addrIn (s : State) : (assertReset s).addrIn = State.reset.addrIn := rfl
@[simp] theorem assertReset_actAddr (s : State) : (assertReset s).actAddr = State.reset.actAddr := rfl
@[simp] theorem assertReset_idAddr (s : State) : (assertReset s).idAddr = State.reset.idAddr := rfl
@[simp] theorem assertReset_idChan (s : State) : (assertReset s).idChan = State.reset.idChan := rfl
@[simp] theorem assertReset_nextPeriod (s : State) : (assertReset s).nextPeriod = State.reset.nextPeriod := rfl
@[simp] theorem assertReset_serial (s : State) : (assertReset s).serial = State.reset.serial := rfl
@[simp] theorem assertReset_payload (s : State) : (assertReset s).payload = State.reset.payload := rfl
@[simp] theorem assertReset_frame (s : State) : (assertReset s).frame = State.reset.frame := rfl
@[simp] theorem assertReset_chIn (s : State) : (assertReset s).chIn = State.reset.chIn := rfl
@[simp] theorem assertReset_prngState (s : State) : (assertReset s).prngState = State.reset.prngState := rfl
@[simp] theorem assertReset_events (s : State) : (assertReset s).events = State.reset.events := rfl
@[simp] theorem assertReset_answers (s : State) : (assertReset s).answers = State.reset.answers := rfl
@[simp] theorem assertReset_sched (s : State) : (assertReset s).sched = State.reset.sched := rfl
@[simp] theorem assertReset_params (s : State) : (assertReset s).params = s.params := rfl
@[simp] theorem assertReset_inputs (s : State) : (assertReset s).inputs = s.inputs := rfl
@[simp] theorem assertReset_readLog (s : State) : (assertReset s).readLog = State.reset.readLog := rfl
@[simp] theorem assertReset_drawIndex (s : State) : (assertReset s).drawIndex = s.drawIndex := rfl

@[simp] theorem hostRead_status (off : Byte) (s : State) : (hostRead off s).status = s.status := rfl
@[simp] theorem hostRead_result (off : Byte) (s : State) : (hostRead off s).result = s.result := rfl
@[simp] theorem hostRead_ctrl (off : Byte) (s : State) : (hostRead off s).ctrl = s.ctrl := rfl
@[simp] theorem hostRead_pwrReq (off : Byte) (s : State) : (hostRead off s).pwrReq = s.pwrReq := rfl
@[simp] theorem hostRead_pwrApplied (off : Byte) (s : State) : (hostRead off s).pwrApplied = s.pwrApplied := rfl
@[simp] theorem hostRead_phase (off : Byte) (s : State) : (hostRead off s).phase = s.phase := rfl
@[simp] theorem hostRead_cursor (off : Byte) (s : State) : (hostRead off s).cursor = s.cursor := rfl
@[simp] theorem hostRead_count (off : Byte) (s : State) : (hostRead off s).count = s.count := rfl
@[simp] theorem hostRead_pid (off : Byte) (s : State) : (hostRead off s).pid = s.pid := rfl
@[simp] theorem hostRead_plen (off : Byte) (s : State) : (hostRead off s).plen = s.plen := rfl
@[simp] theorem hostRead_flen (off : Byte) (s : State) : (hostRead off s).flen = s.flen := rfl
@[simp] theorem hostRead_serialLen (off : Byte) (s : State) : (hostRead off s).serialLen = s.serialLen := rfl
@[simp] theorem hostRead_seed (off : Byte) (s : State) : (hostRead off s).seed = s.seed := rfl
@[simp] theorem hostRead_fixedId (off : Byte) (s : State) : (hostRead off s).fixedId = s.fixedId := rfl
@[simp] theorem hostRead_addrIn (off : Byte) (s : State) : (hostRead off s).addrIn = s.addrIn := rfl
@[simp] theorem hostRead_actAddr (off : Byte) (s : State) : (hostRead off s).actAddr = s.actAddr := rfl
@[simp] theorem hostRead_idAddr (off : Byte) (s : State) : (hostRead off s).idAddr = s.idAddr := rfl
@[simp] theorem hostRead_idChan (off : Byte) (s : State) : (hostRead off s).idChan = s.idChan := rfl
@[simp] theorem hostRead_nextPeriod (off : Byte) (s : State) : (hostRead off s).nextPeriod = s.nextPeriod := rfl
@[simp] theorem hostRead_serial (off : Byte) (s : State) : (hostRead off s).serial = s.serial := rfl
@[simp] theorem hostRead_payload (off : Byte) (s : State) : (hostRead off s).payload = s.payload := rfl
@[simp] theorem hostRead_frame (off : Byte) (s : State) : (hostRead off s).frame = s.frame := rfl
@[simp] theorem hostRead_chIn (off : Byte) (s : State) : (hostRead off s).chIn = s.chIn := rfl
@[simp] theorem hostRead_prngState (off : Byte) (s : State) : (hostRead off s).prngState = s.prngState := rfl
@[simp] theorem hostRead_events (off : Byte) (s : State) : (hostRead off s).events = s.events := rfl
@[simp] theorem hostRead_answers (off : Byte) (s : State) : (hostRead off s).answers = s.answers := rfl
@[simp] theorem hostRead_sched (off : Byte) (s : State) : (hostRead off s).sched = s.sched := rfl
@[simp] theorem hostRead_params (off : Byte) (s : State) : (hostRead off s).params = s.params := rfl
@[simp] theorem hostRead_inputs (off : Byte) (s : State) : (hostRead off s).inputs = s.inputs := rfl
@[simp] theorem hostRead_readLog (off : Byte) (s : State) : (hostRead off s).readLog = s.readLog ++ [(off.toNat, memRead s off)] := rfl
@[simp] theorem hostRead_drawIndex (off : Byte) (s : State) : (hostRead off s).drawIndex = s.drawIndex := rfl

@[simp] theorem enterBinding_status (s : State) : (enterBinding s).status = s.status := rfl
@[simp] theorem enterBinding_result (s : State) : (enterBinding s).result = s.result := rfl
@[simp] theorem enterBinding_ctrl (s : State) : (enterBinding s).ctrl = s.ctrl := rfl
@[simp] theorem enterBinding_pwrReq (s : State) : (enterBinding s).pwrReq = s.pwrReq := rfl
@[simp] theorem enterBinding_pwrApplied (s : State) : (enterBinding s).pwrApplied = s.pwrApplied := rfl
@[simp] theorem enterBinding_phase (s : State) : (enterBinding s).phase = .binding := rfl
@[simp] theorem enterBinding_cursor (s : State) : (enterBinding s).cursor = 0 := rfl
@[simp] theorem enterBinding_count (s : State) : (enterBinding s).count = s.params.bindCount := rfl
@[simp] theorem enterBinding_pid (s : State) : (enterBinding s).pid = s.pid := rfl
@[simp] theorem enterBinding_plen (s : State) : (enterBinding s).plen = s.plen := rfl
@[simp] theorem enterBinding_flen (s : State) : (enterBinding s).flen = s.flen := rfl
@[simp] theorem enterBinding_serialLen (s : State) : (enterBinding s).serialLen = s.serialLen := rfl
@[simp] theorem enterBinding_seed (s : State) : (enterBinding s).seed = s.seed := rfl
@[simp] theorem enterBinding_fixedId (s : State) : (enterBinding s).fixedId = s.fixedId := rfl
@[simp] theorem enterBinding_addrIn (s : State) : (enterBinding s).addrIn = s.addrIn := rfl
@[simp] theorem enterBinding_actAddr (s : State) : (enterBinding s).actAddr = s.actAddr := rfl
@[simp] theorem enterBinding_idAddr (s : State) : (enterBinding s).idAddr = s.idAddr := rfl
@[simp] theorem enterBinding_idChan (s : State) : (enterBinding s).idChan = s.idChan := rfl
@[simp] theorem enterBinding_nextPeriod (s : State) : (enterBinding s).nextPeriod = s.nextPeriod := rfl
@[simp] theorem enterBinding_serial (s : State) : (enterBinding s).serial = s.serial := rfl
@[simp] theorem enterBinding_payload (s : State) : (enterBinding s).payload = s.payload := rfl
@[simp] theorem enterBinding_frame (s : State) : (enterBinding s).frame = s.frame := rfl
@[simp] theorem enterBinding_chIn (s : State) : (enterBinding s).chIn = s.chIn := rfl
@[simp] theorem enterBinding_prngState (s : State) : (enterBinding s).prngState = s.prngState := rfl
@[simp] theorem enterBinding_events (s : State) : (enterBinding s).events = s.events := rfl
@[simp] theorem enterBinding_answers (s : State) : (enterBinding s).answers = s.answers := rfl
@[simp] theorem enterBinding_sched (s : State) : (enterBinding s).sched = s.sched := rfl
@[simp] theorem enterBinding_params (s : State) : (enterBinding s).params = s.params := rfl
@[simp] theorem enterBinding_inputs (s : State) : (enterBinding s).inputs = s.inputs := rfl
@[simp] theorem enterBinding_readLog (s : State) : (enterBinding s).readLog = s.readLog := rfl
@[simp] theorem enterBinding_drawIndex (s : State) : (enterBinding s).drawIndex = s.drawIndex := rfl

@[simp] theorem useBindAddress_status (s : State) : (useBindAddress s).status = s.status := rfl
@[simp] theorem useBindAddress_result (s : State) : (useBindAddress s).result = s.result := rfl
@[simp] theorem useBindAddress_ctrl (s : State) : (useBindAddress s).ctrl = s.ctrl := rfl
@[simp] theorem useBindAddress_pwrReq (s : State) : (useBindAddress s).pwrReq = s.pwrReq := rfl
@[simp] theorem useBindAddress_pwrApplied (s : State) : (useBindAddress s).pwrApplied = s.pwrApplied := rfl
@[simp] theorem useBindAddress_phase (s : State) : (useBindAddress s).phase = s.phase := rfl
@[simp] theorem useBindAddress_cursor (s : State) : (useBindAddress s).cursor = s.cursor := rfl
@[simp] theorem useBindAddress_count (s : State) : (useBindAddress s).count = s.count := rfl
@[simp] theorem useBindAddress_pid (s : State) : (useBindAddress s).pid = s.pid := rfl
@[simp] theorem useBindAddress_plen (s : State) : (useBindAddress s).plen = s.plen := rfl
@[simp] theorem useBindAddress_flen (s : State) : (useBindAddress s).flen = s.flen := rfl
@[simp] theorem useBindAddress_serialLen (s : State) : (useBindAddress s).serialLen = s.serialLen := rfl
@[simp] theorem useBindAddress_seed (s : State) : (useBindAddress s).seed = crcSeed s.params.bindAddr := rfl
@[simp] theorem useBindAddress_fixedId (s : State) : (useBindAddress s).fixedId = s.fixedId := rfl
@[simp] theorem useBindAddress_addrIn (s : State) : (useBindAddress s).addrIn = s.addrIn := rfl
@[simp] theorem useBindAddress_actAddr (s : State) : (useBindAddress s).actAddr = s.params.bindAddr := rfl
@[simp] theorem useBindAddress_idAddr (s : State) : (useBindAddress s).idAddr = s.idAddr := rfl
@[simp] theorem useBindAddress_idChan (s : State) : (useBindAddress s).idChan = s.idChan := rfl
@[simp] theorem useBindAddress_nextPeriod (s : State) : (useBindAddress s).nextPeriod = s.nextPeriod := rfl
@[simp] theorem useBindAddress_serial (s : State) : (useBindAddress s).serial = s.serial := rfl
@[simp] theorem useBindAddress_payload (s : State) : (useBindAddress s).payload = s.payload := rfl
@[simp] theorem useBindAddress_frame (s : State) : (useBindAddress s).frame = s.frame := rfl
@[simp] theorem useBindAddress_chIn (s : State) : (useBindAddress s).chIn = s.chIn := rfl
@[simp] theorem useBindAddress_prngState (s : State) : (useBindAddress s).prngState = s.prngState := rfl
@[simp] theorem useBindAddress_events (s : State) : (useBindAddress s).events = s.events := rfl
@[simp] theorem useBindAddress_answers (s : State) : (useBindAddress s).answers = s.answers := rfl
@[simp] theorem useBindAddress_sched (s : State) : (useBindAddress s).sched = s.sched := rfl
@[simp] theorem useBindAddress_params (s : State) : (useBindAddress s).params = s.params := rfl
@[simp] theorem useBindAddress_inputs (s : State) : (useBindAddress s).inputs = s.inputs := rfl
@[simp] theorem useBindAddress_readLog (s : State) : (useBindAddress s).readLog = s.readLog := rfl
@[simp] theorem useBindAddress_drawIndex (s : State) : (useBindAddress s).drawIndex = s.drawIndex := rfl

@[simp] theorem programPower_status (s : State) : (programPower s).status = s.status := rfl
@[simp] theorem programPower_result (s : State) : (programPower s).result = s.result := rfl
@[simp] theorem programPower_ctrl (s : State) : (programPower s).ctrl = s.ctrl := rfl
@[simp] theorem programPower_pwrReq (s : State) : (programPower s).pwrReq = s.pwrReq := rfl
@[simp] theorem programPower_pwrApplied (s : State) : (programPower s).pwrApplied = clampedPower s := rfl
@[simp] theorem programPower_phase (s : State) : (programPower s).phase = s.phase := rfl
@[simp] theorem programPower_cursor (s : State) : (programPower s).cursor = s.cursor := rfl
@[simp] theorem programPower_count (s : State) : (programPower s).count = s.count := rfl
@[simp] theorem programPower_pid (s : State) : (programPower s).pid = s.pid := rfl
@[simp] theorem programPower_plen (s : State) : (programPower s).plen = s.plen := rfl
@[simp] theorem programPower_flen (s : State) : (programPower s).flen = s.flen := rfl
@[simp] theorem programPower_serialLen (s : State) : (programPower s).serialLen = s.serialLen := rfl
@[simp] theorem programPower_seed (s : State) : (programPower s).seed = s.seed := rfl
@[simp] theorem programPower_fixedId (s : State) : (programPower s).fixedId = s.fixedId := rfl
@[simp] theorem programPower_addrIn (s : State) : (programPower s).addrIn = s.addrIn := rfl
@[simp] theorem programPower_actAddr (s : State) : (programPower s).actAddr = s.actAddr := rfl
@[simp] theorem programPower_idAddr (s : State) : (programPower s).idAddr = s.idAddr := rfl
@[simp] theorem programPower_idChan (s : State) : (programPower s).idChan = s.idChan := rfl
@[simp] theorem programPower_nextPeriod (s : State) : (programPower s).nextPeriod = s.nextPeriod := rfl
@[simp] theorem programPower_serial (s : State) : (programPower s).serial = s.serial := rfl
@[simp] theorem programPower_payload (s : State) : (programPower s).payload = s.payload := rfl
@[simp] theorem programPower_frame (s : State) : (programPower s).frame = s.frame := rfl
@[simp] theorem programPower_chIn (s : State) : (programPower s).chIn = s.chIn := rfl
@[simp] theorem programPower_prngState (s : State) : (programPower s).prngState = s.prngState := rfl
@[simp] theorem programPower_events (s : State) : (programPower s).events = s.events ++ [.setPower (clampedPower s)] := rfl
@[simp] theorem programPower_answers (s : State) : (programPower s).answers = s.answers := rfl
@[simp] theorem programPower_sched (s : State) : (programPower s).sched = s.sched := rfl
@[simp] theorem programPower_params (s : State) : (programPower s).params = s.params := rfl
@[simp] theorem programPower_inputs (s : State) : (programPower s).inputs = s.inputs := rfl
@[simp] theorem programPower_readLog (s : State) : (programPower s).readLog = s.readLog := rfl
@[simp] theorem programPower_drawIndex (s : State) : (programPower s).drawIndex = s.drawIndex := rfl

@[simp] theorem announceBind_status (s : State) : (announceBind s).status = s.status := rfl
@[simp] theorem announceBind_result (s : State) : (announceBind s).result = s.result := rfl
@[simp] theorem announceBind_ctrl (s : State) : (announceBind s).ctrl = s.ctrl := rfl
@[simp] theorem announceBind_pwrReq (s : State) : (announceBind s).pwrReq = s.pwrReq := rfl
@[simp] theorem announceBind_pwrApplied (s : State) : (announceBind s).pwrApplied = s.pwrApplied := rfl
@[simp] theorem announceBind_phase (s : State) : (announceBind s).phase = s.phase := rfl
@[simp] theorem announceBind_cursor (s : State) : (announceBind s).cursor = s.cursor := rfl
@[simp] theorem announceBind_count (s : State) : (announceBind s).count = s.count := rfl
@[simp] theorem announceBind_pid (s : State) : (announceBind s).pid = s.pid := rfl
@[simp] theorem announceBind_plen (s : State) : (announceBind s).plen = s.plen := rfl
@[simp] theorem announceBind_flen (s : State) : (announceBind s).flen = s.flen := rfl
@[simp] theorem announceBind_serialLen (s : State) : (announceBind s).serialLen = s.serialLen := rfl
@[simp] theorem announceBind_seed (s : State) : (announceBind s).seed = s.seed := rfl
@[simp] theorem announceBind_fixedId (s : State) : (announceBind s).fixedId = s.fixedId := rfl
@[simp] theorem announceBind_addrIn (s : State) : (announceBind s).addrIn = s.addrIn := rfl
@[simp] theorem announceBind_actAddr (s : State) : (announceBind s).actAddr = s.actAddr := rfl
@[simp] theorem announceBind_idAddr (s : State) : (announceBind s).idAddr = s.idAddr := rfl
@[simp] theorem announceBind_idChan (s : State) : (announceBind s).idChan = s.idChan := rfl
@[simp] theorem announceBind_nextPeriod (s : State) : (announceBind s).nextPeriod = s.nextPeriod := rfl
@[simp] theorem announceBind_serial (s : State) : (announceBind s).serial = s.serial := rfl
@[simp] theorem announceBind_payload (s : State) : (announceBind s).payload = s.payload := rfl
@[simp] theorem announceBind_frame (s : State) : (announceBind s).frame = s.frame := rfl
@[simp] theorem announceBind_chIn (s : State) : (announceBind s).chIn = s.chIn := rfl
@[simp] theorem announceBind_prngState (s : State) : (announceBind s).prngState = s.prngState := rfl
@[simp] theorem announceBind_events (s : State) : (announceBind s).events = s.events ++ [.bindState (bindTimeMs s.params)] := rfl
@[simp] theorem announceBind_answers (s : State) : (announceBind s).answers = s.answers := rfl
@[simp] theorem announceBind_sched (s : State) : (announceBind s).sched = s.sched := rfl
@[simp] theorem announceBind_params (s : State) : (announceBind s).params = s.params := rfl
@[simp] theorem announceBind_inputs (s : State) : (announceBind s).inputs = s.inputs := rfl
@[simp] theorem announceBind_readLog (s : State) : (announceBind s).readLog = s.readLog := rfl
@[simp] theorem announceBind_drawIndex (s : State) : (announceBind s).drawIndex = s.drawIndex := rfl

@[simp] theorem setHint_status (p : U32) (s : State) : (setHint p s).status = s.status := rfl
@[simp] theorem setHint_result (p : U32) (s : State) : (setHint p s).result = s.result := rfl
@[simp] theorem setHint_ctrl (p : U32) (s : State) : (setHint p s).ctrl = s.ctrl := rfl
@[simp] theorem setHint_pwrReq (p : U32) (s : State) : (setHint p s).pwrReq = s.pwrReq := rfl
@[simp] theorem setHint_pwrApplied (p : U32) (s : State) : (setHint p s).pwrApplied = s.pwrApplied := rfl
@[simp] theorem setHint_phase (p : U32) (s : State) : (setHint p s).phase = s.phase := rfl
@[simp] theorem setHint_cursor (p : U32) (s : State) : (setHint p s).cursor = s.cursor := rfl
@[simp] theorem setHint_count (p : U32) (s : State) : (setHint p s).count = s.count := rfl
@[simp] theorem setHint_pid (p : U32) (s : State) : (setHint p s).pid = s.pid := rfl
@[simp] theorem setHint_plen (p : U32) (s : State) : (setHint p s).plen = s.plen := rfl
@[simp] theorem setHint_flen (p : U32) (s : State) : (setHint p s).flen = s.flen := rfl
@[simp] theorem setHint_serialLen (p : U32) (s : State) : (setHint p s).serialLen = s.serialLen := rfl
@[simp] theorem setHint_seed (p : U32) (s : State) : (setHint p s).seed = s.seed := rfl
@[simp] theorem setHint_fixedId (p : U32) (s : State) : (setHint p s).fixedId = s.fixedId := rfl
@[simp] theorem setHint_addrIn (p : U32) (s : State) : (setHint p s).addrIn = s.addrIn := rfl
@[simp] theorem setHint_actAddr (p : U32) (s : State) : (setHint p s).actAddr = s.actAddr := rfl
@[simp] theorem setHint_idAddr (p : U32) (s : State) : (setHint p s).idAddr = s.idAddr := rfl
@[simp] theorem setHint_idChan (p : U32) (s : State) : (setHint p s).idChan = s.idChan := rfl
@[simp] theorem setHint_nextPeriod (p : U32) (s : State) : (setHint p s).nextPeriod = p := rfl
@[simp] theorem setHint_serial (p : U32) (s : State) : (setHint p s).serial = s.serial := rfl
@[simp] theorem setHint_payload (p : U32) (s : State) : (setHint p s).payload = s.payload := rfl
@[simp] theorem setHint_frame (p : U32) (s : State) : (setHint p s).frame = s.frame := rfl
@[simp] theorem setHint_chIn (p : U32) (s : State) : (setHint p s).chIn = s.chIn := rfl
@[simp] theorem setHint_prngState (p : U32) (s : State) : (setHint p s).prngState = s.prngState := rfl
@[simp] theorem setHint_events (p : U32) (s : State) : (setHint p s).events = s.events := rfl
@[simp] theorem setHint_answers (p : U32) (s : State) : (setHint p s).answers = s.answers := rfl
@[simp] theorem setHint_sched (p : U32) (s : State) : (setHint p s).sched = s.sched := rfl
@[simp] theorem setHint_params (p : U32) (s : State) : (setHint p s).params = s.params := rfl
@[simp] theorem setHint_inputs (p : U32) (s : State) : (setHint p s).inputs = s.inputs := rfl
@[simp] theorem setHint_readLog (p : U32) (s : State) : (setHint p s).readLog = s.readLog := rfl
@[simp] theorem setHint_drawIndex (p : U32) (s : State) : (setHint p s).drawIndex = s.drawIndex := rfl

@[simp] theorem askStart_status (s : State) : (askStart s).status = s.status := rfl
@[simp] theorem askStart_result (s : State) : (askStart s).result = s.result := rfl
@[simp] theorem askStart_ctrl (s : State) : (askStart s).ctrl = s.ctrl := rfl
@[simp] theorem askStart_pwrReq (s : State) : (askStart s).pwrReq = s.pwrReq := rfl
@[simp] theorem askStart_pwrApplied (s : State) : (askStart s).pwrApplied = s.pwrApplied := rfl
@[simp] theorem askStart_phase (s : State) : (askStart s).phase = s.phase := rfl
@[simp] theorem askStart_cursor (s : State) : (askStart s).cursor = s.cursor := rfl
@[simp] theorem askStart_count (s : State) : (askStart s).count = s.count := rfl
@[simp] theorem askStart_pid (s : State) : (askStart s).pid = s.pid := rfl
@[simp] theorem askStart_plen (s : State) : (askStart s).plen = s.plen := rfl
@[simp] theorem askStart_flen (s : State) : (askStart s).flen = s.flen := rfl
@[simp] theorem askStart_serialLen (s : State) : (askStart s).serialLen = s.serialLen := rfl
@[simp] theorem askStart_seed (s : State) : (askStart s).seed = s.seed := rfl
@[simp] theorem askStart_fixedId (s : State) : (askStart s).fixedId = s.fixedId := rfl
@[simp] theorem askStart_addrIn (s : State) : (askStart s).addrIn = s.addrIn := rfl
@[simp] theorem askStart_actAddr (s : State) : (askStart s).actAddr = s.actAddr := rfl
@[simp] theorem askStart_idAddr (s : State) : (askStart s).idAddr = s.idAddr := rfl
@[simp] theorem askStart_idChan (s : State) : (askStart s).idChan = s.idChan := rfl
@[simp] theorem askStart_nextPeriod (s : State) : (askStart s).nextPeriod = s.params.initWaitUs := rfl
@[simp] theorem askStart_serial (s : State) : (askStart s).serial = s.serial := rfl
@[simp] theorem askStart_payload (s : State) : (askStart s).payload = s.payload := rfl
@[simp] theorem askStart_frame (s : State) : (askStart s).frame = s.frame := rfl
@[simp] theorem askStart_chIn (s : State) : (askStart s).chIn = s.chIn := rfl
@[simp] theorem askStart_prngState (s : State) : (askStart s).prngState = s.prngState := rfl
@[simp] theorem askStart_events (s : State) : (askStart s).events = s.events ++ [.schedStart s.params.initWaitUs] := rfl
@[simp] theorem askStart_answers (s : State) : (askStart s).answers = s.answers := rfl
@[simp] theorem askStart_sched (s : State) : (askStart s).sched = .armed s.params.initWaitUs := rfl
@[simp] theorem askStart_params (s : State) : (askStart s).params = s.params := rfl
@[simp] theorem askStart_inputs (s : State) : (askStart s).inputs = s.inputs := rfl
@[simp] theorem askStart_readLog (s : State) : (askStart s).readLog = s.readLog := rfl
@[simp] theorem askStart_drawIndex (s : State) : (askStart s).drawIndex = s.drawIndex := rfl

@[simp] theorem enterIdle_status (s : State) : (enterIdle s).status = s.status := rfl
@[simp] theorem enterIdle_result (s : State) : (enterIdle s).result = s.result := rfl
@[simp] theorem enterIdle_ctrl (s : State) : (enterIdle s).ctrl = s.ctrl := rfl
@[simp] theorem enterIdle_pwrReq (s : State) : (enterIdle s).pwrReq = s.pwrReq := rfl
@[simp] theorem enterIdle_pwrApplied (s : State) : (enterIdle s).pwrApplied = s.pwrApplied := rfl
@[simp] theorem enterIdle_phase (s : State) : (enterIdle s).phase = .idle := rfl
@[simp] theorem enterIdle_cursor (s : State) : (enterIdle s).cursor = s.cursor := rfl
@[simp] theorem enterIdle_count (s : State) : (enterIdle s).count = s.count := rfl
@[simp] theorem enterIdle_pid (s : State) : (enterIdle s).pid = s.pid := rfl
@[simp] theorem enterIdle_plen (s : State) : (enterIdle s).plen = s.plen := rfl
@[simp] theorem enterIdle_flen (s : State) : (enterIdle s).flen = s.flen := rfl
@[simp] theorem enterIdle_serialLen (s : State) : (enterIdle s).serialLen = s.serialLen := rfl
@[simp] theorem enterIdle_seed (s : State) : (enterIdle s).seed = s.seed := rfl
@[simp] theorem enterIdle_fixedId (s : State) : (enterIdle s).fixedId = s.fixedId := rfl
@[simp] theorem enterIdle_addrIn (s : State) : (enterIdle s).addrIn = s.addrIn := rfl
@[simp] theorem enterIdle_actAddr (s : State) : (enterIdle s).actAddr = s.actAddr := rfl
@[simp] theorem enterIdle_idAddr (s : State) : (enterIdle s).idAddr = s.idAddr := rfl
@[simp] theorem enterIdle_idChan (s : State) : (enterIdle s).idChan = s.idChan := rfl
@[simp] theorem enterIdle_nextPeriod (s : State) : (enterIdle s).nextPeriod = 0 := rfl
@[simp] theorem enterIdle_serial (s : State) : (enterIdle s).serial = s.serial := rfl
@[simp] theorem enterIdle_payload (s : State) : (enterIdle s).payload = s.payload := rfl
@[simp] theorem enterIdle_frame (s : State) : (enterIdle s).frame = s.frame := rfl
@[simp] theorem enterIdle_chIn (s : State) : (enterIdle s).chIn = s.chIn := rfl
@[simp] theorem enterIdle_prngState (s : State) : (enterIdle s).prngState = s.prngState := rfl
@[simp] theorem enterIdle_events (s : State) : (enterIdle s).events = s.events := rfl
@[simp] theorem enterIdle_answers (s : State) : (enterIdle s).answers = s.answers := rfl
@[simp] theorem enterIdle_sched (s : State) : (enterIdle s).sched = s.sched := rfl
@[simp] theorem enterIdle_params (s : State) : (enterIdle s).params = s.params := rfl
@[simp] theorem enterIdle_inputs (s : State) : (enterIdle s).inputs = s.inputs := rfl
@[simp] theorem enterIdle_readLog (s : State) : (enterIdle s).readLog = s.readLog := rfl
@[simp] theorem enterIdle_drawIndex (s : State) : (enterIdle s).drawIndex = s.drawIndex := rfl

@[simp] theorem takeAnswer_status (ok : Bool) (s : State) : (takeAnswer ok s).status = s.status := rfl
@[simp] theorem takeAnswer_result (ok : Bool) (s : State) : (takeAnswer ok s).result = resetOutcome ok := rfl
@[simp] theorem takeAnswer_ctrl (ok : Bool) (s : State) : (takeAnswer ok s).ctrl = s.ctrl := rfl
@[simp] theorem takeAnswer_pwrReq (ok : Bool) (s : State) : (takeAnswer ok s).pwrReq = s.pwrReq := rfl
@[simp] theorem takeAnswer_pwrApplied (ok : Bool) (s : State) : (takeAnswer ok s).pwrApplied = s.pwrApplied := rfl
@[simp] theorem takeAnswer_phase (ok : Bool) (s : State) : (takeAnswer ok s).phase = s.phase := rfl
@[simp] theorem takeAnswer_cursor (ok : Bool) (s : State) : (takeAnswer ok s).cursor = s.cursor := rfl
@[simp] theorem takeAnswer_count (ok : Bool) (s : State) : (takeAnswer ok s).count = s.count := rfl
@[simp] theorem takeAnswer_pid (ok : Bool) (s : State) : (takeAnswer ok s).pid = s.pid := rfl
@[simp] theorem takeAnswer_plen (ok : Bool) (s : State) : (takeAnswer ok s).plen = s.plen := rfl
@[simp] theorem takeAnswer_flen (ok : Bool) (s : State) : (takeAnswer ok s).flen = s.flen := rfl
@[simp] theorem takeAnswer_serialLen (ok : Bool) (s : State) : (takeAnswer ok s).serialLen = s.serialLen := rfl
@[simp] theorem takeAnswer_seed (ok : Bool) (s : State) : (takeAnswer ok s).seed = s.seed := rfl
@[simp] theorem takeAnswer_fixedId (ok : Bool) (s : State) : (takeAnswer ok s).fixedId = s.fixedId := rfl
@[simp] theorem takeAnswer_addrIn (ok : Bool) (s : State) : (takeAnswer ok s).addrIn = s.addrIn := rfl
@[simp] theorem takeAnswer_actAddr (ok : Bool) (s : State) : (takeAnswer ok s).actAddr = s.actAddr := rfl
@[simp] theorem takeAnswer_idAddr (ok : Bool) (s : State) : (takeAnswer ok s).idAddr = s.idAddr := rfl
@[simp] theorem takeAnswer_idChan (ok : Bool) (s : State) : (takeAnswer ok s).idChan = s.idChan := rfl
@[simp] theorem takeAnswer_nextPeriod (ok : Bool) (s : State) : (takeAnswer ok s).nextPeriod = s.nextPeriod := rfl
@[simp] theorem takeAnswer_serial (ok : Bool) (s : State) : (takeAnswer ok s).serial = s.serial := rfl
@[simp] theorem takeAnswer_payload (ok : Bool) (s : State) : (takeAnswer ok s).payload = s.payload := rfl
@[simp] theorem takeAnswer_frame (ok : Bool) (s : State) : (takeAnswer ok s).frame = s.frame := rfl
@[simp] theorem takeAnswer_chIn (ok : Bool) (s : State) : (takeAnswer ok s).chIn = s.chIn := rfl
@[simp] theorem takeAnswer_prngState (ok : Bool) (s : State) : (takeAnswer ok s).prngState = s.prngState := rfl
@[simp] theorem takeAnswer_events (ok : Bool) (s : State) : (takeAnswer ok s).events = s.events := rfl
@[simp] theorem takeAnswer_answers (ok : Bool) (s : State) : (takeAnswer ok s).answers = s.answers ++ [ok] := rfl
@[simp] theorem takeAnswer_sched (ok : Bool) (s : State) : (takeAnswer ok s).sched = s.sched := rfl
@[simp] theorem takeAnswer_params (ok : Bool) (s : State) : (takeAnswer ok s).params = s.params := rfl
@[simp] theorem takeAnswer_inputs (ok : Bool) (s : State) : (takeAnswer ok s).inputs = s.inputs := rfl
@[simp] theorem takeAnswer_readLog (ok : Bool) (s : State) : (takeAnswer ok s).readLog = s.readLog := rfl
@[simp] theorem takeAnswer_drawIndex (ok : Bool) (s : State) : (takeAnswer ok s).drawIndex = s.drawIndex + 1 := rfl

@[simp] theorem countDown_status (s : State) : (countDown s).status = s.status := rfl
@[simp] theorem countDown_result (s : State) : (countDown s).result = s.result := rfl
@[simp] theorem countDown_ctrl (s : State) : (countDown s).ctrl = s.ctrl := rfl
@[simp] theorem countDown_pwrReq (s : State) : (countDown s).pwrReq = s.pwrReq := rfl
@[simp] theorem countDown_pwrApplied (s : State) : (countDown s).pwrApplied = s.pwrApplied := rfl
@[simp] theorem countDown_phase (s : State) : (countDown s).phase = s.phase := rfl
@[simp] theorem countDown_cursor (s : State) : (countDown s).cursor = s.cursor := rfl
@[simp] theorem countDown_count (s : State) : (countDown s).count = s.count - 1 := rfl
@[simp] theorem countDown_pid (s : State) : (countDown s).pid = s.pid := rfl
@[simp] theorem countDown_plen (s : State) : (countDown s).plen = s.plen := rfl
@[simp] theorem countDown_flen (s : State) : (countDown s).flen = s.flen := rfl
@[simp] theorem countDown_serialLen (s : State) : (countDown s).serialLen = s.serialLen := rfl
@[simp] theorem countDown_seed (s : State) : (countDown s).seed = s.seed := rfl
@[simp] theorem countDown_fixedId (s : State) : (countDown s).fixedId = s.fixedId := rfl
@[simp] theorem countDown_addrIn (s : State) : (countDown s).addrIn = s.addrIn := rfl
@[simp] theorem countDown_actAddr (s : State) : (countDown s).actAddr = s.actAddr := rfl
@[simp] theorem countDown_idAddr (s : State) : (countDown s).idAddr = s.idAddr := rfl
@[simp] theorem countDown_idChan (s : State) : (countDown s).idChan = s.idChan := rfl
@[simp] theorem countDown_nextPeriod (s : State) : (countDown s).nextPeriod = s.nextPeriod := rfl
@[simp] theorem countDown_serial (s : State) : (countDown s).serial = s.serial := rfl
@[simp] theorem countDown_payload (s : State) : (countDown s).payload = s.payload := rfl
@[simp] theorem countDown_frame (s : State) : (countDown s).frame = s.frame := rfl
@[simp] theorem countDown_chIn (s : State) : (countDown s).chIn = s.chIn := rfl
@[simp] theorem countDown_prngState (s : State) : (countDown s).prngState = s.prngState := rfl
@[simp] theorem countDown_events (s : State) : (countDown s).events = s.events := rfl
@[simp] theorem countDown_answers (s : State) : (countDown s).answers = s.answers := rfl
@[simp] theorem countDown_sched (s : State) : (countDown s).sched = s.sched := rfl
@[simp] theorem countDown_params (s : State) : (countDown s).params = s.params := rfl
@[simp] theorem countDown_inputs (s : State) : (countDown s).inputs = s.inputs := rfl
@[simp] theorem countDown_readLog (s : State) : (countDown s).readLog = s.readLog := rfl
@[simp] theorem countDown_drawIndex (s : State) : (countDown s).drawIndex = s.drawIndex := rfl

@[simp] theorem enterLive_status (s : State) : (enterLive s).status = s.status := rfl
@[simp] theorem enterLive_result (s : State) : (enterLive s).result = s.result := rfl
@[simp] theorem enterLive_ctrl (s : State) : (enterLive s).ctrl = s.ctrl := rfl
@[simp] theorem enterLive_pwrReq (s : State) : (enterLive s).pwrReq = s.pwrReq := rfl
@[simp] theorem enterLive_pwrApplied (s : State) : (enterLive s).pwrApplied = s.pwrApplied := rfl
@[simp] theorem enterLive_phase (s : State) : (enterLive s).phase = .live := rfl
@[simp] theorem enterLive_cursor (s : State) : (enterLive s).cursor = s.cursor := rfl
@[simp] theorem enterLive_count (s : State) : (enterLive s).count = s.count := rfl
@[simp] theorem enterLive_pid (s : State) : (enterLive s).pid = s.pid := rfl
@[simp] theorem enterLive_plen (s : State) : (enterLive s).plen = s.plen := rfl
@[simp] theorem enterLive_flen (s : State) : (enterLive s).flen = s.flen := rfl
@[simp] theorem enterLive_serialLen (s : State) : (enterLive s).serialLen = s.serialLen := rfl
@[simp] theorem enterLive_seed (s : State) : (enterLive s).seed = s.seed := rfl
@[simp] theorem enterLive_fixedId (s : State) : (enterLive s).fixedId = s.fixedId := rfl
@[simp] theorem enterLive_addrIn (s : State) : (enterLive s).addrIn = s.addrIn := rfl
@[simp] theorem enterLive_actAddr (s : State) : (enterLive s).actAddr = s.actAddr := rfl
@[simp] theorem enterLive_idAddr (s : State) : (enterLive s).idAddr = s.idAddr := rfl
@[simp] theorem enterLive_idChan (s : State) : (enterLive s).idChan = s.idChan := rfl
@[simp] theorem enterLive_nextPeriod (s : State) : (enterLive s).nextPeriod = s.nextPeriod := rfl
@[simp] theorem enterLive_serial (s : State) : (enterLive s).serial = s.serial := rfl
@[simp] theorem enterLive_payload (s : State) : (enterLive s).payload = s.payload := rfl
@[simp] theorem enterLive_frame (s : State) : (enterLive s).frame = s.frame := rfl
@[simp] theorem enterLive_chIn (s : State) : (enterLive s).chIn = s.chIn := rfl
@[simp] theorem enterLive_prngState (s : State) : (enterLive s).prngState = s.prngState := rfl
@[simp] theorem enterLive_events (s : State) : (enterLive s).events = s.events := rfl
@[simp] theorem enterLive_answers (s : State) : (enterLive s).answers = s.answers := rfl
@[simp] theorem enterLive_sched (s : State) : (enterLive s).sched = s.sched := rfl
@[simp] theorem enterLive_params (s : State) : (enterLive s).params = s.params := rfl
@[simp] theorem enterLive_inputs (s : State) : (enterLive s).inputs = s.inputs := rfl
@[simp] theorem enterLive_readLog (s : State) : (enterLive s).readLog = s.readLog := rfl
@[simp] theorem enterLive_drawIndex (s : State) : (enterLive s).drawIndex = s.drawIndex := rfl

@[simp] theorem advanceCursor_status (s : State) : (advanceCursor s).status = s.status := rfl
@[simp] theorem advanceCursor_result (s : State) : (advanceCursor s).result = s.result := rfl
@[simp] theorem advanceCursor_ctrl (s : State) : (advanceCursor s).ctrl = s.ctrl := rfl
@[simp] theorem advanceCursor_pwrReq (s : State) : (advanceCursor s).pwrReq = s.pwrReq := rfl
@[simp] theorem advanceCursor_pwrApplied (s : State) : (advanceCursor s).pwrApplied = s.pwrApplied := rfl
@[simp] theorem advanceCursor_phase (s : State) : (advanceCursor s).phase = s.phase := rfl
@[simp] theorem advanceCursor_cursor (s : State) : (advanceCursor s).cursor = s.cursor + 1 := rfl
@[simp] theorem advanceCursor_count (s : State) : (advanceCursor s).count = s.count := rfl
@[simp] theorem advanceCursor_pid (s : State) : (advanceCursor s).pid = s.pid := rfl
@[simp] theorem advanceCursor_plen (s : State) : (advanceCursor s).plen = s.plen := rfl
@[simp] theorem advanceCursor_flen (s : State) : (advanceCursor s).flen = s.flen := rfl
@[simp] theorem advanceCursor_serialLen (s : State) : (advanceCursor s).serialLen = s.serialLen := rfl
@[simp] theorem advanceCursor_seed (s : State) : (advanceCursor s).seed = s.seed := rfl
@[simp] theorem advanceCursor_fixedId (s : State) : (advanceCursor s).fixedId = s.fixedId := rfl
@[simp] theorem advanceCursor_addrIn (s : State) : (advanceCursor s).addrIn = s.addrIn := rfl
@[simp] theorem advanceCursor_actAddr (s : State) : (advanceCursor s).actAddr = s.actAddr := rfl
@[simp] theorem advanceCursor_idAddr (s : State) : (advanceCursor s).idAddr = s.idAddr := rfl
@[simp] theorem advanceCursor_idChan (s : State) : (advanceCursor s).idChan = s.idChan := rfl
@[simp] theorem advanceCursor_nextPeriod (s : State) : (advanceCursor s).nextPeriod = s.nextPeriod := rfl
@[simp] theorem advanceCursor_serial (s : State) : (advanceCursor s).serial = s.serial := rfl
@[simp] theorem advanceCursor_payload (s : State) : (advanceCursor s).payload = s.payload := rfl
@[simp] theorem advanceCursor_frame (s : State) : (advanceCursor s).frame = s.frame := rfl
@[simp] theorem advanceCursor_chIn (s : State) : (advanceCursor s).chIn = s.chIn := rfl
@[simp] theorem advanceCursor_prngState (s : State) : (advanceCursor s).prngState = s.prngState := rfl
@[simp] theorem advanceCursor_events (s : State) : (advanceCursor s).events = s.events := rfl
@[simp] theorem advanceCursor_answers (s : State) : (advanceCursor s).answers = s.answers := rfl
@[simp] theorem advanceCursor_sched (s : State) : (advanceCursor s).sched = s.sched := rfl
@[simp] theorem advanceCursor_params (s : State) : (advanceCursor s).params = s.params := rfl
@[simp] theorem advanceCursor_inputs (s : State) : (advanceCursor s).inputs = s.inputs := rfl
@[simp] theorem advanceCursor_readLog (s : State) : (advanceCursor s).readLog = s.readLog := rfl
@[simp] theorem advanceCursor_drawIndex (s : State) : (advanceCursor s).drawIndex = s.drawIndex := rfl

@[simp] theorem reportPeriod_status (s : State) : (reportPeriod s).status = s.status := rfl
@[simp] theorem reportPeriod_result (s : State) : (reportPeriod s).result = s.result := rfl
@[simp] theorem reportPeriod_ctrl (s : State) : (reportPeriod s).ctrl = s.ctrl := rfl
@[simp] theorem reportPeriod_pwrReq (s : State) : (reportPeriod s).pwrReq = s.pwrReq := rfl
@[simp] theorem reportPeriod_pwrApplied (s : State) : (reportPeriod s).pwrApplied = s.pwrApplied := rfl
@[simp] theorem reportPeriod_phase (s : State) : (reportPeriod s).phase = s.phase := rfl
@[simp] theorem reportPeriod_cursor (s : State) : (reportPeriod s).cursor = s.cursor := rfl
@[simp] theorem reportPeriod_count (s : State) : (reportPeriod s).count = s.count := rfl
@[simp] theorem reportPeriod_pid (s : State) : (reportPeriod s).pid = s.pid := rfl
@[simp] theorem reportPeriod_plen (s : State) : (reportPeriod s).plen = s.plen := rfl
@[simp] theorem reportPeriod_flen (s : State) : (reportPeriod s).flen = s.flen := rfl
@[simp] theorem reportPeriod_serialLen (s : State) : (reportPeriod s).serialLen = s.serialLen := rfl
@[simp] theorem reportPeriod_seed (s : State) : (reportPeriod s).seed = s.seed := rfl
@[simp] theorem reportPeriod_fixedId (s : State) : (reportPeriod s).fixedId = s.fixedId := rfl
@[simp] theorem reportPeriod_addrIn (s : State) : (reportPeriod s).addrIn = s.addrIn := rfl
@[simp] theorem reportPeriod_actAddr (s : State) : (reportPeriod s).actAddr = s.actAddr := rfl
@[simp] theorem reportPeriod_idAddr (s : State) : (reportPeriod s).idAddr = s.idAddr := rfl
@[simp] theorem reportPeriod_idChan (s : State) : (reportPeriod s).idChan = s.idChan := rfl
@[simp] theorem reportPeriod_nextPeriod (s : State) : (reportPeriod s).nextPeriod = s.params.periodUs := rfl
@[simp] theorem reportPeriod_serial (s : State) : (reportPeriod s).serial = s.serial := rfl
@[simp] theorem reportPeriod_payload (s : State) : (reportPeriod s).payload = s.payload := rfl
@[simp] theorem reportPeriod_frame (s : State) : (reportPeriod s).frame = s.frame := rfl
@[simp] theorem reportPeriod_chIn (s : State) : (reportPeriod s).chIn = s.chIn := rfl
@[simp] theorem reportPeriod_prngState (s : State) : (reportPeriod s).prngState = s.prngState := rfl
@[simp] theorem reportPeriod_events (s : State) : (reportPeriod s).events = s.events ++ [.tickDone s.params.periodUs] := rfl
@[simp] theorem reportPeriod_answers (s : State) : (reportPeriod s).answers = s.answers := rfl
@[simp] theorem reportPeriod_sched (s : State) : (reportPeriod s).sched = .armed s.params.periodUs := rfl
@[simp] theorem reportPeriod_params (s : State) : (reportPeriod s).params = s.params := rfl
@[simp] theorem reportPeriod_inputs (s : State) : (reportPeriod s).inputs = s.inputs := rfl
@[simp] theorem reportPeriod_readLog (s : State) : (reportPeriod s).readLog = s.readLog := rfl
@[simp] theorem reportPeriod_drawIndex (s : State) : (reportPeriod s).drawIndex = s.drawIndex := rfl

@[simp] theorem noteTickIssued_status (s : State) : (noteTickIssued s).status = s.status := rfl
@[simp] theorem noteTickIssued_result (s : State) : (noteTickIssued s).result = s.result := rfl
@[simp] theorem noteTickIssued_ctrl (s : State) : (noteTickIssued s).ctrl = s.ctrl := rfl
@[simp] theorem noteTickIssued_pwrReq (s : State) : (noteTickIssued s).pwrReq = s.pwrReq := rfl
@[simp] theorem noteTickIssued_pwrApplied (s : State) : (noteTickIssued s).pwrApplied = s.pwrApplied := rfl
@[simp] theorem noteTickIssued_phase (s : State) : (noteTickIssued s).phase = s.phase := rfl
@[simp] theorem noteTickIssued_cursor (s : State) : (noteTickIssued s).cursor = s.cursor := rfl
@[simp] theorem noteTickIssued_count (s : State) : (noteTickIssued s).count = s.count := rfl
@[simp] theorem noteTickIssued_pid (s : State) : (noteTickIssued s).pid = s.pid := rfl
@[simp] theorem noteTickIssued_plen (s : State) : (noteTickIssued s).plen = s.plen := rfl
@[simp] theorem noteTickIssued_flen (s : State) : (noteTickIssued s).flen = s.flen := rfl
@[simp] theorem noteTickIssued_serialLen (s : State) : (noteTickIssued s).serialLen = s.serialLen := rfl
@[simp] theorem noteTickIssued_seed (s : State) : (noteTickIssued s).seed = s.seed := rfl
@[simp] theorem noteTickIssued_fixedId (s : State) : (noteTickIssued s).fixedId = s.fixedId := rfl
@[simp] theorem noteTickIssued_addrIn (s : State) : (noteTickIssued s).addrIn = s.addrIn := rfl
@[simp] theorem noteTickIssued_actAddr (s : State) : (noteTickIssued s).actAddr = s.actAddr := rfl
@[simp] theorem noteTickIssued_idAddr (s : State) : (noteTickIssued s).idAddr = s.idAddr := rfl
@[simp] theorem noteTickIssued_idChan (s : State) : (noteTickIssued s).idChan = s.idChan := rfl
@[simp] theorem noteTickIssued_nextPeriod (s : State) : (noteTickIssued s).nextPeriod = s.nextPeriod := rfl
@[simp] theorem noteTickIssued_serial (s : State) : (noteTickIssued s).serial = s.serial := rfl
@[simp] theorem noteTickIssued_payload (s : State) : (noteTickIssued s).payload = s.payload := rfl
@[simp] theorem noteTickIssued_frame (s : State) : (noteTickIssued s).frame = s.frame := rfl
@[simp] theorem noteTickIssued_chIn (s : State) : (noteTickIssued s).chIn = s.chIn := rfl
@[simp] theorem noteTickIssued_prngState (s : State) : (noteTickIssued s).prngState = s.prngState := rfl
@[simp] theorem noteTickIssued_events (s : State) : (noteTickIssued s).events = s.events := rfl
@[simp] theorem noteTickIssued_answers (s : State) : (noteTickIssued s).answers = s.answers := rfl
@[simp] theorem noteTickIssued_sched (s : State) : (noteTickIssued s).sched = schedulerIssues s.sched := rfl
@[simp] theorem noteTickIssued_params (s : State) : (noteTickIssued s).params = s.params := rfl
@[simp] theorem noteTickIssued_inputs (s : State) : (noteTickIssued s).inputs = s.inputs := rfl
@[simp] theorem noteTickIssued_readLog (s : State) : (noteTickIssued s).readLog = s.readLog := rfl
@[simp] theorem noteTickIssued_drawIndex (s : State) : (noteTickIssued s).drawIndex = s.drawIndex := rfl

@[simp] theorem withInputs_status (rest : List Input) (s : State) : (withInputs rest s).status = s.status := rfl
@[simp] theorem withInputs_result (rest : List Input) (s : State) : (withInputs rest s).result = s.result := rfl
@[simp] theorem withInputs_ctrl (rest : List Input) (s : State) : (withInputs rest s).ctrl = s.ctrl := rfl
@[simp] theorem withInputs_pwrReq (rest : List Input) (s : State) : (withInputs rest s).pwrReq = s.pwrReq := rfl
@[simp] theorem withInputs_pwrApplied (rest : List Input) (s : State) : (withInputs rest s).pwrApplied = s.pwrApplied := rfl
@[simp] theorem withInputs_phase (rest : List Input) (s : State) : (withInputs rest s).phase = s.phase := rfl
@[simp] theorem withInputs_cursor (rest : List Input) (s : State) : (withInputs rest s).cursor = s.cursor := rfl
@[simp] theorem withInputs_count (rest : List Input) (s : State) : (withInputs rest s).count = s.count := rfl
@[simp] theorem withInputs_pid (rest : List Input) (s : State) : (withInputs rest s).pid = s.pid := rfl
@[simp] theorem withInputs_plen (rest : List Input) (s : State) : (withInputs rest s).plen = s.plen := rfl
@[simp] theorem withInputs_flen (rest : List Input) (s : State) : (withInputs rest s).flen = s.flen := rfl
@[simp] theorem withInputs_serialLen (rest : List Input) (s : State) : (withInputs rest s).serialLen = s.serialLen := rfl
@[simp] theorem withInputs_seed (rest : List Input) (s : State) : (withInputs rest s).seed = s.seed := rfl
@[simp] theorem withInputs_fixedId (rest : List Input) (s : State) : (withInputs rest s).fixedId = s.fixedId := rfl
@[simp] theorem withInputs_addrIn (rest : List Input) (s : State) : (withInputs rest s).addrIn = s.addrIn := rfl
@[simp] theorem withInputs_actAddr (rest : List Input) (s : State) : (withInputs rest s).actAddr = s.actAddr := rfl
@[simp] theorem withInputs_idAddr (rest : List Input) (s : State) : (withInputs rest s).idAddr = s.idAddr := rfl
@[simp] theorem withInputs_idChan (rest : List Input) (s : State) : (withInputs rest s).idChan = s.idChan := rfl
@[simp] theorem withInputs_nextPeriod (rest : List Input) (s : State) : (withInputs rest s).nextPeriod = s.nextPeriod := rfl
@[simp] theorem withInputs_serial (rest : List Input) (s : State) : (withInputs rest s).serial = s.serial := rfl
@[simp] theorem withInputs_payload (rest : List Input) (s : State) : (withInputs rest s).payload = s.payload := rfl
@[simp] theorem withInputs_frame (rest : List Input) (s : State) : (withInputs rest s).frame = s.frame := rfl
@[simp] theorem withInputs_chIn (rest : List Input) (s : State) : (withInputs rest s).chIn = s.chIn := rfl
@[simp] theorem withInputs_prngState (rest : List Input) (s : State) : (withInputs rest s).prngState = s.prngState := rfl
@[simp] theorem withInputs_events (rest : List Input) (s : State) : (withInputs rest s).events = s.events := rfl
@[simp] theorem withInputs_answers (rest : List Input) (s : State) : (withInputs rest s).answers = s.answers := rfl
@[simp] theorem withInputs_sched (rest : List Input) (s : State) : (withInputs rest s).sched = s.sched := rfl
@[simp] theorem withInputs_params (rest : List Input) (s : State) : (withInputs rest s).params = s.params := rfl
@[simp] theorem withInputs_inputs (rest : List Input) (s : State) : (withInputs rest s).inputs = rest := rfl
@[simp] theorem withInputs_readLog (rest : List Input) (s : State) : (withInputs rest s).readLog = s.readLog := rfl
@[simp] theorem withInputs_drawIndex (rest : List Input) (s : State) : (withInputs rest s).drawIndex = s.drawIndex := rfl

/-! The parts of a tick: the fields they leave alone. -/

@[simp] theorem powerCheck_status (s : State) : (powerCheck s).status = s.status := by unfold powerCheck; split <;> rfl
@[simp] theorem powerCheck_result (s : State) : (powerCheck s).result = s.result := by unfold powerCheck; split <;> rfl
@[simp] theorem powerCheck_ctrl (s : State) : (powerCheck s).ctrl = s.ctrl := by unfold powerCheck; split <;> rfl
@[simp] theorem powerCheck_pwrReq (s : State) : (powerCheck s).pwrReq = s.pwrReq := by unfold powerCheck; split <;> rfl
@[simp] theorem powerCheck_phase (s : State) : (powerCheck s).phase = s.phase := by unfold powerCheck; split <;> rfl
@[simp] theorem powerCheck_cursor (s : State) : (powerCheck s).cursor = s.cursor := by unfold powerCheck; split <;> rfl
@[simp] theorem powerCheck_count (s : State) : (powerCheck s).count = s.count := by unfold powerCheck; split <;> rfl
@[simp] theorem powerCheck_pid (s : State) : (powerCheck s).pid = s.pid := by unfold powerCheck; split <;> rfl
@[simp] theorem powerCheck_plen (s : State) : (powerCheck s).plen = s.plen := by unfold powerCheck; split <;> rfl
@[simp] theorem powerCheck_flen (s : State) : (powerCheck s).flen = s.flen := by unfold powerCheck; split <;> rfl
@[simp] theorem powerCheck_serialLen (s : State) : (powerCheck s).serialLen = s.serialLen := by unfold powerCheck; split <;> rfl
@[simp] theorem powerCheck_seed (s : State) : (powerCheck s).seed = s.seed := by unfold powerCheck; split <;> rfl
@[simp] theorem powerCheck_fixedId (s : State) : (powerCheck s).fixedId = s.fixedId := by unfold powerCheck; split <;> rfl
@[simp] theorem powerCheck_addrIn (s : State) : (powerCheck s).addrIn = s.addrIn := by unfold powerCheck; split <;> rfl
@[simp] theorem powerCheck_actAddr (s : State) : (powerCheck s).actAddr = s.actAddr := by unfold powerCheck; split <;> rfl
@[simp] theorem powerCheck_idAddr (s : State) : (powerCheck s).idAddr = s.idAddr := by unfold powerCheck; split <;> rfl
@[simp] theorem powerCheck_idChan (s : State) : (powerCheck s).idChan = s.idChan := by unfold powerCheck; split <;> rfl
@[simp] theorem powerCheck_nextPeriod (s : State) : (powerCheck s).nextPeriod = s.nextPeriod := by unfold powerCheck; split <;> rfl
@[simp] theorem powerCheck_serial (s : State) : (powerCheck s).serial = s.serial := by unfold powerCheck; split <;> rfl
@[simp] theorem powerCheck_payload (s : State) : (powerCheck s).payload = s.payload := by unfold powerCheck; split <;> rfl
@[simp] theorem powerCheck_frame (s : State) : (powerCheck s).frame = s.frame := by unfold powerCheck; split <;> rfl
@[simp] theorem powerCheck_chIn (s : State) : (powerCheck s).chIn = s.chIn := by unfold powerCheck; split <;> rfl
@[simp] theorem powerCheck_prngState (s : State) : (powerCheck s).prngState = s.prngState := by unfold powerCheck; split <;> rfl
@[simp] theorem powerCheck_answers (s : State) : (powerCheck s).answers = s.answers := by unfold powerCheck; split <;> rfl
@[simp] theorem powerCheck_sched (s : State) : (powerCheck s).sched = s.sched := by unfold powerCheck; split <;> rfl
@[simp] theorem powerCheck_params (s : State) : (powerCheck s).params = s.params := by unfold powerCheck; split <;> rfl
@[simp] theorem powerCheck_inputs (s : State) : (powerCheck s).inputs = s.inputs := by unfold powerCheck; split <;> rfl
@[simp] theorem powerCheck_readLog (s : State) : (powerCheck s).readLog = s.readLog := by unfold powerCheck; split <;> rfl
@[simp] theorem powerCheck_drawIndex (s : State) : (powerCheck s).drawIndex = s.drawIndex := by unfold powerCheck; split <;> rfl

@[simp] theorem finishTick_status (s : State) : (finishTick s).status = s.status := by simp [finishTick]
@[simp] theorem finishTick_result (s : State) : (finishTick s).result = s.result := by simp [finishTick]
@[simp] theorem finishTick_ctrl (s : State) : (finishTick s).ctrl = s.ctrl := by simp [finishTick]
@[simp] theorem finishTick_pwrReq (s : State) : (finishTick s).pwrReq = s.pwrReq := by simp [finishTick]
@[simp] theorem finishTick_phase (s : State) : (finishTick s).phase = s.phase := by simp [finishTick]
@[simp] theorem finishTick_cursor (s : State) : (finishTick s).cursor = s.cursor := by simp [finishTick]
@[simp] theorem finishTick_count (s : State) : (finishTick s).count = s.count := by simp [finishTick]
@[simp] theorem finishTick_pid (s : State) : (finishTick s).pid = s.pid := by simp [finishTick]
@[simp] theorem finishTick_plen (s : State) : (finishTick s).plen = s.plen := by simp [finishTick]
@[simp] theorem finishTick_flen (s : State) : (finishTick s).flen = s.flen := by simp [finishTick]
@[simp] theorem finishTick_serialLen (s : State) : (finishTick s).serialLen = s.serialLen := by simp [finishTick]
@[simp] theorem finishTick_seed (s : State) : (finishTick s).seed = s.seed := by simp [finishTick]
@[simp] theorem finishTick_fixedId (s : State) : (finishTick s).fixedId = s.fixedId := by simp [finishTick]
@[simp] theorem finishTick_addrIn (s : State) : (finishTick s).addrIn = s.addrIn := by simp [finishTick]
@[simp] theorem finishTick_actAddr (s : State) : (finishTick s).actAddr = s.actAddr := by simp [finishTick]
@[simp] theorem finishTick_idAddr (s : State) : (finishTick s).idAddr = s.idAddr := by simp [finishTick]
@[simp] theorem finishTick_idChan (s : State) : (finishTick s).idChan = s.idChan := by simp [finishTick]
@[simp] theorem finishTick_serial (s : State) : (finishTick s).serial = s.serial := by simp [finishTick]
@[simp] theorem finishTick_payload (s : State) : (finishTick s).payload = s.payload := by simp [finishTick]
@[simp] theorem finishTick_frame (s : State) : (finishTick s).frame = s.frame := by simp [finishTick]
@[simp] theorem finishTick_chIn (s : State) : (finishTick s).chIn = s.chIn := by simp [finishTick]
@[simp] theorem finishTick_prngState (s : State) : (finishTick s).prngState = s.prngState := by simp [finishTick]
@[simp] theorem finishTick_answers (s : State) : (finishTick s).answers = s.answers := by simp [finishTick]
@[simp] theorem finishTick_params (s : State) : (finishTick s).params = s.params := by simp [finishTick]
@[simp] theorem finishTick_inputs (s : State) : (finishTick s).inputs = s.inputs := by simp [finishTick]
@[simp] theorem finishTick_readLog (s : State) : (finishTick s).readLog = s.readLog := by simp [finishTick]
@[simp] theorem finishTick_drawIndex (s : State) : (finishTick s).drawIndex = s.drawIndex := by simp [finishTick]

@[simp] theorem completeIfCounted_result (s : State) : (completeIfCounted s).result = s.result := by
  unfold completeIfCounted; split <;> rfl
@[simp] theorem completeIfCounted_ctrl (s : State) : (completeIfCounted s).ctrl = s.ctrl := by
  unfold completeIfCounted; split <;> rfl
@[simp] theorem completeIfCounted_pwrReq (s : State) : (completeIfCounted s).pwrReq = s.pwrReq := by
  unfold completeIfCounted; split <;> rfl
@[simp] theorem completeIfCounted_pwrApplied (s : State) : (completeIfCounted s).pwrApplied = s.pwrApplied := by
  unfold completeIfCounted; split <;> rfl
@[simp] theorem completeIfCounted_cursor (s : State) : (completeIfCounted s).cursor = s.cursor := by
  unfold completeIfCounted; split <;> rfl
@[simp] theorem completeIfCounted_plen (s : State) : (completeIfCounted s).plen = s.plen := by
  unfold completeIfCounted; split <;> rfl
@[simp] theorem completeIfCounted_serialLen (s : State) : (completeIfCounted s).serialLen = s.serialLen := by
  unfold completeIfCounted; split <;> rfl
@[simp] theorem completeIfCounted_fixedId (s : State) : (completeIfCounted s).fixedId = s.fixedId := by
  unfold completeIfCounted; split <;> rfl
@[simp] theorem completeIfCounted_addrIn (s : State) : (completeIfCounted s).addrIn = s.addrIn := by
  unfold completeIfCounted; split <;> rfl
@[simp] theorem completeIfCounted_idAddr (s : State) : (completeIfCounted s).idAddr = s.idAddr := by
  unfold completeIfCounted; split <;> rfl
@[simp] theorem completeIfCounted_idChan (s : State) : (completeIfCounted s).idChan = s.idChan := by
  unfold completeIfCounted; split <;> rfl
@[simp] theorem completeIfCounted_nextPeriod (s : State) : (completeIfCounted s).nextPeriod = s.nextPeriod := by
  unfold completeIfCounted; split <;> rfl
@[simp] theorem completeIfCounted_serial (s : State) : (completeIfCounted s).serial = s.serial := by
  unfold completeIfCounted; split <;> rfl
@[simp] theorem completeIfCounted_payload (s : State) : (completeIfCounted s).payload = s.payload := by
  unfold completeIfCounted; split <;> rfl
@[simp] theorem completeIfCounted_chIn (s : State) : (completeIfCounted s).chIn = s.chIn := by
  unfold completeIfCounted; split <;> rfl
@[simp] theorem completeIfCounted_prngState (s : State) : (completeIfCounted s).prngState = s.prngState := by
  unfold completeIfCounted; split <;> rfl
@[simp] theorem completeIfCounted_answers (s : State) : (completeIfCounted s).answers = s.answers := by
  unfold completeIfCounted; split <;> rfl
@[simp] theorem completeIfCounted_sched (s : State) : (completeIfCounted s).sched = s.sched := by
  unfold completeIfCounted; split <;> rfl
@[simp] theorem completeIfCounted_params (s : State) : (completeIfCounted s).params = s.params := by
  unfold completeIfCounted; split <;> rfl
@[simp] theorem completeIfCounted_inputs (s : State) : (completeIfCounted s).inputs = s.inputs := by
  unfold completeIfCounted; split <;> rfl
@[simp] theorem completeIfCounted_readLog (s : State) : (completeIfCounted s).readLog = s.readLog := by
  unfold completeIfCounted; split <;> rfl
@[simp] theorem completeIfCounted_drawIndex (s : State) : (completeIfCounted s).drawIndex = s.drawIndex := by
  unfold completeIfCounted; split <;> rfl
@[simp] theorem completeIfCounted_count (s : State) : (completeIfCounted s).count = s.count := by
  unfold completeIfCounted; split <;> rfl
@[simp] theorem completeIfCounted_pid (s : State) : (completeIfCounted s).pid = s.pid := by
  unfold completeIfCounted; split <;> rfl
@[simp] theorem completeIfCounted_flen (s : State) : (completeIfCounted s).flen = s.flen := by
  unfold completeIfCounted; split <;> rfl
@[simp] theorem completeIfCounted_frame (s : State) : (completeIfCounted s).frame = s.frame := by
  unfold completeIfCounted; split <;> rfl

@[simp] theorem bindTick_result (s : State) : (bindTick s).result = s.result := by simp [bindTick]
@[simp] theorem bindTick_ctrl (s : State) : (bindTick s).ctrl = s.ctrl := by simp [bindTick]
@[simp] theorem bindTick_pwrReq (s : State) : (bindTick s).pwrReq = s.pwrReq := by simp [bindTick]
@[simp] theorem bindTick_pwrApplied (s : State) : (bindTick s).pwrApplied = s.pwrApplied := by simp [bindTick]
@[simp] theorem bindTick_cursor (s : State) : (bindTick s).cursor = s.cursor := by simp [bindTick]
@[simp] theorem bindTick_plen (s : State) : (bindTick s).plen = s.plen := by simp [bindTick]
@[simp] theorem bindTick_serialLen (s : State) : (bindTick s).serialLen = s.serialLen := by simp [bindTick]
@[simp] theorem bindTick_fixedId (s : State) : (bindTick s).fixedId = s.fixedId := by simp [bindTick]
@[simp] theorem bindTick_addrIn (s : State) : (bindTick s).addrIn = s.addrIn := by simp [bindTick]
@[simp] theorem bindTick_idAddr (s : State) : (bindTick s).idAddr = s.idAddr := by simp [bindTick]
@[simp] theorem bindTick_idChan (s : State) : (bindTick s).idChan = s.idChan := by simp [bindTick]
@[simp] theorem bindTick_nextPeriod (s : State) : (bindTick s).nextPeriod = s.nextPeriod := by simp [bindTick]
@[simp] theorem bindTick_serial (s : State) : (bindTick s).serial = s.serial := by simp [bindTick]
@[simp] theorem bindTick_payload (s : State) : (bindTick s).payload = s.payload := by simp [bindTick]
@[simp] theorem bindTick_chIn (s : State) : (bindTick s).chIn = s.chIn := by simp [bindTick]
@[simp] theorem bindTick_prngState (s : State) : (bindTick s).prngState = s.prngState := by simp [bindTick]
@[simp] theorem bindTick_answers (s : State) : (bindTick s).answers = s.answers := by simp [bindTick]
@[simp] theorem bindTick_sched (s : State) : (bindTick s).sched = s.sched := by simp [bindTick]
@[simp] theorem bindTick_params (s : State) : (bindTick s).params = s.params := by simp [bindTick]
@[simp] theorem bindTick_inputs (s : State) : (bindTick s).inputs = s.inputs := by simp [bindTick]
@[simp] theorem bindTick_readLog (s : State) : (bindTick s).readLog = s.readLog := by simp [bindTick]
@[simp] theorem bindTick_drawIndex (s : State) : (bindTick s).drawIndex = s.drawIndex := by simp [bindTick]

@[simp] theorem liveTick_status (s : State) : (liveTick s).status = s.status := by simp [liveTick]
@[simp] theorem liveTick_result (s : State) : (liveTick s).result = s.result := by simp [liveTick]
@[simp] theorem liveTick_ctrl (s : State) : (liveTick s).ctrl = s.ctrl := by simp [liveTick]
@[simp] theorem liveTick_pwrReq (s : State) : (liveTick s).pwrReq = s.pwrReq := by simp [liveTick]
@[simp] theorem liveTick_pwrApplied (s : State) : (liveTick s).pwrApplied = s.pwrApplied := by simp [liveTick]
@[simp] theorem liveTick_phase (s : State) : (liveTick s).phase = s.phase := by simp [liveTick]
@[simp] theorem liveTick_count (s : State) : (liveTick s).count = s.count := by simp [liveTick]
@[simp] theorem liveTick_plen (s : State) : (liveTick s).plen = s.plen := by simp [liveTick]
@[simp] theorem liveTick_serialLen (s : State) : (liveTick s).serialLen = s.serialLen := by simp [liveTick]
@[simp] theorem liveTick_seed (s : State) : (liveTick s).seed = s.seed := by simp [liveTick]
@[simp] theorem liveTick_fixedId (s : State) : (liveTick s).fixedId = s.fixedId := by simp [liveTick]
@[simp] theorem liveTick_addrIn (s : State) : (liveTick s).addrIn = s.addrIn := by simp [liveTick]
@[simp] theorem liveTick_actAddr (s : State) : (liveTick s).actAddr = s.actAddr := by simp [liveTick]
@[simp] theorem liveTick_idAddr (s : State) : (liveTick s).idAddr = s.idAddr := by simp [liveTick]
@[simp] theorem liveTick_idChan (s : State) : (liveTick s).idChan = s.idChan := by simp [liveTick]
@[simp] theorem liveTick_nextPeriod (s : State) : (liveTick s).nextPeriod = s.nextPeriod := by simp [liveTick]
@[simp] theorem liveTick_serial (s : State) : (liveTick s).serial = s.serial := by simp [liveTick]
@[simp] theorem liveTick_payload (s : State) : (liveTick s).payload = s.payload := by simp [liveTick]
@[simp] theorem liveTick_chIn (s : State) : (liveTick s).chIn = s.chIn := by simp [liveTick]
@[simp] theorem liveTick_prngState (s : State) : (liveTick s).prngState = s.prngState := by simp [liveTick]
@[simp] theorem liveTick_answers (s : State) : (liveTick s).answers = s.answers := by simp [liveTick]
@[simp] theorem liveTick_sched (s : State) : (liveTick s).sched = s.sched := by simp [liveTick]
@[simp] theorem liveTick_params (s : State) : (liveTick s).params = s.params := by simp [liveTick]
@[simp] theorem liveTick_inputs (s : State) : (liveTick s).inputs = s.inputs := by simp [liveTick]
@[simp] theorem liveTick_readLog (s : State) : (liveTick s).readLog = s.readLog := by simp [liveTick]
@[simp] theorem liveTick_drawIndex (s : State) : (liveTick s).drawIndex = s.drawIndex := by simp [liveTick]

end Sys2Proof.Machine
end

