-- ==== Sys2Proof/Laws/Registers.lean ====
section
/-! SUPPORT. The register map (R22), bytes of multi-byte registers (R63), and the cell-list view of the register
space (log 10). -/

namespace Sys2Proof.Machine

/-! ### The register map -/

theorem offsetOf_regAt (off : Byte) : regAt off = .reserved ∨ offsetOf (regAt off) = off := by
  revert off; decide +kernel

theorem regAt_offsetOf (r : RegByte) (h : r ≠ .reserved) : regAt (offsetOf r) = r := by
  have two : ∀ b : Fin 2, regAt (offsetOf (.count b)) = .count b ∧ regAt (offsetOf (.seed b)) = .seed b := by
    decide +kernel
  have four : ∀ b : Fin 4, regAt (offsetOf (.fixedId b)) = .fixedId b ∧ regAt (offsetOf (.idChan b)) = .idChan b ∧
      regAt (offsetOf (.nextPeriod b)) = .nextPeriod b ∧ regAt (offsetOf (.prngState b)) = .prngState b := by
    decide +kernel
  have five : ∀ i : Fin 5, regAt (offsetOf (.addrIn i)) = .addrIn i ∧ regAt (offsetOf (.actAddr i)) = .actAddr i ∧
      regAt (offsetOf (.idAddr i)) = .idAddr i := by decide +kernel
  have buffers : (∀ i : Fin 16, regAt (offsetOf (.serial i)) = .serial i) ∧
      (∀ i : Fin 15, regAt (offsetOf (.payload i)) = .payload i) ∧
      (∀ i : Fin 32, regAt (offsetOf (.frame i)) = .frame i) := by decide +kernel
  have inputs : ∀ (k : Fin 10) (b : Fin 2), regAt (offsetOf (.chIn k b)) = .chIn k b := by decide +kernel
  cases r with
  | count b => exact (two b).1
  | seed b => exact (two b).2
  | fixedId b => exact (four b).1
  | idChan b => exact (four b).2.1
  | nextPeriod b => exact (four b).2.2.1
  | prngState b => exact (four b).2.2.2
  | addrIn i => exact (five i).1
  | actAddr i => exact (five i).2.1
  | idAddr i => exact (five i).2.2
  | serial i => exact buffers.1 i
  | payload i => exact buffers.2.1 i
  | frame i => exact buffers.2.2 i
  | chIn k b => exact inputs k b
  | reserved => exact absurd rfl h
  | _ => rfl

/-- Only reserved offsets share a register byte. -/
theorem regAt_injective {a b : Byte} (h : regAt a = regAt b) (ha : regAt a ≠ .reserved) : a = b := by
  have hb : regAt b ≠ .reserved := h ▸ ha
  rw [← (offsetOf_regAt a).resolve_left ha, ← (offsetOf_regAt b).resolve_left hb, h]

@[simp] theorem regAt_zero : regAt 0#8 = .cmd := rfl

/-- `CMD` is at offset 0x00 and nowhere else. -/
theorem regAt_eq_cmd {off : Byte} : regAt off = .cmd ↔ off = 0#8 := by
  refine ⟨fun h => regAt_injective (h.trans regAt_zero.symm) (by simp [h]), fun h => by simp [h]⟩

/-! ### Bytes of a multi-byte register -/

theorem getElem_getByte {n : Nat} (w : BitVec n) (i j : Nat) (hj : j < 8) :
    (getByte w i)[j] = w.getLsbD (8 * i + j) := by
  simp [getByte]

/-- Bit j of a value whose byte i was replaced. -/
theorem getLsbD_setByte {n : Nat} (w : BitVec n) (i j : Nat) (b : Byte) :
    (setByte w i b).getLsbD j =
      if 8 * i ≤ j ∧ j < 8 * i + 8 then decide (j < n) && b.getLsbD (j - 8 * i) else w.getLsbD j := by
  have hones : ∀ k, (0xFF#8).getLsbD k = decide (k < 8) := by
    intro k
    by_cases hk : k < 8
    · interval_cases k <;> rfl
    · rw [BitVec.getLsbD_of_ge _ _ (by omega)]; simp [hk]
  by_cases hj : j < n
  · by_cases h : 8 * i ≤ j ∧ j < 8 * i + 8
    · have h1 : ¬ j < 8 * i := by omega
      have h3 : j - 8 * i < 8 := by omega
      simp [setByte, hj, h, h1, h3, hones]
    · by_cases h1 : j < 8 * i
      · have h0 : ¬ 8 * i ≤ j := by omega
        simp [setByte, hj, h1, h0]
      · have h0 : 8 * i ≤ j := by omega
        have h3 : ¬ j - 8 * i < 8 := by omega
        have h4 : ¬ j < 8 * i + 8 := by omega
        simp [setByte, hj, h1, h0, h3, h4, hones, BitVec.getLsbD_of_ge b (j - 8 * i) (by omega)]
  · have h1 : (setByte w i b).getLsbD j = false := BitVec.getLsbD_of_ge _ _ (by omega)
    have h2 : w.getLsbD j = false := BitVec.getLsbD_of_ge _ _ (by omega)
    simp [h1, h2, hj]

theorem getByte_setByte_same {n : Nat} (w : BitVec n) (i : Nat) (b : Byte) (hi : 8 * i + 8 ≤ n) :
    getByte (setByte w i b) i = b := by
  ext j hj
  rw [getElem_getByte _ _ _ hj, getLsbD_setByte]
  have h1 : 8 * i + j < n := by omega
  have h2 : 8 * i + j < 8 * i + 8 := by omega
  simp [h1, h2, BitVec.getLsbD_eq_getElem hj]

theorem getByte_setByte_other {n : Nat} (w : BitVec n) (i k : Nat) (b : Byte) (hik : k ≠ i) :
    getByte (setByte w i b) k = getByte w k := by
  ext j hj
  rw [getElem_getByte _ _ _ hj, getElem_getByte _ _ _ hj, getLsbD_setByte, if_neg (by omega)]

/-! ### The cell-list view -/

theorem memory_eq (s : State) : memory s = (List.range 256).filterMap fun a =>
    if memRead s (BitVec.ofNat 8 a) = unlistedByte then none else some (a, memRead s (BitVec.ofNat 8 a)) := rfl

/-- A list of cells over rising addresses, none of them holding the unlisted byte, is canonical. -/
theorem Memory.wf_of_sorted (l : List Host.Cell) (hsorted : (l.map Prod.fst).Pairwise (· < ·))
    (hcell : ∀ c ∈ l, c.1 < 256 ∧ c.2 ≠ unlistedByte) : Memory.wf l = true := by
  induction l with
  | nil => rfl
  | cons c rest ih =>
    obtain ⟨a, v⟩ := c
    have hc := hcell (a, v) (by simp)
    cases rest with
    | nil => simpa [Memory.wf] using hc
    | cons d rest =>
      obtain ⟨b, w⟩ := d
      have hlt : a < b := by
        have := List.pairwise_cons.1 hsorted
        exact this.1 b (by simp)
      have htail := ih (List.pairwise_cons.1 hsorted).2 fun c hmem => hcell c (by simp [hmem])
      simp [Memory.wf, hlt, htail, hc.2]

/-- The cells of a register space stand in rising order of address. -/
theorem memory_sorted (s : State) : ((memory s).map Prod.fst).Pairwise (· < ·) := by
  rw [memory_eq, List.map_filterMap]
  refine (List.pairwise_lt_range (n := 256)).sublist ?_
  rw [show (fun a : Nat => Option.map Prod.fst (if memRead s (BitVec.ofNat 8 a) = unlistedByte then none
      else some (a, memRead s (BitVec.ofNat 8 a)))) =
    Option.guard (fun a : Nat => decide (memRead s (BitVec.ofNat 8 a) ≠ unlistedByte)) from by
      funext a
      by_cases h : memRead s (BitVec.ofNat 8 a) = unlistedByte <;> simp [Option.guard, h]]
  rw [List.filterMap_eq_filter]
  exact List.filter_sublist

/-- The cells of a register space: the offsets that do not read as the unlisted byte, with what they read as. -/
theorem mem_memory {s : State} {a : Nat} {v : Byte} :
    (a, v) ∈ memory s ↔ a < 256 ∧ memRead s (BitVec.ofNat 8 a) = v ∧ v ≠ unlistedByte := by
  rw [memory_eq, List.mem_filterMap]
  constructor
  · rintro ⟨b, hb, h⟩
    split at h
    · simp at h
    · rename_i hz
      obtain ⟨rfl, rfl⟩ := Prod.mk.inj (Option.some.inj h)
      exact ⟨by simpa using hb, rfl, hz⟩
  · rintro ⟨ha, rfl, hv⟩
    exact ⟨a, by simpa using ha, if_neg hv⟩

/-- Every state's register space is in canonical form, so every operation keeps it. -/
theorem memory_wf (s : State) : Memory.wf (memory s) = true :=
  Memory.wf_of_sorted _ (memory_sorted s) fun _ hc => ⟨(mem_memory.1 hc).1, (mem_memory.1 hc).2.2⟩

/-- The byte a list of cells holds at an address that one cell names, the addresses being distinct. -/
theorem cellByte_of_mem (l : List Host.Cell) (hsorted : (l.map Prod.fst).Pairwise (· < ·)) {a : Nat} {v : Byte}
    (h : (a, v) ∈ l) : cellByte a l = v := by
  induction l with
  | nil => simp at h
  | cons c rest ih =>
    obtain ⟨b, w⟩ := c
    rcases List.mem_cons.1 h with heq | hmem
    · obtain ⟨rfl, rfl⟩ := Prod.mk.inj heq
      simp [cellByte]
    · have hlt := (List.pairwise_cons.1 hsorted).1 a (List.mem_map.2 ⟨(a, v), hmem, rfl⟩)
      have hne : b ≠ a := by simp only at hlt; omega
      simp [cellByte, hne, ih (List.pairwise_cons.1 hsorted).2 hmem]

theorem cellByte_of_not_mem (l : List Host.Cell) {a : Nat} (h : ∀ v, (a, v) ∉ l) : cellByte a l = unlistedByte := by
  induction l with
  | nil => rfl
  | cons c rest ih =>
    obtain ⟨b, w⟩ := c
    have hne : b ≠ a := by rintro rfl; exact h w (by simp)
    simp [cellByte, hne, ih fun v hv => h v (by simp [hv])]

/-- The cell-list view reads as the register space does. -/
theorem cellByte_memory (s : State) (off : Byte) : cellByte off.toNat (memory s) = memRead s off := by
  by_cases hz : memRead s off = unlistedByte
  · rw [hz]
    exact cellByte_of_not_mem _ fun v hv => by
      obtain ⟨-, rfl, hne⟩ := mem_memory.1 hv
      exact hne (by simpa using hz)
  · exact cellByte_of_mem _ (memory_sorted s) (mem_memory.2 ⟨off.isLt, by simp, hz⟩)

end Sys2Proof.Machine
end

