-- ==== Sys2Proof/Laws/Ops.lean ====
section
/-! SUPPORT. What each shared operation can do, said once: the applied power, the end of a tick, a register write, a
command, an input. -/

namespace Sys2Proof.Machine

/-! ### Register writes -/

@[simp] theorem writeReg_result (r : RegByte) (v : Byte) (s : State) : (writeReg r v s).result = s.result := by cases r <;> rfl
@[simp] theorem writeReg_pwrApplied (r : RegByte) (v : Byte) (s : State) : (writeReg r v s).pwrApplied = s.pwrApplied := by cases r <;> rfl
@[simp] theorem writeReg_phase (r : RegByte) (v : Byte) (s : State) : (writeReg r v s).phase = s.phase := by cases r <;> rfl
@[simp] theorem writeReg_cursor (r : RegByte) (v : Byte) (s : State) : (writeReg r v s).cursor = s.cursor := by cases r <;> rfl
@[simp] theorem writeReg_count (r : RegByte) (v : Byte) (s : State) : (writeReg r v s).count = s.count := by cases r <;> rfl
@[simp] theorem writeReg_pid (r : RegByte) (v : Byte) (s : State) : (writeReg r v s).pid = s.pid := by cases r <;> rfl
@[simp] theorem writeReg_flen (r : RegByte) (v : Byte) (s : State) : (writeReg r v s).flen = s.flen := by cases r <;> rfl
@[simp] theorem writeReg_seed (r : RegByte) (v : Byte) (s : State) : (writeReg r v s).seed = s.seed := by cases r <;> rfl
@[simp] theorem writeReg_actAddr (r : RegByte) (v : Byte) (s : State) : (writeReg r v s).actAddr = s.actAddr := by cases r <;> rfl
@[simp] theorem writeReg_idAddr (r : RegByte) (v : Byte) (s : State) : (writeReg r v s).idAddr = s.idAddr := by cases r <;> rfl
@[simp] theorem writeReg_idChan (r : RegByte) (v : Byte) (s : State) : (writeReg r v s).idChan = s.idChan := by cases r <;> rfl
@[simp] theorem writeReg_nextPeriod (r : RegByte) (v : Byte) (s : State) : (writeReg r v s).nextPeriod = s.nextPeriod := by cases r <;> rfl
@[simp] theorem writeReg_frame (r : RegByte) (v : Byte) (s : State) : (writeReg r v s).frame = s.frame := by cases r <;> rfl
@[simp] theorem writeReg_prngState (r : RegByte) (v : Byte) (s : State) : (writeReg r v s).prngState = s.prngState := by cases r <;> rfl
@[simp] theorem writeReg_events (r : RegByte) (v : Byte) (s : State) : (writeReg r v s).events = s.events := by cases r <;> rfl
@[simp] theorem writeReg_answers (r : RegByte) (v : Byte) (s : State) : (writeReg r v s).answers = s.answers := by cases r <;> rfl
@[simp] theorem writeReg_sched (r : RegByte) (v : Byte) (s : State) : (writeReg r v s).sched = s.sched := by cases r <;> rfl
@[simp] theorem writeReg_params (r : RegByte) (v : Byte) (s : State) : (writeReg r v s).params = s.params := by cases r <;> rfl
@[simp] theorem writeReg_inputs (r : RegByte) (v : Byte) (s : State) : (writeReg r v s).inputs = s.inputs := by cases r <;> rfl
@[simp] theorem writeReg_readLog (r : RegByte) (v : Byte) (s : State) : (writeReg r v s).readLog = s.readLog := by cases r <;> rfl
@[simp] theorem writeReg_drawIndex (r : RegByte) (v : Byte) (s : State) : (writeReg r v s).drawIndex = s.drawIndex := by cases r <;> rfl

@[simp] theorem memWrite_result (off v : Byte) (s : State) : (memWrite off v s).result = s.result := writeReg_result ..
@[simp] theorem memWrite_pwrApplied (off v : Byte) (s : State) : (memWrite off v s).pwrApplied = s.pwrApplied := writeReg_pwrApplied ..
@[simp] theorem memWrite_phase (off v : Byte) (s : State) : (memWrite off v s).phase = s.phase := writeReg_phase ..
@[simp] theorem memWrite_cursor (off v : Byte) (s : State) : (memWrite off v s).cursor = s.cursor := writeReg_cursor ..
@[simp] theorem memWrite_count (off v : Byte) (s : State) : (memWrite off v s).count = s.count := writeReg_count ..
@[simp] theorem memWrite_pid (off v : Byte) (s : State) : (memWrite off v s).pid = s.pid := writeReg_pid ..
@[simp] theorem memWrite_flen (off v : Byte) (s : State) : (memWrite off v s).flen = s.flen := writeReg_flen ..
@[simp] theorem memWrite_seed (off v : Byte) (s : State) : (memWrite off v s).seed = s.seed := writeReg_seed ..
@[simp] theorem memWrite_actAddr (off v : Byte) (s : State) : (memWrite off v s).actAddr = s.actAddr := writeReg_actAddr ..
@[simp] theorem memWrite_idAddr (off v : Byte) (s : State) : (memWrite off v s).idAddr = s.idAddr := writeReg_idAddr ..
@[simp] theorem memWrite_idChan (off v : Byte) (s : State) : (memWrite off v s).idChan = s.idChan := writeReg_idChan ..
@[simp] theorem memWrite_nextPeriod (off v : Byte) (s : State) : (memWrite off v s).nextPeriod = s.nextPeriod := writeReg_nextPeriod ..
@[simp] theorem memWrite_frame (off v : Byte) (s : State) : (memWrite off v s).frame = s.frame := writeReg_frame ..
@[simp] theorem memWrite_prngState (off v : Byte) (s : State) : (memWrite off v s).prngState = s.prngState := writeReg_prngState ..
@[simp] theorem memWrite_events (off v : Byte) (s : State) : (memWrite off v s).events = s.events := writeReg_events ..
@[simp] theorem memWrite_answers (off v : Byte) (s : State) : (memWrite off v s).answers = s.answers := writeReg_answers ..
@[simp] theorem memWrite_sched (off v : Byte) (s : State) : (memWrite off v s).sched = s.sched := writeReg_sched ..
@[simp] theorem memWrite_params (off v : Byte) (s : State) : (memWrite off v s).params = s.params := writeReg_params ..
@[simp] theorem memWrite_inputs (off v : Byte) (s : State) : (memWrite off v s).inputs = s.inputs := writeReg_inputs ..
@[simp] theorem memWrite_readLog (off v : Byte) (s : State) : (memWrite off v s).readLog = s.readLog := writeReg_readLog ..
@[simp] theorem memWrite_drawIndex (off v : Byte) (s : State) : (memWrite off v s).drawIndex = s.drawIndex := writeReg_drawIndex ..

/-! ### The applied power -/

/-- The level applied is the smaller of request and ceiling (R130). -/
theorem clampedPower_eq (s : State) : clampedPower s = appliedLevel s := by
  apply BitVec.eq_of_toNat_eq
  have h1 := s.pwrReq.isLt
  have h2 := s.params.pwrCeil.isLt
  unfold clampedPower appliedLevel
  split
  · rename_i h
    rw [BitVec.le_def] at h
    rw [BitVec.toNat_ofNat, Nat.min_eq_left h, Nat.mod_eq_of_lt h1]
  · rename_i h
    rw [BitVec.le_def] at h
    rw [BitVec.toNat_ofNat, Nat.min_eq_right (by omega), Nat.mod_eq_of_lt h2]

/-- No level above the ceiling is ever applied (R130). -/
theorem appliedLevel_le (s : State) : appliedLevel s ≤ s.params.pwrCeil := by
  have h := s.params.pwrCeil.isLt
  rw [BitVec.le_def, appliedLevel, BitVec.toNat_ofNat, Nat.mod_eq_of_lt (by omega)]
  omega

/-- The power check leaves the clamped request applied (R131). -/
@[simp] theorem powerCheck_pwrApplied (s : State) : (powerCheck s).pwrApplied = appliedLevel s := by
  rw [powerCheck, clampedPower_eq]
  split
  · rename_i h; exact h.symm
  · rfl

/-- The power check emits `SET_POWER` only when it changes the level (R131). -/
@[simp] theorem powerCheck_events (s : State) : (powerCheck s).events = s.events ++ powerEvents s := by
  rw [powerCheck, clampedPower_eq, powerEvents]
  split
  · rw [List.append_nil]
  · rfl

@[simp] theorem finishTick_pwrApplied (s : State) : (finishTick s).pwrApplied = appliedLevel s :=
  powerCheck_pwrApplied s

@[simp] theorem finishTick_nextPeriod (s : State) : (finishTick s).nextPeriod = s.params.periodUs := by
  simp [finishTick]

@[simp] theorem finishTick_sched (s : State) : (finishTick s).sched = .armed s.params.periodUs := by
  simp [finishTick]

/-- The end of a tick: the SET_POWER of the power check, if any, then TICK_DONE (R121). -/
@[simp] theorem finishTick_events (s : State) :
    (finishTick s).events = s.events ++ powerEvents s ++ [.tickDone s.params.periodUs] := by
  simp [finishTick]

theorem appliedLevel_congr {a b : State} (hreq : a.pwrReq = b.pwrReq) (hpar : a.params = b.params) :
    appliedLevel a = appliedLevel b := by
  simp only [appliedLevel, hreq, hpar]

theorem powerEvents_congr {a b : State} (hreq : a.pwrReq = b.pwrReq) (hpar : a.params = b.params)
    (happ : a.pwrApplied = b.pwrApplied) : powerEvents a = powerEvents b := by
  simp only [powerEvents, appliedLevel_congr hreq hpar, happ]

/-- The clamped request depends on the request and the ceiling alone (R130). -/
theorem clampedPower_congr {a b : State} (hreq : a.pwrReq = b.pwrReq) (hpar : a.params = b.params) :
    clampedPower a = clampedPower b := by
  simp only [clampedPower, hreq, hpar]

/-- Every bind tick but the last: the transmission and one off the count (R122). -/
theorem bindTick_more {s : State} (h : s.count ≠ 1) :
    bindTick s = countDown (transmit s.params.bindCh (bindPayload s) s) := by
  have hc : ¬ s.count - 1 = 0 := fun h0 => h (by bv_omega)
  exact if_neg hc

/-- The last bind tick also completes the bind (R122, R124). -/
theorem bindTick_last {s : State} (h : s.count = 1) :
    bindTick s = bindComplete (countDown (transmit s.params.bindCh (bindPayload s) s)) := by
  have hc : s.count - 1 = 0 := by rw [h]; rfl
  exact if_pos hc

/-! ### STATUS bits and control inputs -/

/-- Setting one STATUS bit leaves every other as it is (R25). -/
theorem getLsbD_setStatusBit (b c : StatusBit) (st : BitVec 5) :
    (setStatusBit b st).getLsbD (statusIndex c) = (st.getLsbD (statusIndex c) || decide (b = c)) := by
  revert st; cases b <;> cases c <;> decide +kernel

/-- Clearing one STATUS bit leaves every other as it is (R118). -/
theorem getLsbD_clearStatusBit (b c : StatusBit) (st : BitVec 5) :
    (clearStatusBit b st).getLsbD (statusIndex c) = (st.getLsbD (statusIndex c) && !decide (b = c)) := by
  revert st; cases b <;> cases c <;> decide +kernel

/-- A STATUS bit after a host write of v: it stays set where v's bit is 0 (R23). -/
theorem getLsbD_writeOneToClear (v : Byte) (b : StatusBit) (st : BitVec 5) :
    (writeOneToClear v st).getLsbD (statusIndex b) = (st.getLsbD (statusIndex b) && !v.getLsbD (statusIndex b)) := by
  cases b <;> simp [writeOneToClear, statusIndex]

/-- `CH_IN[k]` counts from 1 (R49). -/
theorem controlInput_succ (s : State) (k : Nat) (h : k < 10) : controlInput s (k + 1) = s.chIn[k] := by
  simp [controlInput, h]

/-! ### Commands and inputs -/

theorem exec_tick_idle {s : State} (h : s.phase = .idle) : exec .tick s = .next (raise .tickIgn s) := by
  simp only [exec, execTick, h]

theorem exec_tick_binding {s : State} (h : s.phase = .binding) :
    exec .tick s = .next (finishTick (bindTick s)) := by
  simp only [exec, execTick, h]

theorem exec_tick_live {s : State} (h : s.phase = .live) : exec .tick s = .next (finishTick (liveTick s)) := by
  simp only [exec, execTick, h]

/-- What a command can do, by command and phase. -/
theorem exec_cases {i : Instr} {s t : State} (h : exec i s = .next t) :
    (i = .nop ∧ t = s) ∨
    ((i = .init ∨ i = .rebind) ∧ t = startSession s) ∨
    (i = .deinit ∧ t = stopSession (drawnAnswer s) s) ∨
    (i = .derive ∧ s.phase = .idle ∧ t = identityDerive s) ∨
    (i = .setaddr ∧ s.phase = .idle ∧ t = setActiveAddress s.addrIn s) ∨
    (i = .encode ∧ s.phase = .idle ∧ s.plen.toNat ≤ 15 ∧ t = encodeFrame (hostPayload s) s) ∨
    (i = .encode ∧ s.phase = .idle ∧ 15 < s.plen.toNat ∧ t = raise .lenErr s) ∨
    ((i = .derive ∨ i = .setaddr ∨ i = .encode) ∧ s.phase ≠ .idle ∧ t = raise .busyErr s) ∨
    (i = .tick ∧ s.phase = .idle ∧ t = raise .tickIgn s) ∨
    (i = .tick ∧ s.phase = .binding ∧ t = finishTick (bindTick s)) ∨
    (i = .tick ∧ s.phase = .live ∧ t = finishTick (liveTick s)) := by
  cases i with
  | nop => cases h; simp
  | init => cases h; simp
  | rebind => cases h; simp
  | deinit => cases h; simp
  | derive =>
    simp only [exec, execDerive, Host.Outcome.next.injEq] at h
    split at h <;> simp_all
  | setaddr =>
    simp only [exec, execSetaddr, Host.Outcome.next.injEq] at h
    split at h <;> simp_all
  | encode =>
    simp only [exec, execEncode, Host.Outcome.next.injEq, lMax] at h
    by_cases hp : s.phase = .idle
    · by_cases hl : 15 < s.plen.toNat
      · simp_all
      · simp_all
    · simp_all
  | tick =>
    simp only [exec, execTick, Host.Outcome.next.injEq] at h
    cases hp : s.phase <;> simp_all

/-- Issuing a defined code runs its command (R24). -/
@[simp] theorem issue_code (i : Instr) (s : State) : issue i.code s = exec i s := by
  cases i <;> rfl

/-- A code is a command's or one of the undefined ones (R83). -/
theorem code_cases (code : Byte) : (∃ i : Instr, code = i.code) ∨ code ∉ definedCodes := by
  have h : ∀ c : Byte, c ∉ definedCodes ∨ c = Instr.nop.code ∨ c = Instr.init.code ∨ c = Instr.rebind.code ∨
      c = Instr.deinit.code ∨ c = Instr.derive.code ∨ c = Instr.setaddr.code ∨ c = Instr.encode.code ∨
      c = Instr.tick.code := by decide +kernel
  rcases h code with h | h | h | h | h | h | h | h | h
  · exact .inr h
  all_goals exact .inl ⟨_, h⟩

/-- An undefined code decodes to nothing. -/
theorem decode_undefined {code : Byte} (h : code ∉ definedCodes) : decode [code] = .error (.undefinedCode code) := by
  revert code; decide +kernel

/-- Issuing an undefined code raises `ILL_CMD` (R152). -/
theorem issue_undefined {code : Byte} (h : code ∉ definedCodes) (s : State) :
    issue code s = .next (raise .illCmd s) := by
  rw [issue, decode_undefined h]

/-- A host write to any offset but `CMD`'s is a register write. -/
theorem hostWrite_register {off : Byte} (h : off ≠ 0#8) (v : Byte) (s : State) :
    hostWrite off v s = .next (memWrite off v s) := by
  have hr : regAt off ≠ .cmd := fun hc => h (regAt_eq_cmd.1 hc)
  unfold hostWrite memWrite
  split
  · rename_i hc; exact absurd hc hr
  · rfl

@[simp] theorem hostWrite_cmd (code : Byte) (s : State) : hostWrite 0#8 code s = issue code s := rfl

/-- What an input can do: a read, a register write, a command (by the host, or TICK by the scheduler), an undefined
code, a reset. -/
theorem serve_cases {x : Input} {s t : State} (h : serve x s = .next t) :
    (∃ off, x = .hostRead off ∧ t = hostRead off s) ∨
    (∃ off v, x = .hostWrite off v ∧ off ≠ 0#8 ∧ t = memWrite off v s) ∨
    (∃ i, x = .hostWrite 0#8 i.code ∧ exec i s = .next t) ∨
    (x = .schedTick ∧ exec .tick (noteTickIssued s) = .next t) ∨
    (∃ code, x = .hostWrite 0#8 code ∧ code ∉ definedCodes ∧ t = raise .illCmd s) ∨
    (x = .reset ∧ t = assertReset s) := by
  cases x with
  | hostRead off => cases h; simp
  | hostWrite off v =>
    by_cases h0 : off = 0#8
    · subst h0
      rcases code_cases v with ⟨i, rfl⟩ | hu
      · exact .inr (.inr (.inl ⟨i, rfl, by simpa [serve] using h⟩))
      · rw [serve, hostWrite_cmd, issue_undefined hu] at h
        cases h
        exact .inr (.inr (.inr (.inr (.inl ⟨v, rfl, hu, rfl⟩))))
    · rw [serve, hostWrite_register h0] at h
      cases h
      exact .inr (.inl ⟨off, v, rfl, h0, rfl⟩)
  | schedTick => exact .inr (.inr (.inr (.inl ⟨rfl, by simpa [serve, schedTick] using h⟩)))
  | reset => cases h; simp

/-- A step serves the head of the inputs, or changes nothing (log 3). -/
theorem step_cases {s t : State} (h : step s = .next t) :
    (s.inputs = [] ∧ t = s) ∨ ∃ x rest, s.inputs = x :: rest ∧ serve x (withInputs rest s) = .next t := by
  rw [step, serveNext] at h
  split at h
  · rename_i hnil
    cases h
    exact .inl ⟨hnil, rfl⟩
  · rename_i x rest hcons
    exact .inr ⟨x, rest, hcons, h⟩

end Sys2Proof.Machine
end

