-- ==== Sys2Proof/Laws/Params.lean ====
section
/-! SUPPORT. `legalise` answers exactly the parameter sets that meet R8's constraints (log 1). -/

namespace Sys2Proof

theorem AxisParams.legalise_wf (a : AxisParams) : a.legalise.wf = true := by
  have hin : a.legalise.inMin.toInt < a.legalise.inMax.toInt := by
    unfold AxisParams.legalise
    by_cases h : a.inMin.slt a.inMax = true
    · simpa only [if_pos h] using BitVec.slt_iff_toInt_lt.1 h
    · simp only [if_neg h]; decide
  have hout : a.legalise.outLo.toNat ≤ a.legalise.outHi.toNat := by
    unfold AxisParams.legalise
    by_cases h : a.outLo ≤ a.outHi
    · simpa only [if_pos h] using BitVec.le_def.1 h
    · simp only [if_neg h]; rw [BitVec.le_def] at h; omega
  simp [AxisParams.wf, AxisParams.inputOk, AxisParams.outputOk, hin, hout]

theorem AxisParams.legalise_of_wf (a : AxisParams) (h : a.wf = true) : a.legalise = a := by
  simp only [AxisParams.wf, AxisParams.inputOk, AxisParams.outputOk, Bool.and_eq_true, decide_eq_true_eq] at h
  have hin : a.inMin.slt a.inMax = true := BitVec.slt_iff_toInt_lt.2 h.1
  have hout : a.outLo ≤ a.outHi := BitVec.le_def.2 h.2
  simp only [AxisParams.legalise, if_pos hin, if_pos hout]

theorem one_le_of_ne_zero {n : Nat} {v : BitVec n} (h : v ≠ 0#n) : 1 ≤ v.toNat := by
  have : v.toNat ≠ 0 := fun h0 => h (BitVec.eq_of_toNat_eq (by simp [h0]))
  omega

/-- Whatever set the machine was built with, the set `State.reset` carries meets R8's constraints. -/
theorem Params.legalise_wf (p : Params) : p.legalise.wf = true := by
  have hcount : 1 ≤ p.legalise.bindCount.toNat := by
    by_cases h : p.bindCount = 0#16
    · simp [Params.legalise, h]
    · exact (one_le_of_ne_zero h).trans_eq (congrArg BitVec.toNat (if_neg h).symm)
  have hperiod : 1 ≤ p.legalise.periodUs.toNat := by
    by_cases h : p.periodUs = 0#32
    · simp [Params.legalise, h]
    · exact (one_le_of_ne_zero h).trans_eq (congrArg BitVec.toNat (if_neg h).symm)
  have hbase := p.chBase.isLt
  have hslots : 1 ≤ p.legalise.chSlots ∧ p.legalise.chSlots ≤ 256 := by
    simp only [Params.legalise]; omega
  have hfit : p.legalise.chBase.toNat + p.legalise.chSlots - 1 ≤ 255 := by
    simp only [Params.legalise]; omega
  have hA : p.legalise.axisA.wf = true := AxisParams.legalise_wf _
  have hB : p.legalise.axisB.wf = true := AxisParams.legalise_wf _
  have hC : p.legalise.axisC.wf = true := AxisParams.legalise_wf _
  have hD : p.legalise.axisD.wf = true := AxisParams.legalise_wf _
  simp only [Params.wf, Params.bindCountOk, Params.periodOk, Params.slotsOk, Params.channelsFit, hcount, hperiod,
    hslots, hfit, hA, hB, hC, hD, and_self, decide_true, Bool.and_self]

/-- A legal set is left as it is, so no legal set is preferred. -/
theorem Params.legalise_of_wf (p : Params) (h : p.wf = true) : p.legalise = p := by
  simp only [Params.wf, Params.bindCountOk, Params.periodOk, Params.slotsOk, Params.channelsFit, Bool.and_eq_true,
    decide_eq_true_eq] at h
  obtain ⟨⟨⟨⟨⟨⟨⟨hcount, hperiod⟩, hslots⟩, hfit⟩, hA⟩, hB⟩, hC⟩, hD⟩ := h
  have h1 : p.bindCount ≠ 0 := fun h => by rw [h] at hcount; exact absurd hcount (by decide)
  have h2 : p.periodUs ≠ 0 := fun h => by rw [h] at hperiod; exact absurd hperiod (by decide)
  have h3 : max 1 (min p.chSlots (256 - p.chBase.toNat)) = p.chSlots := by omega
  simp only [Params.legalise, if_neg h1, if_neg h2, h3, AxisParams.legalise_of_wf _ hA,
    AxisParams.legalise_of_wf _ hB, AxisParams.legalise_of_wf _ hC, AxisParams.legalise_of_wf _ hD]

/-- The parameter set the machine starts with meets R8's constraints. -/
theorem Config.params_wf : Config.params.wf = true := Params.legalise_wf _

end Sys2Proof
end

