-- ==== Sys2Proof/Laws/PerInstr.lean ====
section
/-! SUPPORT. Facts stated for all commands, one lemma each: a command is one byte, well formed, and its group is bits
7:4 of its code (R79, R80). -/

namespace Sys2Proof.Laws.OneByte

/-- The command is well formed, one byte long, and its code belongs to a group of R80. -/
def Statement (i : Instr) : Prop :=
  i.wellFormed = true ∧ (encode i).length = 1 ∧ (groupOf i.code).isSome = true

theorem nop : Statement .nop := ⟨rfl, rfl, rfl⟩
theorem init : Statement .init := ⟨rfl, rfl, rfl⟩
theorem rebind : Statement .rebind := ⟨rfl, rfl, rfl⟩
theorem deinit : Statement .deinit := ⟨rfl, rfl, rfl⟩
theorem derive : Statement .derive := ⟨rfl, rfl, rfl⟩
theorem setaddr : Statement .setaddr := ⟨rfl, rfl, rfl⟩
theorem encode : Statement .encode := ⟨rfl, rfl, rfl⟩
theorem tick : Statement .tick := ⟨rfl, rfl, rfl⟩

end Sys2Proof.Laws.OneByte
end

