-- ==== Sys2Proof/Tests/Slice0.lean ====
section
/-! SUPPORT. Tests: expected values are those of spec/95_test_vectors.md and of the examples in the rules, and the
witnesses that the hypotheses of the statements can be met. -/

namespace Sys2Proof.Tests

set_option Elab.async false

open Sys2Proof.Machine

/-! ### The test-only parameters and small states -/

def tpAxis : AxisParams := { inMin := 0xFC18, inMax := 0x03E8, outLo := 0, outHi := 200 }

def tqAxis : AxisParams := { inMin := 0xFE0C, inMax := 0x05DC, outLo := 10, outHi := 250 }

/-- `SCR_T`. -/
def scrT : Vector Byte 15 :=
  #v[0x00, 0x11, 0x22, 0x33, 0x44, 0x55, 0x66, 0x77, 0x88, 0x99, 0xAA, 0xBB, 0xCC, 0xDD, 0xEE]

/-- The set `TP` of 95_test_vectors.md section 2. -/
def tp : Params :=
  { scr := .replicate 15 0, bindAddr := #v[0xC1, 0xC2, 0xC3, 0xC4, 0xC5], bindCh := 0x20, bindCount := 2,
    bindMarker := 0xAA, periodUs := 5000, initWaitUs := 10000, prngSeed := 0x01234567, prngMul := 0x0019660D,
    prngAdd := 0x3C6EF35F, zeroFolds := 4, chBase := 0x02, chSlots := 70, pwrCeil := 5, axisA := tpAxis,
    axisB := tpAxis, axisC := tpAxis, axisD := tpAxis, rateByte := 0x50, dfeBase := 0 }

/-- Reset under `TP`. -/
def idle : State := { State.reset with params := tp }

/-- Idle with the serial of the source's scenario and a power request of 7. -/
def ready : State :=
  { idle with
    serial := #v[1, 2, 3, 4, 5, 6, 7, 8, 9, 10, 11, 12, 0, 0, 0, 0]
    serialLen := 12
    pwrReq := 7 }

/-- Binding with a given count, under the identity of V-DER row 1. -/
def binding (count : U16) : State :=
  { ready with
    phase := .binding
    count := count
    idAddr := #v[0xFD, 0x65, 0xB5, 0xE6, 0x38]
    idChan := #v[0x39, 0x25, 0x11, 0x46]
    actAddr := tp.bindAddr
    seed := 0xBE4A
    pwrApplied := 5
    nextPeriod := 10000
    sched := .armed 10000
    events := [.radioInit, .setPower 5, .bindState 10, .schedStart 10000] }

/-- Live with the cursor at a given place. -/
def live (cursor : BitVec 2) : State :=
  { binding 0 with phase := .live, cursor := cursor, actAddr := #v[0xFD, 0x65, 0xB5, 0xE6, 0x38], seed := 0x63DE }

/-- A state with inputs on the bus. -/
def onBus (xs : List Input) (s : State) : State := { s with inputs := xs }

/-- The state an outcome goes on with, or a given one. -/
def nextOr (d : State) : Host.Outcome State Fault Refusal → State
  | .next t => t
  | .fault _ => d
  | .refused _ => d

/-- What a command leaves. -/
def after (i : Instr) (s : State) : State := nextOr s (exec i s)

/-- What an input leaves. -/
def served (x : Input) (s : State) : State := nextOr s (serve x s)

/-- The codec context of table V-ENC. -/
def encContext (scr : Vector Byte 15) (crcOn : Bool) (packetId : BitVec 2) : CodecContext :=
  { guardByte := 0xC1, seed := 0xBE4A, crcOn := crcOn, packetId := packetId, scr := scr }

/-! ### Decoding: every code of R81 written out, and illegal ones -/

theorem test_decode_nop : decodeTableWord 8 0b00000000 = some .nop := by decide +kernel
theorem test_decode_init : decodeTableWord 8 0b00000001 = some .init := by decide +kernel
theorem test_decode_rebind : decodeTableWord 8 0b00000010 = some .rebind := by decide +kernel
theorem test_decode_deinit : decodeTableWord 8 0b00000011 = some .deinit := by decide +kernel
theorem test_decode_derive : decodeTableWord 8 0b00010000 = some .derive := by decide +kernel
theorem test_decode_setaddr : decodeTableWord 8 0b00010001 = some .setaddr := by decide +kernel
theorem test_decode_encode : decodeTableWord 8 0b00010010 = some .encode := by decide +kernel
theorem test_decode_tick : decodeTableWord 8 0b00100000 = some .tick := by decide +kernel

/-- V-REG's illegal codes, by name. -/
theorem test_decode_illegal :
    [0x04#8, 0x13#8, 0x21#8, 0xFF#8].map (fun c => decode [c]) =
      [.error (.undefinedCode 0x04), .error (.undefinedCode 0x13), .error (.undefinedCode 0x21),
       .error (.undefinedCode 0xFF)] := by decide +kernel

theorem test_decode_nothing : decode [] = .error .noByte := rfl

/-! ### Well-formedness: a parameter set that each check refuses -/

theorem test_wf_tp : tp.wf = true := by decide +kernel
theorem test_wf_bindCount : ({ tp with bindCount := 0 } : Params).wf = false := by decide +kernel
theorem test_wf_period : ({ tp with periodUs := 0 } : Params).wf = false := by decide +kernel
theorem test_wf_noSlots : ({ tp with chSlots := 0 } : Params).wf = false := by decide +kernel
theorem test_wf_slots : ({ tp with chSlots := 257, chBase := 0 } : Params).slotsOk = false := by decide +kernel
theorem test_wf_channels : ({ tp with chSlots := 70, chBase := 187 } : Params).wf = false := by decide +kernel
theorem test_wf_input : ({ tp with axisB := { tpAxis with inMin := 0x03E8 } } : Params).wf = false := by
  decide +kernel
theorem test_wf_output : ({ tp with axisD := { tpAxis with outLo := 201 } } : Params).wf = false := by
  decide +kernel

/-! ### What the commands compute -/

/-- V-CRC, and the published check value over "123456789". -/
theorem test_crc :
    crcUpdate 0xFFFF 0x00 8 = 0xE1F0 ∧ crcUpdate 0x1234 0x56 8 = 0x3C40 ∧ crcUpdate 0xFFFF 0x80 1 = 0xFFFE ∧
      crcUpdate 0x8000 0x00 1 = 0x1021 ∧ crcUpdate 0x1234 0x7F 1 = 0xDA68 ∧
      crcBytes 0xFFFF [0x31, 0x32, 0x33, 0x34, 0x35, 0x36, 0x37, 0x38, 0x39] = 0x29B1 := by decide +kernel

/-- V-SEED, a row whose two ends differ. -/
theorem test_crcSeed_order :
    crcSeed #v[0x80, 0, 0, 0, 0] = 0x8084 ∧ crcSeed #v[0, 0, 0, 0, 0x80] = 0x33DC := by decide +kernel

/-- V-ENC, rows of every length and both checksum settings. -/
theorem test_frames :
    buildFrame (encContext (.replicate 15 0) true 3) [] = [0xC1, 0xC1, 0x03, 0x8B, 0x28, 0x80] ∧
      buildFrame (encContext scrT false 3) [0xA5] = [0xC1, 0xC1, 0x07, 0xD2, 0x80] ∧
      buildFrame (encContext scrT true 0) [0xA5] = [0xC1, 0xC1, 0x04, 0xD2, 0xF2, 0xDB, 0x80] ∧
      buildFrame (encContext (.replicate 15 0) false 0) [0x01, 0x80] = [0xC1, 0xC1, 0x08, 0x80, 0xC0, 0x00] := by
  decide +kernel

/-- V-UNPACK: unpacking the row "P[i] = i, SCR_T" gives the payload back. -/
theorem test_unpack :
    unpackFrame scrT [0xC1, 0xC1, 0x3C, 0x80, 0x08, 0x10, 0x18, 0x20, 0x28, 0x30, 0x38, 0x40, 0x48, 0x50, 0x58, 0x60,
        0x68, 0x70, 0x0F, 0x64, 0x80] = [0, 1, 2, 3, 4, 5, 6, 7, 8, 9, 10, 11, 12, 13, 14] := by decide +kernel

/-- V-PRNG. -/
theorem test_prng : prngStep tp 0x01234567 0x00 = 0x1FEF839A ∧ prngStep tp 0x00000000 0xFF = 0x3C6EF45E := by
  decide +kernel

/-- V-SCALE: floor division, both polarities, both ends, and the range `TQ`. -/
theorem test_scale :
    scale tp .A 0xFFFF = 101 ∧ scale tp .C 0xFFFF = 99 ∧ scale tp .B 0x8000 = 200 ∧ scale tp .D 0x07D0 = 200 ∧
      scaleWith tqAxis true 0x01F4 = 130 ∧ scaleWith tqAxis false 0x0001 = 70 := by decide +kernel

/-- V-LIVE, its third row. -/
theorem test_livePayload :
    livePayload { idle with
      chIn := #v[0x8000, 0x7FFF, 0x03E8, 0xFC18, 0, 0xFFFF, 0, 0, 0x0005, 0x7FFF] } =
      [0xC8, 0x00, 0xC8, 0x00, 0x50, 0x06, 0, 0, 0, 0, 0, 0, 0, 0, 0] := by decide +kernel

/-- V-BIND. -/
theorem test_bindPayload :
    bindPayload (binding 2) = [0xAA, 0x39, 0x25, 0x11, 0x46, 0xFD, 0x65, 0xB5, 0xE6, 0x38, 0, 0, 0, 0, 0] := by
  decide +kernel

/-- V-PWR: a clamped request that is the level already, a lower one, and a raised one. -/
theorem test_powerCheck :
    (powerCheck { live 0 with pwrReq := 6 }).events = (live 0).events ∧
      (powerCheck { live 0 with pwrReq := 2 }).pwrApplied = 2 ∧
      (powerCheck { live 0 with pwrReq := 6, pwrApplied := 2, events := [] }).events = [.setPower 5] := by
  decide +kernel

/-- V-REG: WARL, reserved bits, read-only, reserved and write-one-to-clear bytes. -/
theorem test_registers :
    memRead (memWrite 0x0D 0x20 idle) 0x0D = 0x10 ∧ memRead (memWrite 0x03 0xFF idle) 0x03 = 0x03 ∧
      memRead (memWrite 0x0B 0xFF idle) 0x0B = 0x3F ∧ memRead (memWrite 0x06 0x02 idle) 0x06 = 0x00 ∧
      memRead (memWrite 0x4F 0x12 idle) 0x4F = 0x00 ∧
      memRead (memWrite 0x01 0x05 { idle with status := 0x1F }) 0x01 = 0x1A := by decide +kernel

/-- Registers at their offsets (R22), in a Live state that tells them apart. -/
theorem test_offsets :
    let s := { live 3 with result := .failed, pid := 2, plen := 9, flen := 21 }
    [0x02#8, 0x05, 0x06, 0x07, 0x0A, 0x0B, 0x0C, 0x0D, 0x19, 0x22, 0x26, 0x3B].map (memRead s) =
      [0xFF, 0x05, 0x02, 0x03, 0x02, 0x09, 0x15, 0x0C, 0xFD, 0x38, 0x46, 0x0C] := by decide +kernel

/-- The bytes of SEED after reset, and of CH_IN[1] after `WR16 CH_IN[1], 500` (70:F4 71:01). -/
theorem test_byteOrder :
    memRead idle 0x0E = 0x0C ∧ memRead idle 0x0F = 0x11 ∧
      (memWrite 0x71 0x01 (memWrite 0x70 0xF4 idle)).chIn[0] = 500 := by decide +kernel

/-! ### One command, one step -/

/-- NOP's example. -/
theorem test_nop : exec .nop (live 1) = .next (live 1) := rfl

/-- INIT's example. -/
theorem test_init_registers :
    let t := after .init ready
    t.phase = .binding ∧ t.count = 2 ∧ t.actAddr.toList = [0xC1, 0xC2, 0xC3, 0xC4, 0xC5] ∧ t.seed = 0xBE4A ∧
      t.pwrApplied = 5 ∧ t.idChan.toList = [0x39, 0x25, 0x11, 0x46] := by decide +kernel

theorem test_init_events :
    (after .init ready).events = [.radioInit, .setPower 5, .bindState 10, .schedStart 10000] ∧
      (after .init ready).sched = .armed 10000 := by decide +kernel

/-- REBIND's example, from Live. -/
theorem test_rebind :
    let t := after .rebind { live 3 with status := 0x10, events := [] }
    t.phase = .binding ∧ t.count = 2 ∧ t.cursor = 0 ∧ t.status = 0 ∧
      t.events = [.radioInit, .setPower 5, .bindState 10, .schedStart 10000] := by decide +kernel

/-- DEINIT's example, whichever answer the driver gives. -/
theorem test_deinit :
    let t := after .deinit { live 3 with events := [] }
    t.phase = .idle ∧ t.nextPeriod = 0 ∧ t.cursor = 3 ∧ t.events = [.schedStop, .radioReset] ∧
      t.sched = .stopped := by decide +kernel

/-- V-DER row 1. -/
theorem test_derive :
    let t := after .derive ready
    t.idAddr.toList = [0xFD, 0x65, 0xB5, 0xE6, 0x38] ∧ t.idChan.toList = [0x39, 0x25, 0x11, 0x46] ∧
      t.prngState = 0xD00F6937 := by decide +kernel

/-- V-DER row 4: serial and fixed identifier. -/
theorem test_derive_fixed :
    let t := after .derive { ready with ctrl := 0b11, fixedId := 0x12345678 }
    t.idAddr.toList = [0x15, 0xBF, 0xF5, 0x79, 0x70] ∧ t.idChan.toList = [0x11, 0x0A, 0x44, 0x40] ∧
      t.prngState = 0xCACEDA0F := by decide +kernel

/-- SETADDR's example, and V-CMD's refusal in Binding. -/
theorem test_setaddr :
    (after .setaddr { idle with addrIn := #v[0xC1, 0xC2, 0xC3, 0xC4, 0xC5] }).seed = 0xBE4A ∧
      (after .setaddr (binding 2)).actAddr = tp.bindAddr ∧ (after .setaddr (binding 2)).status = 0x04 := by
  decide +kernel

/-- V-CMD: ENCODE right after reset. -/
theorem test_encode_reset :
    let t := after .encode idle
    t.frame.toList.take 7 = [0x00, 0x00, 0x00, 0xB9, 0x2E, 0x80, 0x00] ∧ t.flen = 6 ∧ t.pid = 1 := by decide +kernel

/-- V-CMD: the two refusals, BUSY_ERR before LEN_ERR. -/
theorem test_encode_refused :
    (after .encode { idle with plen := 0x10 }).status = 0x02 ∧ (after .encode { idle with plen := 0x10 }).pid = 0 ∧
      (after .encode { binding 2 with plen := 0x14 }).status = 0x04 := by decide +kernel

/-- The last bind tick (R124): the bind frame with the bind address, then Live with the derived address. -/
theorem test_tick_binding_last :
    let t := after .tick { binding 1 with events := [] }
    t.phase = .live ∧ t.count = 0 ∧ t.actAddr.toList = [0xFD, 0x65, 0xB5, 0xE6, 0x38] ∧ t.seed = 0x63DE ∧
      t.status = 0x10 ∧ t.frame.toList.take 2 = [0xC1, 0xC1] ∧ t.flen = 21 ∧
      t.events.drop 2 = [.bindState 0, .tickDone 5000] := by decide +kernel

/-- LiveTick's example (R125), with a lower power request. -/
theorem test_tick_live :
    let t := after .tick { live 3 with pwrReq := 2, events := [] }
    t.cursor = 0 ∧ t.pid = 1 ∧ channelsOf t.events = [0x46] ∧ t.pwrApplied = 2 ∧
      t.events.drop 2 = [.setPower 2, .tickDone 5000] := by decide +kernel

/-- V-REG on the bus: a register write served by `serve`, and one that a read-only register ignores. -/
theorem test_hostWrite :
    (served (.hostWrite 0x03 0xFF) idle).ctrl = 0b11 ∧ (served (.hostWrite 0x06 0x02) idle).phase = .idle := by
  decide +kernel

/-- Reset's example (R170), from a Live session. -/
theorem test_reset :
    let t := served .reset { live 3 with pid := 2 }
    t.phase = .idle ∧ t.pid = 0 ∧ t.seed = 0x110C ∧ t.events = [] ∧ t.sched = .stopped := by decide +kernel

/-- The script lines `WR16 CH_IN[1], 500` and `TICK` on the bus (R84). -/
theorem test_script :
    expandScript [.wr16 0x70 500, .cmd .init, .cmd .tick] =
      [.hostWrite 0x70 0xF4, .hostWrite 0x71 0x01, .hostWrite 0x00 0x01, .schedTick] := by decide +kernel

/-! ### The hypotheses of the statements can be met

One theorem per statement that has hypotheses, each clause at a boundary of its range. -/

/-- Two commands that do not draw, one in Idle and one in a session. -/
theorem witness_DeinitRecordsTheDrawnAnswer :
    (Instr.init ≠ .deinit ∧ exec .init idle = .next (after .init idle)) ∧
      Instr.tick ≠ .deinit ∧ exec .tick (live 0) = .next (after .tick (live 0)) :=
  ⟨⟨by decide, rfl⟩, by decide, rfl⟩

theorem witness_DeriveWritesIdentityInIdle : ready.phase = .idle ∧ (binding 1).phase ≠ .idle ∧ (live 0).phase ≠ .idle := by
  decide +kernel

theorem witness_SetaddrActivatesAddressInIdle : idle.phase = .idle ∧ (binding 1).phase ≠ .idle := by decide +kernel

/-- PLEN 0 and 15 are accepted, 16 and 63 refused. -/
theorem witness_EncodeStoresFrameInIdle :
    (idle.phase = .idle ∧ idle.plen.toNat ≤ 15) ∧
      ({ idle with plen := 15 }.phase = .idle ∧ { idle with plen := 15 }.plen.toNat ≤ 15) ∧ (live 0).phase ≠ .idle ∧
      15 < { idle with plen := 16 }.plen.toNat ∧ 15 < { idle with plen := 63 }.plen.toNat := by decide +kernel

theorem witness_TickInIdleIsIgnored : idle.phase = .idle := by decide +kernel

/-- A first, a last and the longest countdown. -/
theorem witness_TickInBindingTransmitsAndCounts :
    ((binding 1).phase = .binding ∧ 1 ≤ (binding 1).count.toNat) ∧
      ((binding 2).phase = .binding ∧ 1 ≤ (binding 2).count.toNat) ∧
      (binding 65535).phase = .binding ∧ 1 ≤ (binding 65535).count.toNat := by decide +kernel

theorem witness_TickInLiveTransmitsAndHops : (live 0).phase = .live ∧ (live 3).phase = .live := by decide +kernel

/-- The scheduler's every case: armed by INIT, REBIND and a session's TICK, stopped by DEINIT, left alone otherwise. -/
theorem witness_SchedulerFollowsEvents :
    exec .init idle = .next (after .init idle) ∧ exec .rebind (live 0) = .next (after .rebind (live 0)) ∧
      exec .deinit (live 0) = .next (after .deinit (live 0)) ∧ exec .tick (live 0) = .next (after .tick (live 0)) ∧
      exec .tick idle = .next (after .tick idle) ∧ exec .nop (live 0) = .next (after .nop (live 0)) :=
  ⟨rfl, rfl, rfl, rfl, rfl, rfl⟩

theorem witness_ComponentCommandsRefusedInSession :
    ((Instr.encode = .derive ∨ Instr.encode = .setaddr ∨ Instr.encode = .encode) ∧
      { binding 2 with plen := 20 }.phase ≠ .idle) ∧ (live 0).phase ≠ .idle := by decide +kernel

theorem witness_UndefinedCodeOnlySetsIllCmd :
    0x04#8 ∉ definedCodes ∧ 0x0F#8 ∉ definedCodes ∧ 0x13#8 ∉ definedCodes ∧ 0xFF#8 ∉ definedCodes := by decide +kernel

theorem witness_GeneratorStepIsLinear : tp.prngMul = 0x0019660D#32 ∧ tp.prngAdd = 0x3C6EF35F#32 := by decide +kernel

theorem witness_DerivationFoldsThenExtracts : ready.params.wf = true := by decide +kernel

/-- Two states that differ in a serial byte past SERIAL_LEN and in a fixed identifier that is not enabled, and two
that differ in the serial alone with FIXED_EN on. -/
theorem witness_DerivationReadsOnlyItsInputs :
    let s := ready
    let t := { ready with serial := ready.serial.set 12 0xFF, fixedId := 7 }
    let u := { ready with ctrl := 0b11 }
    let v := { u with serial := ready.serial.set 15 1 }
    (s.params = t.params ∧ s.serialLen = t.serialLen ∧
      (∀ i : Fin 16, i.val < s.serialLen.val → s.serial[i] = t.serial[i]) ∧
      s.ctrl.getLsbD 1 = t.ctrl.getLsbD 1 ∧ (s.ctrl.getLsbD 1 = true → s.fixedId = t.fixedId)) ∧
    (u.params = v.params ∧ u.serialLen = v.serialLen ∧
      (∀ i : Fin 16, i.val < u.serialLen.val → u.serial[i] = v.serial[i]) ∧
      u.ctrl.getLsbD 1 = v.ctrl.getLsbD 1 ∧ u.ctrl.getLsbD 1 = true ∧ u.fixedId = v.fixedId) := by decide +kernel

theorem witness_ByteUpdatesEqualBitSerialRegister :
    (0x80#8).extractLsb' 0 7 = 0 ∧ (0x00#8).extractLsb' 0 7 = 0 := by decide +kernel

/-- The shortest and the longest payload, for the four statements about `buildFrame`: FrameChecksumCoversEveryBit,
FrameMatchesByteEquations, FrameLengthLaw and UnpackingRecoversPayload. -/
theorem witness_payload_lengths :
    ([] : List Byte).length ≤ 15 ∧ (livePayload (live 0)).length ≤ 15 ∧ (livePayload (live 0)).length = 15 := by
  decide +kernel

/-- A legal axis; inputs just outside, at and inside both ends of its range. -/
theorem witness_ScaleClampsAndRescales :
    tpAxis.wf = true ∧ (0xFC18#16).toInt ≤ tpAxis.inMin.toInt ∧ (0xFC17#16).toInt ≤ tpAxis.inMin.toInt ∧
      tpAxis.inMax.toInt ≤ (0x03E8#16).toInt ∧ tpAxis.inMax.toInt ≤ (0x7FFF#16).toInt ∧
      tpAxis.inMin.toInt < (0x0000#16).toInt := by decide +kernel

/-- The smallest and a large bind time. -/
theorem witness_ObserverStartValueIsPositive :
    ({ tp with bindCount := 1, periodUs := 1 } : Params).wf = true ∧
      ({ tp with bindCount := 65535, periodUs := 0xFFFFFFFF } : Params).wf = true := by decide +kernel

theorem witness_DecodeAndEncodeAgree : decode [0x20#8] = .ok (.tick, []) := rfl

/-- One input of each kind the statement speaks of. -/
theorem witness_StepRunsDecodedCommand :
    ((onBus [.hostWrite 0x00 0x12] idle).inputs = .hostWrite 0x00#8 0x12#8 :: [] ∧
      decode [0x12#8] = .ok (.encode, []) ∧ Instr.encode.wellFormed = true) ∧
    ((onBus [.hostWrite 0x00 0x13] idle).inputs = .hostWrite 0x00#8 0x13#8 :: [] ∧
      decode [0x13#8] = .error (.undefinedCode 0x13)) ∧
    (onBus [.schedTick] idle).inputs = .schedTick :: [] ∧
    (onBus [.hostRead 0x00] idle).inputs = .hostRead 0x00#8 :: [] := by decide +kernel

theorem witness_PlacedWordRunsNext : decodeTableWord 8 0x20 = some .tick ∧ decodeTableWord 8 0x00 = some .nop := by
  decide +kernel

/-- The first and the last offset but `CMD`'s, and another offset beside each. -/
theorem witness_RegisterWriteFollowsAccessKind :
    ((0x01#8) ≠ 0x00#8 ∧ (0x00#8) ≠ 0x01#8) ∧ (0xFF#8) ≠ 0x00#8 ∧ (0xFE#8) ≠ 0xFF#8 := by decide +kernel

theorem witness_ReadsHaveNoSideEffect : (onBus [.hostRead 0xFF, .reset] (live 1)).inputs = .hostRead 0xFF#8 :: [.reset] :=
  rfl

/-- The reserved offsets at the ends of their ranges. -/
theorem witness_ReadsShowTheRegisters :
    (0x88#8 = 0x2A#8 ∨ 0x88#8 = 0x2B#8 ∨ 0x88#8 = 0x4F#8 ∨ 0x88#8 ≤ 0x88#8) ∧ 0x88#8 ≤ 0xFF#8 ∧
      accessInTable 0x87 = .ro ∧ accessInTable 0x2C = .ro := by decide +kernel

/-- A command that writes, and a register byte outside its row. -/
theorem witness_CommandsWriteOnlyTheirRow :
    exec .init idle = .next (after .init idle) ∧ mayWrite .init .pid = false ∧
      exec .tick (binding 1) = .next (after .tick (binding 1)) ∧ mayWrite .tick (.payload 0) = false :=
  ⟨rfl, rfl, rfl, rfl⟩

theorem witness_ParametersFixedAndEventsOnlyGrow :
    step (onBus [.hostWrite 0x00 0x01] idle) = .next (nextOr idle (step (onBus [.hostWrite 0x00 0x01] idle))) ∧
      (onBus [.hostWrite 0x00 0x01] idle).inputs.head? ≠ some .reset ∧
      idle.inputs.head? ≠ some .reset := ⟨rfl, by decide +kernel, by decide +kernel⟩

/-- Every bit set, in Live. -/
def allSet : State := { live 0 with status := 0x1F }

/-- A set bit cleared by a host write, by reset, and BIND_DONE by INIT. -/
theorem witness_StatusBitsAreSticky :
    (∀ x ∈ [Input.hostWrite 0x01 0x04, .reset, .hostWrite 0x00 0x01], serve x allSet = .next (served x allSet)) ∧
      statusBit .busyErr allSet = true ∧ statusBit .busyErr (served (.hostWrite 0x01 0x04) allSet) = false ∧
      statusBit .busyErr (served .reset allSet) = false ∧
      statusBit .bindDone allSet = true ∧ statusBit .bindDone (served (.hostWrite 0x00 0x01) allSet) = false := by
  refine ⟨?_, by decide +kernel⟩
  intro x hx
  fin_cases hx <;> rfl

/-- Each bit set from clear by its condition. -/
theorem witness_StatusBitsSetByTheirConditions :
    (serve (.hostWrite 0x00 0x04) idle = .next (served (.hostWrite 0x00 0x04) idle) ∧
      serve .schedTick (binding 1) = .next (served .schedTick (binding 1))) ∧
      statusBit .illCmd idle = false ∧ statusBit .illCmd (served (.hostWrite 0x00 0x04) idle) = true ∧
      statusBit .lenErr (served (.hostWrite 0x00 0x12) { idle with plen := 16 }) = true ∧
      statusBit .busyErr (served (.hostWrite 0x00 0x10) (live 0)) = true ∧
      statusBit .tickIgn (served .schedTick idle) = true ∧
      statusBit .bindDone (binding 1) = false ∧ statusBit .bindDone (served .schedTick (binding 1)) = true :=
  ⟨⟨rfl, rfl⟩, by decide +kernel⟩

/-- Countdowns at 1 and 2, and a state with no countdown to speak of. -/
theorem witness_PhaseMovesByTheTable :
    serve .schedTick (binding 1) = .next (served .schedTick (binding 1)) ∧
      ((binding 1).phase = .binding → 1 ≤ (binding 1).count.toNat) ∧
      ((binding 2).phase = .binding → 1 ≤ (binding 2).count.toNat) ∧
      ((live 0).phase = .binding → 1 ≤ (live 0).count.toNat) ∧
      phaseAfter .schedTick (binding 1) = .live ∧ phaseAfter .schedTick (binding 2) = .binding :=
  ⟨rfl, by decide +kernel⟩

/-- An identity changed by DERIVE in Idle and by REBIND in Live. -/
theorem witness_IdentityImmutableInSession :
    serve (.hostWrite 0x00 0x10) ready = .next (served (.hostWrite 0x00 0x10) ready) ∧
      (served (.hostWrite 0x00 0x10) ready).idAddr ≠ ready.idAddr ∧
      (served (.hostWrite 0x00 0x02) { live 0 with serialLen := 0 }).idChan ≠ (live 0).idChan :=
  ⟨rfl, by decide +kernel⟩

theorem witness_PacketIdCountsEncodes :
    Input.schedTick ≠ .reset ∧ serve .schedTick (live 0) = .next (served .schedTick (live 0)) ∧
      serve (.hostRead 0x0A) idle = .next (served (.hostRead 0x0A) idle) := ⟨by decide, rfl, rfl⟩

theorem witness_CursorAdvancesOnlyInLiveTicks :
    exec .tick (live 3) = .next (after .tick (live 3)) ∧ (live 3).phase = .live ∧
      exec .rebind (live 3) = .next (after .rebind (live 3)) ∧ exec .tick (binding 2) = .next (after .tick (binding 2)) :=
  ⟨rfl, rfl, rfl, rfl⟩

theorem witness_SessionFramesHaveFixedLength :
    (binding 1).phase ≠ .idle ∧ { live 0 with ctrl := 0 }.phase ≠ .idle := by decide +kernel

/-- The invariants hold of a Binding and of a Live state whose next step is a TICK. -/
theorem witness_EveryStepKeepsInvariants :
    Inv (onBus [.schedTick] (binding 1)) ∧ Inv (onBus [.schedTick] (live 3)) ∧
      step (onBus [.schedTick] (binding 1)) =
        .next (nextOr idle (step (onBus [.schedTick] (binding 1)))) := by
  refine ⟨?_, ?_, rfl⟩
  · constructor
    case frameLengthLegal => exact .inl rfl
    all_goals decide +kernel
  · constructor
    case frameLengthLegal => exact .inl rfl
    all_goals decide +kernel

/-- The rules of the event stream hold of a Binding state whose next step is a TICK. -/
theorem witness_EveryStepKeepsStreamRules :
    StreamRules (onBus [.schedTick] (binding 2)) ∧
      step (onBus [.schedTick] (binding 2)) =
        .next (nextOr idle (step (onBus [.schedTick] (binding 2)))) := by
  have events : (onBus [.schedTick] (binding 2)).events =
      [.radioInit, .setPower 5, .bindState 10, .schedStart 10000] := rfl
  have notPayload : ∀ bytes, .writePayload bytes ∉ (onBus [.schedTick] (binding 2)).events := by
    rw [events]; simp
  refine ⟨?_, rfl⟩
  constructor
  case powerBelowCeiling => rw [events]; simp; decide +kernel
  case payloadLength => exact fun bytes h => absurd h (notPayload bytes)
  case channelBeforePayload => exact fun before bytes later h => absurd (by rw [h]; simp) (notPayload bytes)
  case radioBroughtUp =>
    intro before e later h he
    rw [events] at h
    cases before with
    | nil => simp at h; rw [← h.1] at he; exact absurd he (by decide)
    | cons first rest => simp at h; simp [← h.1]
  case sessionBroughtUp => rw [events]; simp
  case startDelay => rw [events]; simp; rfl
  case tickPeriod => rw [events]; simp
  case schedulerArmed => exact fun _ => rfl
  case schedulerStopped => exact fun h => Phase.noConfusion h

/-- INIT and then one tick fewer than BIND_COUNT = 2, exactly as many, and none, between a read and a write. -/
theorem witness_BindCountdownReachesLive :
    let few := [Input.hostRead 0x01, .schedTick, .hostWrite 0x04 0x03]
    let enough := [Input.schedTick, .hostWrite 0x00 0x20]
    (ready.params.wf = true ∧
      (onBus (.hostWrite 0x00 0x01 :: few) ready).inputs = .hostWrite 0x00#8 0x01#8 :: few ∧
      (∀ x ∈ few, sessionQuiet x = true) ∧ few.countP isTick < ready.params.bindCount.toNat) ∧
    ((∀ x ∈ enough, sessionQuiet x = true) ∧ ready.params.bindCount.toNat ≤ enough.countP isTick ∧
      enough.countP isTick ≤ ready.params.bindCount.toNat) := by decide +kernel

/-- Ticks, a read, a write and a refused command from Live. -/
theorem witness_LiveTicksHopThroughTheTable :
    let s := onBus [.schedTick, .hostRead 0x07, .hostWrite 0x70 0x01, .hostWrite 0x00 0x12, .schedTick] (live 3)
    s.phase = .live ∧ (∀ x ∈ s.inputs, sessionQuiet x = true) ∧ s.inputs.countP isTick = 2 := by decide +kernel

end Sys2Proof.Tests
end

section
/-! PROOFS. The register image after reset (R54) and the capability constants (R43, R44). -/

namespace Sys2Proof.Machine

/-! ### The capability registers -/

@[simp] theorem memRead_capNumCh (s : State) : memRead s 0x27#8 = 0x0A#8 := rfl
@[simp] theorem memRead_capDefCh (s : State) : memRead s 0x28#8 = 0x0A#8 := rfl
@[simp] theorem memRead_capFlags (s : State) : memRead s 0x29#8 = 0x01#8 := rfl

/-- Settles O34: the capability registers read as constants in every state, so in the written one too. -/
theorem capabilityRegistersAreConstant : Obligations.CapabilityRegistersAreConstant :=
  fun _ _ _ => ⟨memRead_capNumCh _, memRead_capDefCh _, memRead_capFlags _⟩

/-! ### The register image after reset -/

/-- The offsets R54 names with a byte other than 0x00 all hold a register. -/
theorem resetByte_of_reserved {off : Byte} (h : regAt off = .reserved) : resetByte off = 0x00#8 := by
  revert off; decide +kernel

/-- After reset every register byte reads as R54 gives it for the register's offset. -/
theorem readReg_reset (r : RegByte) : readReg State.reset r = resetByte (offsetOf r) := by
  cases r with
  | count byte | seed byte | fixedId byte | nextPeriod byte | prngState byte => revert byte; decide +kernel
  | addrIn i | actAddr i | idAddr i | idChan i | serial i | payload i | frame i => revert i; decide +kernel
  | chIn k byte => revert k byte; decide +kernel
  | _ => rfl

/-- R54 offset by offset: a reserved offset reads 0x00, every other one as its register. -/
theorem memRead_reset (off : Byte) : memRead State.reset off = resetByte off := by
  rw [memRead]
  rcases offsetOf_regAt off with hreserved | hoffset
  · rw [resetByte_of_reserved hreserved, hreserved]; rfl
  · rw [readReg_reset, hoffset]

/-- Settles O32, by register at the offset. -/
theorem registerImageAfterReset : Obligations.RegisterImageAfterReset :=
  ⟨memRead_reset, rfl⟩

end Sys2Proof.Machine
end

section
/-! PROOFS. Byte order in the register space (R63): a read at a register's offset gives that register's byte, and the
bytes of a word put together with byte 0 lowest are the word. -/

namespace Sys2Proof.Machine

/-! ### Reads at a register's own offset -/

theorem memRead_offsetOf (s : State) {r : RegByte} (h : r ≠ .reserved) : memRead s (offsetOf r) = readReg s r := by
  rw [memRead, regAt_offsetOf r h]

/-- R64: channel input k stands two bytes above channel input k - 1. -/
theorem offsetOf_chIn (k : Fin 10) (b : Fin 2) : offsetOf (.chIn k b) = BitVec.ofNat 8 (0x70 + b + 2 * k) := by
  rw [offsetOf, ← BitVec.ofNat_add, Nat.add_assoc, Nat.add_comm b.val]

theorem memRead_chIn (s : State) (k : Fin 10) (b : Fin 2) :
    memRead s (BitVec.ofNat 8 (0x70 + b + 2 * k)) = getByte s.chIn[k] b := by
  rw [← offsetOf_chIn, memRead_offsetOf s RegByte.noConfusion, readReg]

/-! ### A word from its bytes -/

/-- Byte i under the bits above it. -/
theorem extractLsb'_append_getByte {n : Nat} (w : BitVec n) (i len : Nat) :
    w.extractLsb' (8 * (i + 1)) len ++ getByte w i = w.extractLsb' (8 * i) (len + 8) :=
  BitVec.extractLsb'_append_extractLsb'_eq_extractLsb' (Nat.mul_succ 8 i)

theorem append_getByte_sixteen (w : BitVec 16) : getByte w 1 ++ getByte w 0 = w :=
  calc
    getByte w 1 ++ getByte w 0 = w.extractLsb' 0 16 := extractLsb'_append_getByte w 0 8
    _ = w := BitVec.extractLsb'_eq_self

theorem append_getByte_thirtyTwo (w : BitVec 32) :
    getByte w 3 ++ getByte w 2 ++ getByte w 1 ++ getByte w 0 = w := by
  have upperTwo : getByte w 3 ++ getByte w 2 = w.extractLsb' 16 16 := extractLsb'_append_getByte w 2 8
  have upperThree : w.extractLsb' 16 16 ++ getByte w 1 = w.extractLsb' 8 24 := extractLsb'_append_getByte w 1 16
  have all : w.extractLsb' 8 24 ++ getByte w 0 = w.extractLsb' 0 32 := extractLsb'_append_getByte w 0 24
  rw [upperTwo, upperThree, all, BitVec.extractLsb'_eq_self]

/-- Settles O36: the bytes read make up the register. At a fixed offset the read evaluates to the register's byte; a
channel input's two offsets depend on its number and go through the register map. -/
theorem multiByteRegistersAreLittleEndian : Obligations.MultiByteRegistersAreLittleEndian := by
  intro s
  refine ⟨?count, ?seed, ?fixedId, ?nextPeriod, ?prngState, fun k => ?chIn⟩
  case count => exact append_getByte_sixteen s.count
  case seed => exact append_getByte_sixteen s.seed
  case fixedId => exact append_getByte_thirtyTwo s.fixedId
  case nextPeriod => exact append_getByte_thirtyTwo s.nextPeriod
  case prngState => exact append_getByte_thirtyTwo s.prngState
  case chIn =>
    have high : memRead s (BitVec.ofNat 8 (0x71 + 2 * k)) = getByte s.chIn[k] 1 := memRead_chIn s k 1
    have low : memRead s (BitVec.ofNat 8 (0x70 + 2 * k)) = getByte s.chIn[k] 0 := memRead_chIn s k 0
    rw [high, low, append_getByte_sixteen]

end Sys2Proof.Machine
end

section
/-! PROOFS. The command codes (R81): decoding and encoding agree both ways. -/

namespace Sys2Proof.Machine

/-- A command's byte decodes to it, and the bytes after it are handed back (R79). -/
@[simp] theorem decode_encode_append (i : Instr) (rest : List Byte) : decode (encode i ++ rest) = .ok (i, rest) := by
  cases i <;> rfl

/-- A byte that decodes is one of the eight codes, and those decode to their own command. -/
theorem encode_of_decode {code : Byte} {i : Instr} {rest : List Byte} (h : decode [code] = .ok (i, rest)) :
    encode i = [code] ∧ rest = [] := by
  rcases code_cases code with ⟨j, rfl⟩ | hundefined
  · have hj : decode [j.code] = .ok (j, []) := decode_encode_append j []
    rw [hj] at h
    cases h
    exact ⟨rfl, rfl⟩
  · rw [decode_undefined hundefined] at h
    cases h

/-- Settles O28: the codes by evaluation, and a lemma for each direction. -/
theorem decodeAndEncodeAgree : Obligations.DecodeAndEncodeAgree :=
  ⟨rfl, decode_encode_append, fun _ _ _ => encode_of_decode⟩

end Sys2Proof.Machine
end

section
/-! PROOFS. The layouts of the two logical payloads (R90, R91). -/

namespace Sys2Proof.Machine

/-! ### The bind payload -/

theorem toList_eq_ofFn {n : Nat} (v : Vector Byte n) : v.toList = List.ofFn fun j : Fin n => v[j] :=
  (congrArg Vector.toList Vector.ofFn_getElem).symm.trans Vector.toList_ofFn

/-- Settles O24: the channel and address arrays element by element, between the marker and the zero bytes. -/
theorem bindPayloadLayout : Obligations.BindPayloadLayout := by
  intro s
  rw [bindPayload, toList_eq_ofFn s.idChan, toList_eq_ofFn s.idAddr]
  rfl

/-! ### The live payload -/

/-- An axis byte is the scaled channel input the axis reads, counted from 0 in `CH_IN`. -/
theorem axisByte_eq_scaleWith (s : State) {k : Axis} {i : Nat} (hch : axisCh k = i + 1) (hi : i < 10) :
    axisByte s k = scaleWith (s.params.axis k) (axisInverted k) s.chIn[i] := by
  rw [axisByte, hch, controlInput_succ s i hi, scale]

/-- A flag's value has bit 0 alone, set when the input is above 0 as a signed number. -/
theorem getLsbD_flagValue (raw : U16) (j : Nat) :
    (flagValue raw).getLsbD j = (decide (j = 0) && decide (0 < raw.toInt)) := by
  by_cases h : 0 < raw.toInt <;> simp [flagValue, h]

theorem flagsByte_eq (s : State) :
    flagsByte s = flagValue s.chIn[5] ||| (flagValue s.chIn[8] <<< 1) ||| (flagValue s.chIn[9] <<< 2) := by
  have h1 : controlInput s flag1Ch = s.chIn[5] := controlInput_succ s 5 (by decide)
  have h2 : controlInput s flag2Ch = s.chIn[8] := controlInput_succ s 8 (by decide)
  have h3 : controlInput s flag3Ch = s.chIn[9] := controlInput_succ s 9 (by decide)
  rw [flagsByte, h1, h2, h3]

/-- Each flag has a bit of its own, and every other bit is 0. -/
theorem getLsbD_flagsByte (s : State) (j : Nat) :
    (flagsByte s).getLsbD j = true ↔
      j = 0 ∧ 0 < s.chIn[5].toInt ∨ j = 1 ∧ 0 < s.chIn[8].toInt ∨ j = 2 ∧ 0 < s.chIn[9].toInt := by
  rw [flagsByte_eq]
  simp only [BitVec.getLsbD_or, BitVec.getLsbD_shiftLeft, getLsbD_flagValue, Bool.or_eq_true, Bool.and_eq_true,
    Bool.not_eq_true', decide_eq_true_eq, decide_eq_false_iff_not]
  omega

theorem flagsByte_reservedBits (s : State) : (flagsByte s).extractLsb' 3 5 = 0 := by
  refine BitVec.eq_of_getLsbD_eq fun j _ => ?_
  have hclear : (flagsByte s).getLsbD (3 + j) = false := by
    rw [← Bool.not_eq_true, getLsbD_flagsByte]; omega
  simp [BitVec.getLsbD_extractLsb', hclear]

theorem livePayload_eq (s : State) :
    livePayload s =
      [scaleWith s.params.axisA true s.chIn[0], scaleWith s.params.axisB true s.chIn[1],
       scaleWith s.params.axisC false s.chIn[2], scaleWith s.params.axisD false s.chIn[3], s.params.rateByte,
       flagsByte s] ++ List.replicate 9 0x00#8 := by
  have hA := axisByte_eq_scaleWith s (k := .A) rfl (by decide)
  have hB := axisByte_eq_scaleWith s (k := .B) rfl (by decide)
  have hC := axisByte_eq_scaleWith s (k := .C) rfl (by decide)
  have hD := axisByte_eq_scaleWith s (k := .D) rfl (by decide)
  rw [livePayload, hA, hB, hC, hD]
  rfl

/-- Settles O25: the layout from the axes' inputs, and the flags byte bit by bit. -/
theorem livePayloadLayout : Obligations.LivePayloadLayout := by
  intro s
  refine ⟨livePayload_eq s, ?flag1, ?flag2, ?flag3, flagsByte_reservedBits s⟩
  case flag1 => simpa using getLsbD_flagsByte s 0
  case flag2 => simpa using getLsbD_flagsByte s 1
  case flag3 => simpa using getLsbD_flagsByte s 2

end Sys2Proof.Machine
end

section
/-! PROOFS. The identity derivation (40_identity.md): the generator step (R92), the folds and the extraction (R94 to
R99), and the command DERIVE (R102). -/

namespace Sys2Proof.Machine

/-! ### The generator -/

/-- One step in numbers (R92): the sum and the product are those of the naturals, wrapped once. -/
theorem prngStep_toNat (p : Params) (s : U32) (b : Byte) :
    (prngStep p s b).toNat = (s.toNat * p.prngMul.toNat + p.prngAdd.toNat + b.toNat) % 2 ^ 32 := by
  have hwiden : (b.setWidth 32).toNat = b.toNat := BitVec.toNat_setWidth_of_le (by decide)
  simp only [prngStep, BitVec.toNat_add, BitVec.toNat_mul, hwiden, Nat.mod_add_mod]

/-- Settles O15: the step in numbers, and the two examples once the constants are put in. -/
theorem generatorStepIsLinear : Obligations.GeneratorStepIsLinear := by
  refine ⟨prngStep_toNat, fun p hmul hadd => ?_⟩
  simp only [prngStep, hmul, hadd]
  decide

/-- Folding two byte sequences one after the other folds them as one (R93). -/
theorem prngFold_append (p : Params) (s : U32) (xs ys : List Byte) :
    prngFold p s (xs ++ ys) = prngFold p (prngFold p s xs) ys :=
  List.foldl_append

/-- A derivation is one fold from `PRNG_SEED`: the serial, the fixed identifier when enabled, the zero bytes
(R94 to R97). -/
theorem foldedState_eq (s : State) :
    foldedState s = prngFold s.params s.params.prngSeed
      (serialBytes s ++ (if fixedEnabled s then fixedIdBytes s else []) ++
        List.replicate s.params.zeroFolds.toNat 0x00#8) := by
  rw [prngFold_append, prngFold_append, foldedState]
  by_cases hfixed : fixedEnabled s = true
  · simp only [hfixed, if_true]
  · simp only [hfixed, Bool.false_eq_true, if_false]; rfl

/-! ### The derived channels -/

/-- R8's constraints on the channel parameters: at least one slot, and the last slot is still a byte. -/
theorem channelSlots_of_wf {p : Params} (h : p.wf = true) : 0 < p.chSlots ∧ p.chBase.toNat + p.chSlots ≤ 2 ^ 8 := by
  simp only [Params.wf, Params.slotsOk, Params.channelsFit, Bool.and_eq_true, decide_eq_true_eq] at h
  omega

/-- With legal parameters a channel does not wrap (R99). -/
theorem channelOf_toNat {p : Params} (h : p.wf = true) (b : Byte) :
    (channelOf p b).toNat = p.chBase.toNat + b.toNat % p.chSlots := by
  obtain ⟨hslots, hfit⟩ := channelSlots_of_wf h
  have hslot : b.toNat % p.chSlots < p.chSlots := Nat.mod_lt _ hslots
  rw [channelOf, BitVec.toNat_ofNat, Nat.mod_eq_of_lt (by omega)]

/-- Channel i is the slot that byte i of the generator's state selects, two advances after the address state
(R99). -/
theorem extractIdentity_chan (p : Params) (s : U32) (i : Fin 4) :
    (extractIdentity p s).chan[i] = channelOf p (getByte (prngAdvance p (prngAdvance p s)) i) := by
  match i with
  | 0 | 1 | 2 | 3 => rfl

/-- Settles O16: the three states are the folded one and its next two advances. -/
theorem derivationFoldsThenExtracts : Obligations.DerivationFoldsThenExtracts := by
  intro s hwf
  refine ⟨identityDerive s, foldedState s, prngAdvance s.params (foldedState s),
    prngAdvance s.params (prngAdvance s.params (foldedState s)), rfl, foldedState_eq s, rfl, rfl, rfl,
    fun i => ?channel, rfl, rfl⟩
  case channel =>
    rw [identityDerive_idChan, derivedIdentity, extractIdentity_chan, channelOf_toNat hwf, getByte]

/-! ### The command DERIVE -/

theorem exec_derive_idle {s : State} (h : s.phase = .idle) : exec .derive s = .next (identityDerive s) := by
  simp only [exec, execDerive, h, if_true]

theorem exec_derive_busy {s : State} (h : s.phase ≠ .idle) : exec .derive s = .next (raise .busyErr s) := by
  simp only [exec, execDerive, h, if_false]

/-- A derivation writes none of its inputs (R94), so a second one gives the same identity. -/
@[simp] theorem derivedIdentity_identityDerive (s : State) : derivedIdentity (identityDerive s) = derivedIdentity s :=
  rfl

theorem identityDerive_idem (s : State) : identityDerive (identityDerive s) = identityDerive s := by
  rw [identityDerive, derivedIdentity_identityDerive]; rfl

/-- Settles O5: the two phases' effects, and in Idle the derivation's idempotence. -/
theorem deriveWritesIdentityInIdle : Obligations.DeriveWritesIdentityInIdle := by
  refine ⟨rfl, fun s => ⟨fun hidle => ⟨identityDerive s, exec_derive_idle hidle, ?again, rfl⟩, exec_derive_busy⟩⟩
  case again =>
    have hstays : (identityDerive s).phase = .idle := hidle
    rw [exec_derive_idle hstays, identityDerive_idem]

end Sys2Proof.Machine
end

section
/-! PROOFS. The codec (41_codec.md): the checksum seed (R105), the length of a frame (R88), and the commands SETADDR
(R107) and ENCODE (R115). -/

namespace Sys2Proof.Machine

/-! ### The checksum seed -/

/-- The fold over the reversed address, one update per byte: byte 4 innermost (R105). -/
theorem crcSeed_eq (a : Vector Byte 5) :
    crcSeed a =
      crcUpdate (crcUpdate (crcUpdate (crcUpdate (crcUpdate crcInit a[4] 8) a[3] 8) a[2] 8) a[1] 8) a[0] 8 := by
  rw [crcSeed, crcBytes]
  simp only [List.foldl_cons, List.foldl_nil]

/-- Settles O18: the fold byte by byte, and the examples by evaluation. -/
theorem checksumSeedFoldsAddressInReverse : Obligations.ChecksumSeedFoldsAddressInReverse :=
  ⟨crcSeed_eq, by decide +kernel⟩

/-! ### The length of a frame -/

/-- Framing steps 1 to 4: two guard bytes, the control byte, the no-ack bit and L payload bytes (R109 to R112). -/
theorem length_plainBits (x : CodecContext) {payload : List Byte} (h : payload.length ≤ 15) :
    (plainBits x payload).length = 25 + 8 * payload.length := by
  simp only [plainBits, List.length_append, length_bitsOf, List.length_singleton, length_flatMap_bitsOf,
    length_scramble x.scr payload h]

/-- The 25 bits of the header leave one bit of the last byte in use, and the checksum's 16 bits are two bytes more
(R88). -/
theorem length_buildFrame (x : CodecContext) {payload : List Byte} (h : payload.length ≤ 15) :
    (buildFrame x payload).length = frameLength x.crcOn payload.length := by
  have hplain := length_plainBits x h
  rw [buildFrame, length_packBytes, frameBits, frameLength]
  by_cases hcrc : x.crcOn = true
  · rw [if_pos hcrc, if_pos hcrc, List.length_append, length_bitsOf]
    omega
  · rw [if_neg hcrc, if_neg hcrc]
    omega

/-- At most 6 bytes are added to a payload, so the length of a frame fits the 6 bits of `FLEN`. -/
theorem frameLength_le (crcOn : Bool) (len : Nat) : frameLength crcOn len ≤ 6 + len := by
  rw [frameLength]
  split <;> omega

theorem length_hostPayload {s : State} (h : s.plen.toNat ≤ 15) : (hostPayload s).length = s.plen.toNat := by
  rw [hostPayload, List.length_take, Vector.length_toList, Nat.min_eq_left h]

/-- `FLEN` after an `Encode` is the frame's length, not wrapped (R114). -/
theorem encodeFrame_flen_toNat (s : State) {payload : List Byte} (h : payload.length ≤ 15) :
    (encodeFrame payload s).flen.toNat = (frameOf payload s).length := by
  have hlength : (frameOf payload s).length = frameLength (crcEnabled s) payload.length :=
    length_buildFrame (codecContext s) h
  have hbound := frameLength_le (crcEnabled s) payload.length
  rw [encodeFrame_flen, BitVec.toNat_ofNat, Nat.mod_eq_of_lt (by omega)]

/-! ### The command SETADDR -/

theorem exec_setaddr_idle {s : State} (h : s.phase = .idle) :
    exec .setaddr s = .next (setActiveAddress s.addrIn s) := by
  simp only [exec, execSetaddr, h, if_true]

theorem exec_setaddr_busy {s : State} (h : s.phase ≠ .idle) : exec .setaddr s = .next (raise .busyErr s) := by
  simp only [exec, execSetaddr, h, if_false]

/-- Settles O6: the effect in each phase; the records written out are `setActiveAddress` and `raise` unfolded. -/
theorem setaddrActivatesAddressInIdle : Obligations.SetaddrActivatesAddressInIdle :=
  ⟨rfl, fun _ => ⟨exec_setaddr_idle, exec_setaddr_busy⟩⟩

/-! ### The command ENCODE -/

theorem exec_encode_idle {s : State} (hidle : s.phase = .idle) (hlen : s.plen.toNat ≤ 15) :
    exec .encode s = .next (encodeFrame (hostPayload s) s) := by
  have haccepted : ¬ lMax < s.plen.toNat := Nat.not_lt.mpr hlen
  simp only [exec, execEncode, hidle, haccepted, ne_eq, not_true, if_false]

/-- `BUSY_ERR` is checked first, whatever `PLEN` holds (R115). -/
theorem exec_encode_busy {s : State} (h : s.phase ≠ .idle) : exec .encode s = .next (raise .busyErr s) := by
  simp only [exec, execEncode, h, ne_eq, not_false_eq_true, if_true]

theorem exec_encode_tooLong {s : State} (hidle : s.phase = .idle) (hlen : 15 < s.plen.toNat) :
    exec .encode s = .next (raise .lenErr s) := by
  have hrefused : lMax < s.plen.toNat := hlen
  simp only [exec, execEncode, hidle, hrefused, ne_eq, not_true, if_false, if_true]

/-- Settles O7: a refusal is the STATUS bit alone; an accepted ENCODE is `encodeFrame`, whose three registers are
taken one by one. -/
theorem encodeStoresFrameInIdle : Obligations.EncodeStoresFrameInIdle := by
  refine ⟨rfl, fun s => ⟨fun hidle hlen => ?accepted, exec_encode_busy, exec_encode_tooLong⟩⟩
  case accepted =>
    have hpayload : (hostPayload s).length ≤ 15 := (length_hostPayload hlen).trans_le hlen
    refine ⟨encodeFrame (hostPayload s) s, exec_encode_idle hidle hlen, ?frame, ?flen, ?pid, rfl⟩
    case frame => exact getElem_padVec 32 (frameOf (hostPayload s) s)
    case flen => exact encodeFrame_flen_toNat s hpayload
    case pid => exact BitVec.toNat_add s.pid 1

end Sys2Proof.Machine
end

section
/-! PROOFS. The session commands INIT, REBIND and DEINIT (R118 to R120): their whole next states. -/

namespace Sys2Proof.Machine

/-! ### INIT and REBIND -/

/-- The four events of a start, in the order of R118's pseudocode. -/
theorem startSession_events (s : State) : (startSession s).events = (startedState s).events := by
  simp only [startSession, askStart_events, announceBind_events, programPower_events, emit_events, List.append_assoc]
  rw [startedState, ← clampedPower_eq]
  rfl

/-- The pseudocode of INIT, run to its end, leaves the state written out from R118; the scheduler is armed with the
initial wait. -/
theorem startSession_eq (s : State) :
    startSession s = { startedState s with sched := .armed s.params.initWaitUs } := by
  apply State.ext
  case events => exact startSession_events s
  case pwrApplied => exact clampedPower_eq s
  all_goals rfl

/-- Settles O2: INIT runs the pseudocode of R118 in every state. -/
theorem initStartsSession : Obligations.InitStartsSession :=
  ⟨rfl, fun s => ⟨_, congrArg Host.Outcome.next (startSession_eq s), rfl⟩⟩

/-- Settles O3: REBIND and INIT run the same pseudocode. -/
theorem rebindStartsSessionAnew : Obligations.RebindStartsSessionAnew :=
  ⟨rfl, fun s =>
    have hstart := congrArg Host.Outcome.next (startSession_eq s)
    ⟨_, hstart, hstart, rfl⟩⟩

/-! ### DEINIT -/

@[simp] theorem stopSession_phase (ok : Bool) (s : State) : (stopSession ok s).phase = .idle := rfl

theorem stopSession_events (ok : Bool) (s : State) :
    (stopSession ok s).events = s.events ++ [Event.schedStop, Event.radioReset] := by
  rw [stopSession, takeAnswer_events, emit_events, emit_events, List.append_assoc]
  rfl

/-- The pseudocode of DEINIT, run to its end (R120). -/
theorem stopSession_eq (ok : Bool) (s : State) :
    stopSession ok s = { s with
      phase := .idle
      nextPeriod := 0
      events := s.events ++ [.schedStop, .radioReset]
      answers := s.answers ++ [ok]
      result := if ok then .succeeded else .failed
      sched := .stopped
      drawIndex := s.drawIndex + 1 } := by
  apply State.ext
  case events => exact stopSession_events ok s
  all_goals rfl

/-- RESULT reads as the answer just drawn (R26). -/
theorem memRead_result_stopSession (ok : Bool) (s : State) :
    memRead (stopSession ok s) 0x02#8 = if ok then 0x01#8 else 0xFF#8 := by
  cases ok <;> rfl

/-- Settles O4: DEINIT stops the session with the answer drawn, and the state it leaves is Idle, where a TICK is
ignored. -/
theorem deinitStopsSession : Obligations.DeinitStopsSession :=
  ⟨rfl, fun s => ⟨stopSession (drawnAnswer s) s, drawnAnswer s, rfl, stopSession_eq _ s,
    memRead_result_stopSession _ s, exec_tick_idle (stopSession_phase _ s)⟩⟩

end Sys2Proof.Machine
end

section
/-! PROOFS. TICK in a session (R121 to R126, R131): its whole next state in Binding and in Live. -/

namespace Sys2Proof.Machine

/-! ### The end of a tick -/

/-- The power check: the clamped request is applied, with its event when the level changes (R131). -/
theorem powerCheck_eq (s : State) :
    powerCheck s = { s with pwrApplied := appliedLevel s, events := s.events ++ powerEvents s } := by
  apply State.ext
  case pwrApplied => exact powerCheck_pwrApplied s
  case events => exact powerCheck_events s
  all_goals simp

theorem finishTick_eq (s : State) :
    finishTick s = { s with
      pwrApplied := appliedLevel s
      nextPeriod := s.params.periodUs
      events := s.events ++ powerEvents s ++ [.tickDone s.params.periodUs]
      sched := .armed s.params.periodUs } := by
  rw [finishTick, powerCheck_eq]
  rfl

/-! ### Binding -/

/-- BIND_DONE is bit 4 of STATUS (R25). -/
theorem setStatusBit_bindDone (st : BitVec 5) : setStatusBit .bindDone st = st ||| 0b10000#5 := rfl

/-- The transmission and the count are common to all bind ticks; the last one also completes the bind (R122, R124). -/
theorem bindTick_eq_ite (s : State) :
    bindTick s =
      if s.count = 1 then bindComplete (countDown (transmit s.params.bindCh (bindPayload s) s))
      else countDown (transmit s.params.bindCh (bindPayload s) s) := by
  by_cases hlast : s.count = 1
  · rw [if_pos hlast, bindTick_last hlast]
  · rw [if_neg hlast, bindTick_more hlast]

theorem bindTick_phase (s : State) : (bindTick s).phase = if s.count = 1 then .live else s.phase := by
  simp [bindTick_eq_ite, apply_ite State.phase]

theorem bindTick_status (s : State) :
    (bindTick s).status = if s.count = 1 then s.status ||| 0b10000#5 else s.status := by
  simp [bindTick_eq_ite, apply_ite State.status, setStatusBit_bindDone]

theorem bindTick_actAddr (s : State) : (bindTick s).actAddr = if s.count = 1 then s.idAddr else s.actAddr := by
  simp [bindTick_eq_ite, apply_ite State.actAddr]

theorem bindTick_seed (s : State) : (bindTick s).seed = if s.count = 1 then crcSeed s.idAddr else s.seed := by
  simp [bindTick_eq_ite, apply_ite State.seed]

/-- The channel, the frame, and on the last count the observer's 0, in this order (R122, R124). -/
theorem bindTick_events (s : State) :
    (bindTick s).events =
      s.events ++ [Event.setChannel s.params.bindCh, Event.writePayload (frameOf (bindPayload s) s)] ++
        (if s.count = 1 then [Event.bindState 0] else []) := by
  rw [bindTick_eq_ite, apply_ite State.events]
  split <;> simp

@[simp] theorem bindTick_count (s : State) : (bindTick s).count = s.count - 1 := by simp [bindTick]

@[simp] theorem bindTick_pid (s : State) : (bindTick s).pid = s.pid + 1 := by simp [bindTick]

@[simp] theorem bindTick_flen (s : State) :
    (bindTick s).flen = BitVec.ofNat 6 (frameOf (bindPayload s) s).length := by simp [bindTick]

@[simp] theorem bindTick_frame (s : State) : (bindTick s).frame = padVec 32 (frameOf (bindPayload s) s) := by
  simp [bindTick]

/-- A bind tick to its end. The power check after it reads nothing that it writes. -/
theorem finishTick_bindTick_eq {s : State} (h : s.phase = .binding) :
    finishTick (bindTick s) = { boundState s with sched := .armed s.params.periodUs } := by
  have hlevel : appliedLevel (bindTick s) = appliedLevel s :=
    appliedLevel_congr (bindTick_pwrReq s) (bindTick_params s)
  have hpower : powerEvents (bindTick s) = powerEvents s :=
    powerEvents_congr (bindTick_pwrReq s) (bindTick_params s) (bindTick_pwrApplied s)
  apply State.ext
  case phase => simp [boundState, bindTick_phase, h]
  case events => simp [boundState, bindTick_events, hpower]
  all_goals simp [boundState, hlevel, bindTick_status, bindTick_actAddr, bindTick_seed]

/-- Settles O9. -/
theorem tickInBindingTransmitsAndCounts : Obligations.TickInBindingTransmitsAndCounts :=
  fun _ hbinding _ =>
    ⟨_, (exec_tick_binding hbinding).trans (congrArg Host.Outcome.next (finishTick_bindTick_eq hbinding)), rfl⟩

/-! ### Live -/

/-- A live tick to its end: the channel is the one under the cursor before it moves (R125). -/
theorem finishTick_liveTick_eq (s : State) :
    finishTick (liveTick s) = { hoppedState s with sched := .armed s.params.periodUs } := by
  have hpower : powerEvents (liveTick s) = powerEvents s :=
    powerEvents_congr (liveTick_pwrReq s) (liveTick_params s) (liveTick_pwrApplied s)
  rw [finishTick_eq, hpower, hoppedState]
  apply State.ext
  case events => simp [liveTick]
  case pwrApplied => exact appliedLevel_congr (liveTick_pwrReq s) (liveTick_params s)
  all_goals simp [liveTick]

/-- Settles O10. -/
theorem tickInLiveTransmitsAndHops : Obligations.TickInLiveTransmitsAndHops :=
  fun s hlive => ⟨_, (exec_tick_live hlive).trans (congrArg Host.Outcome.next (finishTick_liveTick_eq s)), rfl⟩

end Sys2Proof.Machine
end

section
/-! PROOFS. What the session keeps to: the phase moves by its table (R117), the cursor by live ticks alone (R126). -/

namespace Sys2Proof.Machine

/-! ### What a command does to the session -/

/-- A command starts the session, stops it, ticks it in Binding or in Live, or leaves its phase and cursor alone. -/
theorem exec_session_cases {i : Instr} {s t : State} (h : exec i s = .next t) :
    ((i = .init ∨ i = .rebind) ∧ t = startSession s) ∨
    (i = .deinit ∧ t = stopSession (drawnAnswer s) s) ∨
    (i = .tick ∧ s.phase = .binding ∧ t = finishTick (bindTick s)) ∨
    (i = .tick ∧ s.phase = .live ∧ t = finishTick (liveTick s)) ∨
    ((i ≠ .init ∧ i ≠ .rebind) ∧ i ≠ .deinit ∧ (i = .tick → s.phase = .idle) ∧
      t.phase = s.phase ∧ t.cursor = s.cursor) := by
  rcases exec_cases h with hnop | hstart | hstop | hderive | hsetaddr | hencode | htooLong | hbusy | hignored |
    hbinding | hlive
  · obtain ⟨rfl, rfl⟩ := hnop
    simp
  · exact .inl hstart
  · exact .inr (.inl hstop)
  · obtain ⟨rfl, -, rfl⟩ := hderive
    simp
  · obtain ⟨rfl, -, rfl⟩ := hsetaddr
    simp
  · obtain ⟨rfl, -, -, rfl⟩ := hencode
    simp
  · obtain ⟨rfl, -, -, rfl⟩ := htooLong
    simp
  · obtain ⟨rfl | rfl | rfl, -, rfl⟩ := hbusy <;> simp
  · obtain ⟨rfl, hidle, rfl⟩ := hignored
    simp [hidle]
  · exact .inr (.inr (.inl hbinding))
  · exact .inr (.inr (.inr (.inl hlive)))

/-! ### The phase -/

/-- The phase after a command: the rows of R117's table that a command can take. -/
def phaseAfterCommand (i : Instr) (s : State) : Phase :=
  if i = .init ∨ i = .rebind then .binding
  else if i = .deinit then .idle
  else if i = .tick ∧ s.phase = .binding ∧ s.count = 1 then .live
  else s.phase

theorem phaseAfter_command (i : Instr) (s : State) :
    phaseAfter (.hostWrite 0#8 i.code) s = phaseAfterCommand i s := by
  cases i <;> simp [phaseAfter, phaseAfterCommand, writesCode, isTick, Instr.code]

theorem phaseAfter_schedTick (s : State) : phaseAfter .schedTick s = phaseAfterCommand .tick s := by
  simp [phaseAfter, phaseAfterCommand, writesCode, isTick]

/-- An input that is no reset and writes no command's code leaves the phase, by the table. -/
theorem phaseAfter_of_no_command {x : Input} (s : State) (hreset : x ≠ .reset)
    (hcode : ∀ i : Instr, writesCode i.code x = false) : phaseAfter x s = s.phase := by
  have hinit : writesCode 0x01#8 x = false := hcode .init
  have hrebind : writesCode 0x02#8 x = false := hcode .rebind
  have hdeinit : writesCode 0x03#8 x = false := hcode .deinit
  have htick : isTick x = false := hcode .tick
  simp [phaseAfter, hreset, hinit, hrebind, hdeinit, htick]

/-- The table of R117 over the commands. -/
theorem exec_phase {i : Instr} {s t : State} (h : exec i s = .next t) : t.phase = phaseAfterCommand i s := by
  rcases exec_session_cases h with ⟨rfl | rfl, rfl⟩ | ⟨rfl, rfl⟩ | ⟨rfl, hbinding, rfl⟩ | ⟨rfl, hlive, rfl⟩ |
    ⟨hstart, hstop, hidle, hphase, -⟩
  · rfl
  · rfl
  · rfl
  · simp [phaseAfterCommand, bindTick_phase, hbinding]
  · simp [phaseAfterCommand, hlive]
  · have htick : ¬ (i = .tick ∧ s.phase = .binding ∧ s.count = 1) := by
      rintro ⟨hi, hbinding, -⟩
      exact absurd ((hidle hi).symm.trans hbinding) (by decide)
    rw [hphase, phaseAfterCommand, if_neg (not_or.mpr hstart), if_neg hstop, if_neg htick]

theorem code_mem_definedCodes (i : Instr) : i.code ∈ definedCodes := by
  cases i <;> decide

/-- Settles O42, by kind of input: those that run no command leave the phase, and a command moves it by
`exec_phase`. -/
theorem phaseMovesByTheTable : Obligations.PhaseMovesByTheTable := by
  intro x s t _ h
  rcases serve_cases h with ⟨off, rfl, rfl⟩ | ⟨off, v, rfl, hoff, rfl⟩ | ⟨i, rfl, hexec⟩ | ⟨rfl, hexec⟩ |
    ⟨code, rfl, hundefined, rfl⟩ | ⟨rfl, rfl⟩
  · exact (phaseAfter_of_no_command s (by simp) fun _ => rfl).symm
  · have hcode (i : Instr) : writesCode i.code (.hostWrite off v) = false := by simp [writesCode, hoff]
    rw [phaseAfter_of_no_command s (by simp) hcode, memWrite_phase]
  · rw [phaseAfter_command, exec_phase hexec]
  · rw [phaseAfter_schedTick, exec_phase hexec]
    rfl
  · have hcode (i : Instr) : writesCode i.code (.hostWrite 0#8 code) = false := by
      have hne : code ≠ i.code := fun heq => hundefined (heq ▸ code_mem_definedCodes i)
      simp [writesCode, hne]
    rw [phaseAfter_of_no_command s (by simp) hcode, raise_phase]
  · rfl

/-! ### The cursor -/

theorem channelsOf_append (xs ys : List Event) : channelsOf (xs ++ ys) = channelsOf xs ++ channelsOf ys :=
  List.filterMap_append

theorem channelsOf_powerEvents (s : State) : channelsOf (powerEvents s) = [] := by
  rw [powerEvents]
  split <;> rfl

/-- The channel under the old cursor is the first event of a live tick, and its only channel (R125, R126). -/
theorem finishTick_liveTick_events (s : State) :
    ∃ later, (finishTick (liveTick s)).events = s.events ++ .setChannel s.idChan[s.cursor.toFin] :: later ∧
      channelsOf later = [] := by
  refine ⟨[Event.writePayload (frameOf (livePayload s) s)] ++ powerEvents s ++
    [Event.tickDone s.params.periodUs], ?_, ?_⟩
  · simp [finishTick_liveTick_eq, hoppedState]
  · rw [channelsOf_append, channelsOf_append, channelsOf_powerEvents]
    rfl

@[simp] theorem liveTick_cursor (s : State) : (liveTick s).cursor = s.cursor + 1 := rfl

/-- The cursor after a command (R118, R126). -/
theorem exec_cursor {i : Instr} {s t : State} (h : exec i s = .next t) :
    t.cursor.toNat =
      (if i = .init ∨ i = .rebind then 0
       else if i = .tick ∧ s.phase = .live then (s.cursor.toNat + 1) % 4 else s.cursor.toNat) := by
  rcases exec_session_cases h with ⟨rfl | rfl, rfl⟩ | ⟨rfl, rfl⟩ | ⟨rfl, hbinding, rfl⟩ | ⟨rfl, hlive, rfl⟩ |
    ⟨hstart, -, hidle, -, hcursor⟩
  · rfl
  · rfl
  · rfl
  · simp [hbinding]
  · simp [hlive, BitVec.toNat_add]
  · have htick : ¬ (i = .tick ∧ s.phase = .live) := by
      rintro ⟨hi, hlive⟩
      exact absurd ((hidle hi).symm.trans hlive) (by decide)
    rw [hcursor, if_neg (not_or.mpr hstart), if_neg htick]

/-- Settles O45. -/
theorem cursorAdvancesOnlyInLiveTicks : Obligations.CursorAdvancesOnlyInLiveTicks := by
  intro i s t h
  refine ⟨exec_cursor h, fun htick hlive => ?channel⟩
  case channel =>
    subst htick
    cases (exec_tick_live hlive).symm.trans h
    exact finishTick_liveTick_events s

end Sys2Proof.Machine
end

section
/-! PROOFS. Scaling of an axis (R128): clamp, floored rescaling, mirror. -/

namespace Sys2Proof

/-! ### The parts of the formula -/

/-- The input clamped to the input range. -/
def AxisParams.clamped (a : AxisParams) (raw : U16) : Int := min (max raw.toInt a.inMin.toInt) a.inMax.toInt

/-- The size of the output range. -/
def AxisParams.outSpan (a : AxisParams) : Int := (a.outHi.toNat : Int) - a.outLo.toNat

/-- The size of the input range. -/
def AxisParams.inSpan (a : AxisParams) : Int := a.inMax.toInt - a.inMin.toInt

/-- The clamped input rescaled to the output range, floored. -/
def AxisParams.rescaled (a : AxisParams) (raw : U16) : Int :=
  (a.clamped raw - a.inMin.toInt) * a.outSpan / a.inSpan

/-- R8's constraints on an axis: the input range holds two values, the output range one. -/
theorem AxisParams.wf_iff (a : AxisParams) :
    a.wf = true ↔ a.inMin.toInt < a.inMax.toInt ∧ a.outLo.toNat ≤ a.outHi.toNat := by
  simp only [AxisParams.wf, AxisParams.inputOk, AxisParams.outputOk, Bool.and_eq_true, decide_eq_true_eq]

section
variable {a : AxisParams} (h : a.wf = true)
include h

theorem AxisParams.inSpan_pos : 0 < a.inSpan := by
  have hin := (a.wf_iff.mp h).1
  rw [inSpan]
  omega

theorem AxisParams.outSpan_nonneg : 0 ≤ a.outSpan := by
  have hout := (a.wf_iff.mp h).2
  rw [outSpan]
  omega

/-- The clamped input stands in the input range. -/
theorem AxisParams.clamped_bounds (raw : U16) :
    0 ≤ a.clamped raw - a.inMin.toInt ∧ a.clamped raw - a.inMin.toInt ≤ a.inSpan := by
  have hin := (a.wf_iff.mp h).1
  rw [clamped, inSpan]
  omega

/-- The rescaled input stands between 0 and the size of the output range. -/
theorem AxisParams.rescaled_bounds (raw : U16) : 0 ≤ a.rescaled raw ∧ a.rescaled raw ≤ a.outSpan := by
  obtain ⟨hlow, hhigh⟩ := clamped_bounds h raw
  have hin := inSpan_pos h
  have hout := outSpan_nonneg h
  refine ⟨Int.ediv_nonneg (Int.mul_nonneg hlow hout) hin.le, Int.ediv_le_of_le_mul hin ?_⟩
  rw [Int.mul_comm a.outSpan]
  exact Int.mul_le_mul_of_nonneg_right hhigh hout

/-- R128's product is below 2^24: at most 2^16 - 1 times 2^8 - 1. -/
theorem AxisParams.product_lt (raw : U16) : (a.clamped raw - a.inMin.toInt) * a.outSpan < 2 ^ 24 := by
  obtain ⟨-, hhigh⟩ := clamped_bounds h raw
  have hin : a.inSpan ≤ 65535 := by
    have hmin := a.inMin.le_toInt
    have hmax := a.inMax.toInt_lt
    rw [inSpan]
    omega
  have hout : a.outSpan ≤ 255 := by
    have hhi := a.outHi.isLt
    rw [outSpan]
    omega
  calc
    (a.clamped raw - a.inMin.toInt) * a.outSpan ≤ 65535 * 255 :=
      Int.mul_le_mul (hhigh.trans hin) hout (outSpan_nonneg h) (by decide)
    _ < 2 ^ 24 := by decide

/-! ### The ends of the range -/

theorem AxisParams.rescaled_of_le_min {raw : U16} (hraw : raw.toInt ≤ a.inMin.toInt) : a.rescaled raw = 0 := by
  have hin := (a.wf_iff.mp h).1
  have hclamped : a.clamped raw - a.inMin.toInt = 0 := by rw [clamped]; omega
  rw [rescaled, hclamped, Int.zero_mul, Int.zero_ediv]

theorem AxisParams.rescaled_of_max_le {raw : U16} (hraw : a.inMax.toInt ≤ raw.toInt) : a.rescaled raw = a.outSpan := by
  have hin := (a.wf_iff.mp h).1
  have hclamped : a.clamped raw - a.inMin.toInt = a.inSpan := by rw [clamped, inSpan]; omega
  rw [rescaled, hclamped, Int.mul_ediv_cancel_left _ (inSpan_pos h).ne']

end

end Sys2Proof

namespace Sys2Proof.Machine

/-! ### The scaled byte -/

/-- The scaled byte before it is cut to 8 bits (R128). -/
def scaledValue (a : AxisParams) (inverted : Bool) (raw : U16) : Int :=
  if inverted then a.outHi.toNat - a.rescaled raw else a.outLo.toNat + a.rescaled raw

theorem scaleWith_eq (a : AxisParams) (inverted : Bool) (raw : U16) :
    scaleWith a inverted raw = BitVec.ofInt 8 (scaledValue a inverted raw) := rfl

theorem scaleWith_eq_of_scaledValue {a : AxisParams} {inverted : Bool} {raw : U16} {b : Byte}
    (hvalue : scaledValue a inverted raw = b.toNat) : scaleWith a inverted raw = b := by
  rw [scaleWith_eq, hvalue, BitVec.ofInt_natCast, BitVec.ofNat_toNat, BitVec.setWidth_eq]

section
variable {a : AxisParams} (h : a.wf = true)
include h

theorem scaledValue_bounds (inverted : Bool) (raw : U16) :
    (a.outLo.toNat : Int) ≤ scaledValue a inverted raw ∧ scaledValue a inverted raw ≤ a.outHi.toNat := by
  obtain ⟨hlow, hhigh⟩ := AxisParams.rescaled_bounds h raw
  rw [AxisParams.outSpan] at hhigh
  cases inverted <;> simp only [scaledValue, Bool.false_eq_true, if_true, if_false] <;> omega

/-- The formula's value is a byte, so the cut to 8 bits keeps it (R128). -/
theorem scaleWith_toNat (inverted : Bool) (raw : U16) :
    ((scaleWith a inverted raw).toNat : Int) = scaledValue a inverted raw := by
  obtain ⟨hlow, hhigh⟩ := scaledValue_bounds h inverted raw
  have hbyte := a.outHi.isLt
  rw [scaleWith_eq, BitVec.toNat_ofInt]
  omega

theorem scaleWith_bounds (inverted : Bool) (raw : U16) :
    a.outLo ≤ scaleWith a inverted raw ∧ scaleWith a inverted raw ≤ a.outHi := by
  obtain ⟨hlow, hhigh⟩ := scaledValue_bounds h inverted raw
  have hvalue := scaleWith_toNat h inverted raw
  rw [BitVec.le_def, BitVec.le_def]
  omega

theorem scaleWith_of_le_min (inverted : Bool) {raw : U16} (hraw : raw.toInt ≤ a.inMin.toInt) :
    scaleWith a inverted raw = if inverted then a.outHi else a.outLo := by
  have hzero := AxisParams.rescaled_of_le_min h hraw
  refine scaleWith_eq_of_scaledValue ?_
  cases inverted <;> simp [scaledValue, hzero]

theorem scaleWith_of_max_le (inverted : Bool) {raw : U16} (hraw : a.inMax.toInt ≤ raw.toInt) :
    scaleWith a inverted raw = if inverted then a.outLo else a.outHi := by
  have hspan := AxisParams.rescaled_of_max_le h hraw
  refine scaleWith_eq_of_scaledValue ?_
  cases inverted <;> simp [scaledValue, hspan, AxisParams.outSpan]

end

/-- Settles O26. -/
theorem scaleClampsAndRescales : Obligations.ScaleClampsAndRescales :=
  fun a inverted raw h =>
    ⟨a.clamped raw, a.rescaled raw, rfl, rfl, scaleWith_toNat h inverted raw, AxisParams.product_lt h raw,
      (scaleWith_bounds h inverted raw).1, (scaleWith_bounds h inverted raw).2, scaleWith_of_le_min h inverted,
      scaleWith_of_max_le h inverted⟩

end Sys2Proof.Machine
end

section
/-! PROOFS. The command NOP of the external interface (R133). -/

namespace Sys2Proof.Machine

/-- The effect of NOP is the identity on the whole state, whatever the phase (R133). -/
@[simp] theorem exec_nop (s : State) : exec .nop s = .next s := rfl

/-- Settles O1: the code by evaluation, and the effect in every state by `exec_nop`. -/
theorem nopChangesNothing : Obligations.NopChangesNothing :=
  ⟨rfl, exec_nop⟩

end Sys2Proof.Machine
end

section
/-! PROOFS. The exceptional conditions (60_exceptions.md): what the refused commands, the ignored tick and the undefined
codes do (R152, R154, R155), and that each STATUS bit is set by its own condition alone (R151). -/

namespace Sys2Proof.Machine

/-! ### The refusals -/

/-- Settles O8: an ignored tick is `raise` alone. -/
theorem tickInIdleIsIgnored : Obligations.TickInIdleIsIgnored :=
  ⟨rfl, fun _ => exec_tick_idle⟩

/-- Settles O12: each of the three commands checks the phase before anything else. -/
theorem componentCommandsRefusedInSession : Obligations.ComponentCommandsRefusedInSession := by
  rintro i s (rfl | rfl | rfl) hsession
  · exact exec_derive_busy hsession
  · exact exec_setaddr_busy hsession
  · exact exec_encode_busy hsession

/-- Settles O13: the effect at the command port, and the count of codes by evaluation. -/
theorem undefinedCodeOnlySetsIllCmd : Obligations.UndefinedCodeOnlySetsIllCmd :=
  ⟨fun _ s hundefined => issue_undefined hundefined s, by decide +kernel⟩

/-! ### One STATUS bit after each operation -/

@[simp] theorem statusBit_stopSession (b : StatusBit) (ok : Bool) (s : State) :
    statusBit b (stopSession ok s) = statusBit b s := rfl

@[simp] theorem statusBit_identityDerive (b : StatusBit) (s : State) :
    statusBit b (identityDerive s) = statusBit b s := rfl

@[simp] theorem statusBit_setActiveAddress (b : StatusBit) (a : Vector Byte 5) (s : State) :
    statusBit b (setActiveAddress a s) = statusBit b s := rfl

@[simp] theorem statusBit_encodeFrame (b : StatusBit) (payload : List Byte) (s : State) :
    statusBit b (encodeFrame payload s) = statusBit b s := rfl

@[simp] theorem statusBit_finishTick_liveTick (b : StatusBit) (s : State) :
    statusBit b (finishTick (liveTick s)) = statusBit b s := by
  rw [statusBit, finishTick_status, liveTick_status, statusBit]

@[simp] theorem statusBit_raise (b c : StatusBit) (s : State) :
    statusBit b (raise c s) = (statusBit b s || decide (c = b)) :=
  getLsbD_setStatusBit c b s.status

/-- INIT and REBIND clear BIND_DONE and leave the other bits (R118). -/
@[simp] theorem statusBit_startSession (b : StatusBit) (s : State) :
    statusBit b (startSession s) = (statusBit b s && !decide (StatusBit.bindDone = b)) :=
  getLsbD_clearStatusBit .bindDone b s.status

/-- A bind tick sets BIND_DONE when it completes the bind, and no other bit (R124). -/
@[simp] theorem statusBit_finishTick_bindTick (b : StatusBit) (s : State) :
    statusBit b (finishTick (bindTick s)) = (statusBit b s || decide (s.count = 1 ∧ StatusBit.bindDone = b)) := by
  rw [statusBit, finishTick_status, bindTick_status, ← setStatusBit_bindDone, statusBit]
  by_cases hlast : s.count = 1
  · simp only [hlast, if_true, getLsbD_setStatusBit, true_and]
  · rw [if_neg hlast, decide_eq_false (not_and_of_not_left _ hlast), Bool.or_false]

@[simp] theorem statusBit_assertReset (b : StatusBit) (s : State) : statusBit b (assertReset s) = false :=
  BitVec.getLsbD_zero

/-- A register write sets no STATUS bit: it reaches STATUS at its own offset alone, where it can only clear (R23). -/
theorem statusBit_memWrite_of_clear {b : StatusBit} {s : State} (hclear : statusBit b s = false) (off v : Byte) :
    statusBit b (memWrite off v s) = false := by
  rw [memWrite]
  cases regAt off with
  | status =>
    have hbit : s.status.getLsbD (statusIndex b) = false := hclear
    simp only [writeReg, statusBit, getLsbD_writeOneToClear, hbit, Bool.false_and]
  | _ => exact hclear

/-! ### The conditions of R151 -/

/-- The code an input writes to `CMD`, whoever issues it (R164); none when it writes no code. -/
def codeWritten : Input → Option Byte
  | .hostWrite off v => if off = 0#8 then some v else none
  | .schedTick => some Instr.tick.code
  | .hostRead _ | .reset => none

theorem writesCode_iff (code : Byte) (x : Input) : writesCode code x = true ↔ codeWritten x = some code := by
  cases x with
  | hostWrite off v => simp [writesCode, codeWritten]
  | schedTick => rw [writesCode, codeWritten, beq_iff_eq, Option.some_inj, eq_comm, Instr.code]
  | hostRead off => simp [writesCode, codeWritten]
  | reset => simp [writesCode, codeWritten]

/-- The condition of each STATUS bit for a code written to `CMD`, from state s to state t (R151 to R155, R124). -/
def StatusCondition (written : Option Byte) (s t : State) : StatusBit → Prop
  | .illCmd => ∃ code, written = some code ∧ code ∉ definedCodes
  | .lenErr => written = some Instr.encode.code ∧ s.phase = .idle ∧ 15 < s.plen.toNat
  | .busyErr =>
    (written = some Instr.derive.code ∨ written = some Instr.setaddr.code ∨ written = some Instr.encode.code) ∧
      s.phase ≠ .idle
  | .tickIgn => written = some Instr.tick.code ∧ s.phase = .idle
  | .bindDone => written = some Instr.tick.code ∧ s.phase = .binding ∧ t.phase = .live

theorem not_statusCondition_none (s t : State) (b : StatusBit) : ¬ StatusCondition none s t b := by
  cases b <;> simp [StatusCondition]

/-- An undefined code meets the condition of ILL_CMD alone. -/
theorem statusCondition_undefined {code : Byte} (h : code ∉ definedCodes) (s t : State) (b : StatusBit) :
    StatusCondition (some code) s t b ↔ StatusBit.illCmd = b := by
  have hne (i : Instr) : code ≠ i.code := fun heq => h (heq ▸ code_mem_definedCodes i)
  cases b <;> simp [StatusCondition, h, hne]

/-- Distinct commands have distinct codes (R81). -/
@[simp] theorem code_inj {i j : Instr} : i.code = j.code ↔ i = j := by
  refine ⟨fun h => ?_, congrArg Instr.code⟩
  have hdecode : decode [i.code] = .ok (j, []) := h ▸ decode_encode_append j []
  cases (decode_encode_append i []).symm.trans hdecode
  rfl

/-- R151 over the commands, bit by bit: the code of a command is defined, so none meets the condition of ILL_CMD. -/
theorem statusCondition_command (i : Instr) (s t : State) (b : StatusBit) :
    StatusCondition (some i.code) s t b ↔
      (StatusBit.lenErr = b ∧ i = .encode ∧ s.phase = .idle ∧ 15 < s.plen.toNat) ∨
      (StatusBit.busyErr = b ∧ (i = .derive ∨ i = .setaddr ∨ i = .encode) ∧ s.phase ≠ .idle) ∨
      (StatusBit.tickIgn = b ∧ i = .tick ∧ s.phase = .idle) ∨
      (StatusBit.bindDone = b ∧ i = .tick ∧ s.phase = .binding ∧ t.phase = .live) := by
  cases b <;> simp [StatusCondition, code_mem_definedCodes]

/-- A command sets a clear bit exactly on the bit's condition. -/
theorem exec_sets_statusBit_iff {i : Instr} {s t : State} {b : StatusBit} (h : exec i s = .next t)
    (hclear : statusBit b s = false) : statusBit b t = true ↔ StatusCondition (some i.code) s t b := by
  rw [statusCondition_command]
  rcases exec_cases h with hnop | hstart | hstop | hderive | hsetaddr | hencode | htooLong | hbusy | hignored |
    hbinding | hlive
  · obtain ⟨rfl, rfl⟩ := hnop
    simp [hclear]
  · obtain ⟨rfl | rfl, rfl⟩ := hstart <;> simp [hclear]
  · obtain ⟨rfl, rfl⟩ := hstop
    simp [hclear]
  · obtain ⟨rfl, hidle, rfl⟩ := hderive
    simp [hclear, hidle]
  · obtain ⟨rfl, hidle, rfl⟩ := hsetaddr
    simp [hclear, hidle]
  · obtain ⟨rfl, hidle, hshort, rfl⟩ := hencode
    simp [hclear, hidle, hshort]
  · obtain ⟨rfl, hidle, hlong, rfl⟩ := htooLong
    simp [hclear, hidle, hlong]
  · obtain ⟨rfl | rfl | rfl, hsession, rfl⟩ := hbusy <;> simp [hclear, hsession]
  · obtain ⟨rfl, hidle, rfl⟩ := hignored
    simp [hclear, hidle]
  · obtain ⟨rfl, hbinding, rfl⟩ := hbinding
    simp [hclear, hbinding, bindTick_phase, and_comm]
  · obtain ⟨rfl, hlive, rfl⟩ := hlive
    simp [hclear, hlive]

/-- An input sets a clear bit exactly on the bit's condition: one that writes no code sets none, an undefined code sets
ILL_CMD, and a command is `exec_sets_statusBit_iff`. -/
theorem serve_sets_statusBit_iff {x : Input} {s t : State} {b : StatusBit} (h : serve x s = .next t)
    (hclear : statusBit b s = false) : statusBit b t = true ↔ StatusCondition (codeWritten x) s t b := by
  have hnone (hstays : statusBit b t = false) : statusBit b t = true ↔ StatusCondition none s t b :=
    iff_of_false (ne_true_of_eq_false hstays) (not_statusCondition_none s t b)
  rcases serve_cases h with ⟨off, rfl, rfl⟩ | ⟨off, v, rfl, hoff, rfl⟩ | ⟨i, rfl, hexec⟩ | ⟨rfl, hexec⟩ |
    ⟨code, rfl, hundefined, rfl⟩ | ⟨rfl, rfl⟩
  · exact hnone hclear
  · rw [codeWritten, if_neg hoff]
    exact hnone (statusBit_memWrite_of_clear hclear off v)
  · exact exec_sets_statusBit_iff hexec hclear
  · have hcondition : StatusCondition (some Instr.tick.code) (noteTickIssued s) t b ↔
        StatusCondition (some Instr.tick.code) s t b := by
      simp only [statusCondition_command, noteTickIssued_phase, noteTickIssued_plen]
    exact (exec_sets_statusBit_iff hexec hclear).trans hcondition
  · rw [codeWritten, if_pos rfl, statusCondition_undefined hundefined]
    simp [hclear]
  · exact hnone (statusBit_assertReset b s)

/-- Settles O41: the conditions of the statement are those of `StatusCondition`, over the code an input writes. -/
theorem statusBitsSetByTheirConditions : Obligations.StatusBitsSetByTheirConditions := by
  intro x s t b h hclear
  simp only [writesCode_iff]
  cases b <;> exact serve_sets_statusBit_iff h hclear

end Sys2Proof.Machine
end

section
/-! PROOFS. The reset input (R170): whatever state it finds, the registers read as they do right after power-on. -/

namespace Sys2Proof.Machine

/-- What an assertion of reset keeps (log 6) lies outside the register space. -/
theorem readReg_assertReset (s : State) (r : RegByte) : readReg (assertReset s) r = readReg State.reset r := by
  cases r <;> rfl

theorem memRead_assertReset (s : State) (off : Byte) : memRead (assertReset s) off = resetByte off :=
  calc memRead (assertReset s) off
    _ = memRead State.reset off := readReg_assertReset s (regAt off)
    _ = resetByte off := memRead_reset off

/-- Settles O33: serving reset answers `assertReset s`, whose image is that of R54. -/
theorem resetInputRestoresRegisters : Obligations.ResetInputRestoresRegisters :=
  fun s => ⟨assertReset s, rfl, memRead_assertReset s, assertReset_events s, assertReset_sched s⟩

end Sys2Proof.Machine
end

section
/-! PROOFS. The frame format (30_encoding.md section 3, 41_codec.md): the checksum bit by bit (R104), the byte equations
(R87), the length law (R88) and the inverse (R89). -/

namespace Sys2Proof.Machine

/-! ### The checksum as the bit-serial register -/

theorem crcSerial_append (c : U16) (xs ys : List Bool) : crcSerial c (xs ++ ys) = crcSerial (crcSerial c xs) ys :=
  List.foldl_append

/-- Byte updates and one final bit are the bit-serial register over all those bits (R104; log 8). -/
theorem crcUpdate_crcBytes_bit (c : U16) (bytes : List Byte) {last : Byte} (h : last.extractLsb' 0 7 = 0) :
    crcUpdate (crcBytes c bytes) last 1 = crcSerial c (bytes.flatMap bitsOf ++ [last.msb]) := by
  rw [crcUpdate_bit _ _ h, crcBytes_eq_serial, crcSerial_append]
  rfl

/-- Settles O19. -/
theorem byteUpdatesEqualBitSerialRegister : Obligations.ByteUpdatesEqualBitSerialRegister :=
  fun c bytes _ => crcUpdate_crcBytes_bit c bytes

/-! ### The bytes of framing steps 1 to 4 -/

/-- The whole bytes of framing steps 1 to 4; the final single bit is `lastBit` of the scrambled payload (R113). -/
def wholeBytes (x : CodecContext) (payload : List Byte) : List Byte :=
  [x.guardByte, x.guardByte, controlByte payload.length x.packetId] ++ shiftedBytes true (scramble x.scr payload)

theorem length_wholeBytes (x : CodecContext) {payload : List Byte} (h : payload.length ≤ 15) :
    (wholeBytes x payload).length = 3 + payload.length := by
  rw [wholeBytes, List.length_append, length_shiftedBytes, length_scramble x.scr payload h]
  rfl

/-- Whatever bits follow those of steps 1 to 4, the final single bit joins them (R112, R113). -/
theorem packBytes_plainBits_append (x : CodecContext) (payload : List Byte) (w : List Bool) :
    packBytes (plainBits x payload ++ w) =
      wholeBytes x payload ++ packBytes (lastBit (scramble x.scr payload) :: w) := by
  simp only [plainBits, List.append_assoc, packBytes_byte, List.singleton_append]
  rw [List.cons_append, packBytes_shiftedBytes]
  rfl

/-- Bytes one bit off the boundary hold the bits of the bytes they come from, one bit earlier. -/
theorem flatMap_bitsOf_shiftedBytes (x : Bool) (bs : List Byte) :
    (shiftedBytes x bs).flatMap bitsOf ++ [((bs.getLast?).map fun b => b.getLsbD 0).getD x] =
      x :: bs.flatMap bitsOf := by
  have hbits : ∀ (y : Bool) (b : Byte), bitsOf (BitVec.ofBool y ++ b.extractLsb' 1 7) ++ [b.getLsbD 0] =
      y :: bitsOf b := by decide +kernel
  induction bs generalizing x with
  | nil => rfl
  | cons b rest ih =>
    have hlast : ((b :: rest).getLast?.map fun b => b.getLsbD 0).getD x =
        (rest.getLast?.map fun b => b.getLsbD 0).getD (b.getLsbD 0) := by
      cases rest <;> simp [List.getLast?_cons]
    rw [hlast, shiftedBytes, List.flatMap_cons, List.append_assoc, ih, List.append_cons, hbits, List.flatMap_cons,
      List.cons_append]

/-- The whole bytes and the final single bit are all the bits of steps 1 to 4. -/
theorem flatMap_bitsOf_wholeBytes (x : CodecContext) (payload : List Byte) :
    (wholeBytes x payload).flatMap bitsOf ++ [lastBit (scramble x.scr payload)] = plainBits x payload := by
  rw [wholeBytes, List.flatMap_append, List.append_assoc, lastBit, flatMap_bitsOf_shiftedBytes]
  simp [plainBits]

/-- The checksum covers every bit of steps 1 to 4, in stream order (R104, R113). -/
theorem frameChecksum_eq_crcSerial (x : CodecContext) {payload : List Byte} (h : payload.length ≤ 15) :
    frameChecksum x payload = crcSerial x.seed (plainBits x payload) := by
  have hpadded : ∀ y : Bool, (BitVec.ofBool y ++ 0#7).extractLsb' 0 7 = 0 ∧ (BitVec.ofBool y ++ 0#7).msb = y := by
    decide
  have hbytes : packBytes (plainBits x payload) =
      wholeBytes x payload ++ [BitVec.ofBool (lastBit (scramble x.scr payload)) ++ 0#7] := by
    rw [← packBytes_one, ← packBytes_plainBits_append, List.append_nil]
  obtain ⟨hlow, hmsb⟩ := hpadded (lastBit (scramble x.scr payload))
  rw [frameChecksum, hbytes, ← length_wholeBytes x h, List.take_left, List.getD_append_right _ _ _ _ le_rfl,
    Nat.sub_self, List.getD_cons_zero, crcUpdate_crcBytes_bit _ _ hlow, hmsb, flatMap_bitsOf_wholeBytes]

/-- Settles O20. -/
theorem frameChecksumCoversEveryBit : Obligations.FrameChecksumCoversEveryBit :=
  fun x _ h => ⟨length_plainBits x h, frameChecksum_eq_crcSerial x h⟩

/-! ### The byte equations -/

/-- The length stands above the packet id, which takes the two low bits (R85). -/
theorem controlByte_eq {len : Nat} (h : len ≤ 15) (packetId : BitVec 2) :
    controlByte len packetId = BitVec.ofNat 8 (len <<< 2 ||| packetId.toNat) := by
  have hall : ∀ (n : Fin 16) (p : BitVec 2), controlByte n p = BitVec.ofNat 8 (n.val <<< 2 ||| p.toNat) := by
    decide +kernel
  exact hall ⟨len, by omega⟩ packetId

/-- The bits of a value put above another are its bits, then the other's (R108). -/
theorem bitsOf_append {m n : Nat} (v : BitVec m) (w : BitVec n) : bitsOf (v ++ w) = bitsOf v ++ bitsOf w := by
  apply List.ext_getElem (by simp)
  intro j hj _
  by_cases hjm : j < m
  · simp [bitsOf, BitVec.getMsbD_append, hjm]
  · have hle : m ≤ j := Nat.le_of_not_lt hjm
    simp [bitsOf, BitVec.getMsbD_append, hle]

/-- Some bits of a byte of a value are bits of the value. -/
theorem extractLsb'_getByte {n : Nat} (w : BitVec n) (i start len : Nat) (h : start + len ≤ 8) :
    (getByte w i).extractLsb' start len = w.extractLsb' (8 * i + start) len := by
  ext j hj
  have hbit : start + j < 8 := by omega
  simp [getByte, hbit, Nat.add_assoc]

/-- Bit 0 of a byte as a one-bit word. -/
theorem ofBool_getLsbD_zero (b : Byte) : BitVec.ofBool (b.getLsbD 0) = b.extractLsb' 0 1 := by
  revert b; decide +kernel

/-- The checksum lies across three bytes, one bit off the byte boundary (R87, R113). -/
theorem packBytes_shifted_word (x : Bool) (k : U16) :
    packBytes (x :: bitsOf k) = [BitVec.ofBool x ++ k.extractLsb' 9 7, k.extractLsb' 1 8, k.extractLsb' 0 1 ++ 0#7] := by
  have hmiddle : k.extractLsb' 8 1 ++ k.extractLsb' 1 7 = k.extractLsb' 1 8 :=
    BitVec.extractLsb'_append_extractLsb'_eq_extractLsb' rfl
  have hbytes : bitsOf k = bitsOf (getByte k 1) ++ (bitsOf (getByte k 0) ++ []) := by
    rw [List.append_nil, ← bitsOf_append, append_getByte_sixteen]
  rw [hbytes, packBytes_shifted, packBytes_shifted, packBytes_one, ofBool_getLsbD_zero, ofBool_getLsbD_zero,
    extractLsb'_getByte k 1 1 7 (by decide), extractLsb'_getByte k 1 0 1 (by decide),
    extractLsb'_getByte k 0 1 7 (by decide), extractLsb'_getByte k 0 0 1 (by decide), hmiddle]

theorem buildFrame_eq_frameByBytes (x : CodecContext) {payload : List Byte} (h : payload.length ≤ 15) :
    buildFrame x payload =
      frameByBytes x.guardByte (BitVec.ofNat 8 (payload.length <<< 2 ||| x.packetId.toNat))
        (scramble x.scr payload) (if x.crcOn then some (frameChecksum x payload) else none) := by
  rw [buildFrame, frameBits, ← controlByte_eq h]
  by_cases hcrc : x.crcOn = true
  · rw [if_pos hcrc, if_pos hcrc, packBytes_plainBits_append, packBytes_shifted_word]
    rfl
  · rw [if_neg hcrc, if_neg hcrc, ← List.append_nil (plainBits x payload), packBytes_plainBits_append, packBytes_one]
    rfl

/-- Settles O21: the scrambled bytes the statement writes out are `scramble`'s. -/
theorem frameMatchesByteEquations : Obligations.FrameMatchesByteEquations :=
  fun x _ h => buildFrame_eq_frameByBytes x h

/-- Settles O22. -/
theorem frameLengthLaw : Obligations.FrameLengthLaw :=
  fun x _ h => length_buildFrame x h

/-! ### The inverse -/

/-- R89's realignment of a byte sequence that starts one bit off: n bytes, each from seven bits of one byte and the top
bit of the next. -/
def realign (n : Nat) (f : List Byte) : List Byte :=
  (List.range n).map fun i => (f.getD i 0).extractLsb' 0 7 ++ (f.getD (i + 1) 0).extractLsb' 7 1

theorem realign_succ (n : Nat) (a : Byte) (f : List Byte) :
    realign (n + 1) (a :: f) = (a.extractLsb' 0 7 ++ (f.getD 0 0).extractLsb' 7 1) :: realign n f := by
  rw [realign, List.range_succ_eq_map, List.map_cons, List.map_map]
  rfl

/-- `unpackByte` realigns what stands behind the guard bytes and the control byte. -/
theorem map_unpackByte (n : Nat) (a b c : Byte) (f : List Byte) :
    (List.range n).map (unpackByte (a :: b :: c :: f)) = realign n f := by
  refine List.map_congr_left fun i _ => ?_
  rw [unpackByte, Nat.add_comm 3 i, Nat.add_comm 4 i]
  rfl

@[simp] theorem topBit_ofBool_append (y : Bool) (v : BitVec 7) : (BitVec.ofBool y ++ v).getLsbD 7 = y := by
  simp only [BitVec.getLsbD_append, BitVec.getLsbD_ofBool]
  rfl

/-- The bit the shift begins with, found again on top of the first byte. -/
theorem topBit_shiftedBytes_append {x : Bool} {bs : List Byte} {e : Byte} (tail : List Byte)
    (he : e.getLsbD 7 = ((bs.getLast?).map fun b => b.getLsbD 0).getD x) :
    ((shiftedBytes x bs ++ e :: tail).getD 0 0).getLsbD 7 = x := by
  cases bs with
  | nil => exact he
  | cons b rest => exact topBit_ofBool_append x _

/-- Realigning undoes the shift, when the byte after the shifted ones begins with the last bit (R87, R89). -/
theorem realign_shiftedBytes {x : Bool} {bs : List Byte} {e : Byte} (tail : List Byte)
    (he : e.getLsbD 7 = ((bs.getLast?).map fun b => b.getLsbD 0).getD x) :
    realign bs.length (shiftedBytes x bs ++ e :: tail) = bs := by
  have hbyte : ∀ (y : Bool) (b : Byte), (BitVec.ofBool y ++ b.extractLsb' 1 7).extractLsb' 0 7 ++
      BitVec.ofBool (b.getLsbD 0) = b := by decide +kernel
  have htop : ∀ b : Byte, b.extractLsb' 7 1 = BitVec.ofBool (b.getLsbD 7) := by decide +kernel
  induction bs generalizing x with
  | nil => rfl
  | cons b rest ih =>
    have hrest : e.getLsbD 7 = ((rest.getLast?).map fun b => b.getLsbD 0).getD (b.getLsbD 0) := by
      rw [he]; cases rest <;> simp [List.getLast?_cons]
    rw [shiftedBytes, List.cons_append, List.length_cons, realign_succ, htop,
      topBit_shiftedBytes_append tail hrest, hbyte, ih hrest]

/-- A frame's control byte gives the length back (R85). -/
theorem controlByte_length {len : Nat} (h : len ≤ 15) (packetId : BitVec 2) :
    ((controlByte len packetId).extractLsb' 2 6).toNat = len := by
  have hlen : (controlByte len packetId).extractLsb' 2 6 = BitVec.ofNat 6 len :=
    BitVec.extractLsb'_append_eq_left
  rw [hlen, BitVec.toNat_ofNat, Nat.mod_eq_of_lt (by omega)]

/-- XOR with the scramble bytes a second time gives the payload back (R89, R112). -/
theorem scramble_scramble (scr : Vector Byte 15) {payload : List Byte} (h : payload.length ≤ 15) :
    scramble scr (scramble scr payload) = payload := by
  apply List.ext_getElem (by simp [scramble, h])
  intro j _ _
  simp [scramble]

/-- A frame: the whole bytes, a byte that begins with the final single bit, and the rest of the checksum if it is on
(R87). -/
theorem buildFrame_eq_wholeBytes (x : CodecContext) (payload : List Byte) :
    ∃ e tail, buildFrame x payload = wholeBytes x payload ++ e :: tail ∧
      e.getLsbD 7 = lastBit (scramble x.scr payload) := by
  rw [buildFrame, frameBits]
  by_cases hcrc : x.crcOn = true
  · rw [if_pos hcrc, packBytes_plainBits_append, packBytes_shifted_word]
    exact ⟨_, _, rfl, topBit_ofBool_append _ _⟩
  · rw [if_neg hcrc, ← List.append_nil (plainBits x payload), packBytes_plainBits_append, packBytes_one]
    exact ⟨_, _, rfl, topBit_ofBool_append _ _⟩

/-- Settles O23: the control byte gives the length, realigning the scrambled bytes, and a second XOR the payload. -/
theorem unpackingRecoversPayload : Obligations.UnpackingRecoversPayload := by
  intro x payload h
  obtain ⟨e, tail, hframe, hlast⟩ := buildFrame_eq_wholeBytes x payload
  have hunpacked : realign payload.length (shiftedBytes true (scramble x.scr payload) ++ e :: tail) =
      scramble x.scr payload := by
    simpa only [length_scramble x.scr payload h] using realign_shiftedBytes tail hlast
  rw [hframe, wholeBytes]
  refine ⟨?unpack, topBit_shiftedBytes_append tail hlast⟩
  case unpack =>
    calc unpackFrame x.scr _
      _ = scramble x.scr (realign ((controlByte payload.length x.packetId).extractLsb' 2 6).toNat
            (shiftedBytes true (scramble x.scr payload) ++ e :: tail)) :=
        congrArg (scramble x.scr) (map_unpackByte _ _ _ _ _)
      _ = payload := by rw [controlByte_length h, hunpacked, scramble_scramble x.scr h]

end Sys2Proof.Machine
end

section
/-! PROOFS. The invariants of R53: they hold at reset, each operation keeps them, and so does every step. -/

namespace Sys2Proof.Machine

/-! ### At reset -/

/-- The reset values meet R53 whatever the parameters, as long as those are legal. -/
theorem inv_assertReset {s : State} (hparams : s.params.wf = true) : Inv (assertReset s) where
  paramsLegal := hparams
  cursorInTable := BitVec.isLt _
  bindingCount := nofun
  liveCount := nofun
  bindingAddress := nofun
  liveAddress := nofun
  powerBelowCeiling := BitVec.le_def.mpr (Nat.zero_le _)
  seedOfAddress := checksumSeedFoldsAddressInReverse.2.1.symm
  frameLengthLegal := .inl rfl
  framePadded j _ := Vector.getElem_replicate j.isLt

/-- Settles O48: the power-on state is what an assertion of reset makes of it. -/
theorem invariantsHoldAtReset : Obligations.InvariantsHoldAtReset :=
  inv_assertReset (s := State.reset) Config.params_wf

/-! ### The operations -/

section
variable {s : State}

theorem Inv.withInputs (h : Inv s) (rest : List Input) : Inv (withInputs rest s) := { h with }

theorem Inv.noteTickIssued (h : Inv s) : Inv (noteTickIssued s) := { h with }

theorem Inv.hostRead (h : Inv s) (off : Byte) : Inv (hostRead off s) := { h with }

theorem Inv.raise (h : Inv s) (b : StatusBit) : Inv (raise b s) := { h with }

theorem Inv.emit (h : Inv s) (e : Event) : Inv (emit e s) := { h with }

/-- A host write reaches no register that R53 speaks of. -/
theorem Inv.memWrite (h : Inv s) (off v : Byte) : Inv (memWrite off v s) := by
  rw [Machine.memWrite]
  cases regAt off <;> exact { h with }

/-- Outside a session nothing binds the active address to the identity. -/
theorem Inv.identityDerive (h : Inv s) (hidle : s.phase = .idle) : Inv (identityDerive s) :=
  { h with liveAddress := fun hlive => absurd (hidle.symm.trans hlive) (by decide) }

/-- The seed follows the active address (R106); the session invariants ask nothing outside a session. -/
theorem Inv.setActiveAddress (h : Inv s) (hidle : s.phase = .idle) (a : Vector Byte 5) :
    Inv (setActiveAddress a s) :=
  { h with
    bindingAddress := fun hbinding => absurd (hidle.symm.trans hbinding) (by decide)
    liveAddress := fun hlive => absurd (hidle.symm.trans hlive) (by decide)
    seedOfAddress := rfl }

/-- INV8: a payload of L bytes leaves a frame of 4 + L or 6 + L bytes, and 0x00 behind it (R88, R114). -/
theorem Inv.encodeFrame (h : Inv s) {payload : List Byte} (hlen : payload.length ≤ 15) :
    Inv (encodeFrame payload s) := by
  have hflen := encodeFrame_flen_toNat s hlen
  have hframe : (frameOf payload s).length = frameLength (crcEnabled s) payload.length :=
    length_buildFrame (codecContext s) hlen
  refine { h with frameLengthLegal := .inr ⟨payload.length, hlen, ?_⟩, framePadded := fun j hj => ?_ }
  · rw [hflen, hframe, frameLength]
    split <;> simp
  · rw [encodeFrame_frame, getElem_padVec]
    exact List.getD_eq_default _ _ (hflen ▸ hj)

theorem Inv.transmit (h : Inv s) (ch : Byte) {payload : List Byte} (hlen : payload.length ≤ 15) :
    Inv (transmit ch payload s) :=
  ((h.encodeFrame hlen).emit _).emit _

/-! ### The session commands -/

/-- R118: a fresh count, the bind address with its seed, and a level below the ceiling. -/
theorem Inv.startSession (h : Inv s) : Inv (startSession s) := by
  have hcount : 1 ≤ s.params.bindCount.toNat := by
    have hwf := h.paramsLegal
    simp only [Params.wf, Params.bindCountOk, Bool.and_eq_true, decide_eq_true_eq] at hwf
    omega
  rw [startSession_eq]
  exact
    { h with
      cursorInTable := BitVec.isLt _
      bindingCount := fun _ => ⟨hcount, le_rfl⟩
      liveCount := nofun
      bindingAddress := fun _ => rfl
      liveAddress := nofun
      powerBelowCeiling := appliedLevel_le s
      seedOfAddress := rfl }

theorem Inv.stopSession (h : Inv s) (ok : Bool) : Inv (stopSession ok s) :=
  { h with
    bindingCount := nofun
    liveCount := nofun
    bindingAddress := nofun
    liveAddress := nofun }

theorem length_bindPayload (s : State) : (bindPayload s).length = 15 := by
  rw [bindPayloadLayout s]
  rfl

theorem length_livePayload (s : State) : (livePayload s).length = 15 := by
  rw [livePayload_eq s]
  rfl

theorem Inv.finishTick (h : Inv s) : Inv (finishTick s) := by
  rw [finishTick_eq]
  exact { h with powerBelowCeiling := appliedLevel_le s }

/-- R126: the cursor wraps within the table. -/
theorem Inv.liveTick (h : Inv s) : Inv (liveTick s) :=
  { h.transmit s.idChan[s.cursor.toFin] (length_livePayload s).le with cursorInTable := BitVec.isLt _ }

/-- The last count leads to Live, with count 0 and the identity's address active (R124). -/
theorem Inv.bindComplete (h : Inv s) (hlast : s.count = 1) : Inv (bindComplete (countDown s)) :=
  { h with
    bindingCount := nofun
    liveCount := fun _ => by simp [hlast]
    bindingAddress := nofun
    liveAddress := fun _ => rfl
    seedOfAddress := rfl }

/-- Before the last bind tick the count stays above 0 (R122). -/
theorem Inv.countDown (h : Inv s) (hbinding : s.phase = .binding) (hmore : s.count ≠ 1) : Inv (countDown s) :=
  { h with
    bindingCount := fun _ => by
      have hcount := h.bindingCount hbinding
      simp only [countDown_count, countDown_params]
      bv_omega
    liveCount := fun hlive => absurd (hbinding.symm.trans hlive) (by decide) }

theorem Inv.bindTick (h : Inv s) (hbinding : s.phase = .binding) : Inv (bindTick s) := by
  have htransmitted := h.transmit s.params.bindCh (length_bindPayload s).le
  by_cases hlast : s.count = 1
  · rw [bindTick_last hlast]
    exact htransmitted.bindComplete hlast
  · rw [bindTick_more hlast]
    exact htransmitted.countDown hbinding hlast

end

/-! ### Every step -/

theorem Inv.exec {i : Instr} {s t : State} (h : Inv s) (hexec : exec i s = .next t) : Inv t := by
  rcases exec_cases hexec with ⟨-, rfl⟩ | ⟨-, rfl⟩ | ⟨-, rfl⟩ | ⟨-, hidle, rfl⟩ | ⟨-, hidle, rfl⟩ |
    ⟨-, -, hlen, rfl⟩ | ⟨-, -, -, rfl⟩ | ⟨-, -, rfl⟩ | ⟨-, -, rfl⟩ | ⟨-, hbinding, rfl⟩ | ⟨-, -, rfl⟩
  · exact h
  · exact h.startSession
  · exact h.stopSession _
  · exact h.identityDerive hidle
  · exact h.setActiveAddress hidle _
  · exact h.encodeFrame ((length_hostPayload hlen).trans_le hlen)
  · exact h.raise _
  · exact h.raise _
  · exact h.raise _
  · exact (h.bindTick hbinding).finishTick
  · exact h.liveTick.finishTick

theorem Inv.serve {x : Input} {s t : State} (h : Inv s) (hserve : serve x s = .next t) : Inv t := by
  rcases serve_cases hserve with ⟨_, -, rfl⟩ | ⟨_, _, -, -, rfl⟩ | ⟨_, -, hexec⟩ | ⟨-, hexec⟩ | ⟨_, -, -, rfl⟩ |
    ⟨-, rfl⟩
  · exact h.hostRead _
  · exact h.memWrite _ _
  · exact h.exec hexec
  · exact h.noteTickIssued.exec hexec
  · exact h.raise _
  · exact inv_assertReset h.paramsLegal

/-- Settles O49. -/
theorem everyStepKeepsInvariants : Obligations.EveryStepKeepsInvariants := by
  intro s t h hstep
  rcases step_cases hstep with ⟨-, rfl⟩ | ⟨x, rest, -, hserve⟩
  · exact h
  · exact (h.withInputs rest).serve hserve

end Sys2Proof.Machine
end

section
/-! PROOFS. The rules of the event stream (43_interface.md section 2): they hold at reset and every step keeps them. The
rules on single events and on what comes before them are put as one condition on each event, given those before it. -/

namespace Sys2Proof.Machine

/-! ### An event after those before it -/

/-- What the stream's rules ask of an event that comes after the given ones (R130, R136, R138, R140, R141, R143). -/
def MayFollow (p : Params) (before : List Event) : Event → Prop
  | .setChannel _ => .radioInit ∈ before
  | .setPower level => level ≤ p.pwrCeil ∧ .radioInit ∈ before
  | .writePayload bytes =>
    (bytes.length = 19 ∨ bytes.length = 21) ∧ .radioInit ∈ before ∧ ∃ earlier ch, before = earlier ++ [.setChannel ch]
  | .schedStart d => d = p.initWaitUs
  | .tickDone period => period = p.periodUs
  | .radioInit | .radioReset | .schedStop | .bindState _ => True

/-- Each event of a stream may follow those before it, the stream itself following the given events. -/
def LegalAfter (p : Params) : List Event → List Event → Prop
  | _, [] => True
  | before, e :: rest => MayFollow p before e ∧ LegalAfter p (before ++ [e]) rest

theorem legalAfter_append (p : Params) (before xs ys : List Event) :
    LegalAfter p before (xs ++ ys) ↔ LegalAfter p before xs ∧ LegalAfter p (before ++ xs) ys := by
  induction xs generalizing before with
  | nil => simp [LegalAfter]
  | cons e rest ih => simp [LegalAfter, ih, and_assoc]

theorem legalAfter_iff (p : Params) (start es : List Event) :
    LegalAfter p start es ↔ ∀ before e later, es = before ++ e :: later → MayFollow p (start ++ before) e := by
  constructor
  · rintro h before e later rfl
    exact ((legalAfter_append ..).mp h).2.1
  · intro h
    induction es generalizing start with
    | nil => trivial
    | cons first rest ih =>
      refine ⟨by simpa using h [] first rest rfl, ih _ fun before e later heq => ?_⟩
      simpa using h (first :: before) e later (by rw [heq]; rfl)

/-- The stream's rules in that form, beside those of the session. -/
theorem streamRules_iff (s : State) :
    StreamRules s ↔ LegalAfter s.params [] s.events ∧
      (s.phase ≠ .idle → .radioInit ∈ s.events ∧ s.sched = .armed s.nextPeriod) ∧
      (s.phase = .idle → s.sched = .stopped ∧ s.nextPeriod = 0) := by
  rw [legalAfter_iff]
  constructor
  · intro h
    refine ⟨fun before e later heq => ?_, fun hsession => ⟨h.sessionBroughtUp hsession, h.schedulerArmed hsession⟩,
      h.schedulerStopped⟩
    have hmem : e ∈ s.events := by simp [heq]
    cases e with
    | setChannel ch => exact h.radioBroughtUp _ _ _ heq rfl
    | setPower level => exact ⟨h.powerBelowCeiling _ hmem, h.radioBroughtUp _ _ _ heq rfl⟩
    | writePayload bytes =>
      exact ⟨h.payloadLength _ hmem, h.radioBroughtUp _ _ _ heq rfl, h.channelBeforePayload _ _ _ heq⟩
    | schedStart d => exact h.startDelay _ hmem
    | tickDone period => exact h.tickPeriod _ hmem
    | radioInit | radioReset | schedStop | bindState _ => trivial
  · rintro ⟨hlegal, hsession, hidle⟩
    have hmay {e : Event} (hmem : e ∈ s.events) : ∃ before, MayFollow s.params before e := by
      obtain ⟨before, later, heq⟩ := List.append_of_mem hmem
      exact ⟨_, hlegal before e later heq⟩
    exact
      { powerBelowCeiling := fun _ hmem => (hmay hmem).choose_spec.1
        payloadLength := fun _ hmem => (hmay hmem).choose_spec.1
        channelBeforePayload := fun _ _ _ heq => (hlegal _ _ _ heq).2.2
        radioBroughtUp := fun before e later heq huses => by
          have h := hlegal before e later heq
          cases e with
          | setChannel ch => exact h
          | setPower level => exact h.2
          | writePayload bytes => exact h.2.1
          | _ => exact Bool.noConfusion huses
        sessionBroughtUp := fun h => (hsession h).1
        startDelay := fun _ hmem => (hmay hmem).choose_spec
        tickPeriod := fun _ hmem => (hmay hmem).choose_spec
        schedulerArmed := fun h => (hsession h).2
        schedulerStopped := hidle }

/-! ### At reset -/

theorem streamRules_assertReset (s : State) : StreamRules (assertReset s) :=
  (streamRules_iff _).mpr ⟨trivial, fun h => absurd rfl h, fun _ => ⟨rfl, rfl⟩⟩

/-- Settles O50: the power-on state is what an assertion of reset makes of it. -/
theorem streamRulesHoldAtReset : Obligations.StreamRulesHoldAtReset :=
  streamRules_assertReset State.reset

/-! ### The operations that emit nothing -/

section
variable {s : State}

theorem StreamRules.withInputs (h : StreamRules s) (rest : List Input) : StreamRules (withInputs rest s) := { h with }

theorem StreamRules.hostRead (h : StreamRules s) (off : Byte) : StreamRules (hostRead off s) := { h with }

theorem StreamRules.raise (h : StreamRules s) (b : StatusBit) : StreamRules (raise b s) := { h with }

theorem StreamRules.identityDerive (h : StreamRules s) : StreamRules (identityDerive s) := { h with }

theorem StreamRules.setActiveAddress (h : StreamRules s) (a : Vector Byte 5) : StreamRules (setActiveAddress a s) :=
  { h with }

theorem StreamRules.encodeFrame (h : StreamRules s) (payload : List Byte) : StreamRules (encodeFrame payload s) :=
  { h with }

theorem StreamRules.memWrite (h : StreamRules s) (off v : Byte) : StreamRules (memWrite off v s) := by
  rw [Machine.memWrite]
  cases regAt off <;> exact { h with }

/-! ### The session commands -/

/-- INIT brings the radio up before it sets the power, and arms the scheduler with the hint it writes (R118). -/
theorem StreamRules.startSession (h : StreamRules s) : StreamRules (startSession s) := by
  obtain ⟨hlegal, -, -⟩ := (streamRules_iff s).mp h
  rw [startSession_eq, streamRules_iff]
  refine ⟨(legalAfter_append ..).mpr ⟨hlegal, ?_⟩, fun _ => ⟨by simp [startedState], rfl⟩, nofun⟩
  simp [LegalAfter, MayFollow, startedState, appliedLevel_le]

theorem StreamRules.stopSession (h : StreamRules s) (ok : Bool) : StreamRules (stopSession ok s) := by
  obtain ⟨hlegal, -, -⟩ := (streamRules_iff s).mp h
  rw [stopSession_eq, streamRules_iff]
  refine ⟨(legalAfter_append ..).mpr ⟨hlegal, ?_⟩, fun hsession => absurd rfl hsession, fun _ => ⟨rfl, rfl⟩⟩
  simp [LegalAfter, MayFollow]

/-- A session's frame has 15 payload bytes, so 19 bytes in all, or 21 with the checksum (R88). -/
theorem length_sessionFrame (s : State) {payload : List Byte} (h : payload.length = 15) :
    (frameOf payload s).length = if crcEnabled s then 21 else 19 :=
  (length_buildFrame (codecContext s) h.le).trans (by rw [h]; rfl)

/-- A transmission: the channel, then directly the frame (R138). -/
theorem legalAfter_transmission {before : List Event} (hup : .radioInit ∈ before) (ch : Byte) {payload : List Byte}
    (hlen : payload.length = 15) :
    LegalAfter s.params before [.setChannel ch, .writePayload (frameOf payload s)] := by
  have hframe : (frameOf payload s).length = 19 ∨ (frameOf payload s).length = 21 := by
    rw [length_sessionFrame s hlen]
    split <;> simp
  simp [LegalAfter, MayFollow, hup, hframe]

/-- The end of a tick: the power check's level is at most the ceiling, and the period is the parameters' (R121). -/
theorem legalAfter_tickEnd {before : List Event} (hup : .radioInit ∈ before) :
    LegalAfter s.params before (powerEvents s ++ [.tickDone s.params.periodUs]) := by
  rw [powerEvents]
  split <;> simp [LegalAfter, MayFollow, hup, appliedLevel_le]

/-- A whole tick: the transmission, the observer's 0 if the bind is complete, and the tick's end. -/
theorem legalAfter_tick (hlegal : LegalAfter s.params [] s.events) (hup : .radioInit ∈ s.events) (ch : Byte)
    {payload : List Byte} (hlen : payload.length = 15) (complete : Bool) :
    LegalAfter s.params [] (s.events ++ [.setChannel ch, .writePayload (frameOf payload s)] ++
      (if complete then [.bindState 0] else []) ++ powerEvents s ++ [.tickDone s.params.periodUs]) := by
  have hcompletion (before : List Event) :
      LegalAfter s.params before (if complete then [.bindState 0] else []) := by
    cases complete <;> simp [LegalAfter, MayFollow]
  rw [List.append_assoc _ (powerEvents s), legalAfter_append, legalAfter_append, legalAfter_append]
  exact ⟨⟨⟨hlegal, legalAfter_transmission hup ch hlen⟩, hcompletion _⟩, legalAfter_tickEnd (by simp [hup])⟩

/-- A tick in Binding arms the scheduler with the hint it writes, in Binding again or in Live. -/
theorem StreamRules.bindTick (h : StreamRules s) (hbinding : s.phase = .binding) :
    StreamRules (finishTick (bindTick s)) := by
  obtain ⟨hlegal, hsession, -⟩ := (streamRules_iff s).mp h
  obtain ⟨hup, -⟩ := hsession (by simp [hbinding])
  have hruns : (boundState s).phase ≠ .idle := by
    rw [boundState]
    split <;> exact Phase.noConfusion
  rw [finishTick_bindTick_eq hbinding, streamRules_iff]
  refine ⟨?legal, fun _ => ⟨by simp [boundState, hup], rfl⟩, fun hidle => absurd hidle hruns⟩
  case legal =>
    simpa [boundState] using legalAfter_tick hlegal hup s.params.bindCh (length_bindPayload s) (s.count = 1)

theorem StreamRules.liveTick (h : StreamRules s) (hlive : s.phase = .live) :
    StreamRules (finishTick (liveTick s)) := by
  obtain ⟨hlegal, hsession, -⟩ := (streamRules_iff s).mp h
  have hruns : s.phase ≠ .idle := by simp [hlive]
  obtain ⟨hup, -⟩ := hsession hruns
  rw [finishTick_liveTick_eq, streamRules_iff]
  refine ⟨?legal, fun _ => ⟨by simp [hoppedState, hup], rfl⟩, fun hidle => absurd hidle hruns⟩
  case legal =>
    simpa only [hoppedState, encodedFrame_eq_frameOf, Bool.false_eq_true, if_false, List.append_nil] using
      legalAfter_tick hlegal hup s.idChan[s.cursor.toFin] (length_livePayload s) false

end

/-! ### Every step -/

/-- In a session the scheduler's own state does not matter to a TICK, which arms it anyway. -/
theorem exec_tick_noteTickIssued {s : State} (h : s.phase ≠ .idle) :
    exec .tick (noteTickIssued s) = exec .tick s := by
  cases hphase : s.phase with
  | idle => exact absurd hphase h
  | binding =>
    rw [exec_tick_binding hphase, exec_tick_binding (s := noteTickIssued s) hphase, finishTick_bindTick_eq hphase,
      finishTick_bindTick_eq (s := noteTickIssued s) hphase]
    rfl
  | live =>
    rw [exec_tick_live hphase, exec_tick_live (s := noteTickIssued s) hphase, finishTick_liveTick_eq,
      finishTick_liveTick_eq]
    rfl

/-- A stopped scheduler's TICK leaves its state (R145), an armed one's comes back armed: its own move never shows. -/
theorem StreamRules.exec_schedTick (h : StreamRules s) : exec .tick (noteTickIssued s) = exec .tick s := by
  by_cases hidle : s.phase = .idle
  · have hstopped := (h.schedulerStopped hidle).1
    have hsame : noteTickIssued s = s := by
      rw [noteTickIssued, hstopped, schedulerIssues, ← hstopped]
    rw [hsame]
  · exact exec_tick_noteTickIssued hidle

theorem StreamRules.exec {i : Instr} {s t : State} (h : StreamRules s) (hexec : exec i s = .next t) :
    StreamRules t := by
  rcases exec_cases hexec with ⟨-, rfl⟩ | ⟨-, rfl⟩ | ⟨-, rfl⟩ | ⟨-, -, rfl⟩ | ⟨-, -, rfl⟩ | ⟨-, -, -, rfl⟩ |
    ⟨-, -, -, rfl⟩ | ⟨-, -, rfl⟩ | ⟨-, -, rfl⟩ | ⟨-, hbinding, rfl⟩ | ⟨-, hlive, rfl⟩
  · exact h
  · exact h.startSession
  · exact h.stopSession _
  · exact h.identityDerive
  · exact h.setActiveAddress _
  · exact h.encodeFrame _
  · exact h.raise _
  · exact h.raise _
  · exact h.raise _
  · exact h.bindTick hbinding
  · exact h.liveTick hlive

theorem StreamRules.serve {x : Input} {s t : State} (h : StreamRules s) (hserve : serve x s = .next t) :
    StreamRules t := by
  rcases serve_cases hserve with ⟨_, -, rfl⟩ | ⟨_, _, -, -, rfl⟩ | ⟨_, -, hexec⟩ | ⟨-, hexec⟩ | ⟨_, -, -, rfl⟩ |
    ⟨-, rfl⟩
  · exact h.hostRead _
  · exact h.memWrite _ _
  · exact h.exec hexec
  · exact h.exec (h.exec_schedTick.symm.trans hexec)
  · exact h.raise _
  · exact streamRules_assertReset s

/-- Settles O51. -/
theorem everyStepKeepsStreamRules : Obligations.EveryStepKeepsStreamRules := by
  intro s t h hstep
  rcases step_cases hstep with ⟨-, rfl⟩ | ⟨x, rest, -, hserve⟩
  · exact h
  · exact (h.withInputs rest).serve hserve

end Sys2Proof.Machine
end

section
/-! PROOFS. What every command does and leaves alone (R82), how an input reaches a command (R24), and that every input
completes (R159). -/

namespace Sys2Proof.Machine

/-! ### How an input reaches a command -/

theorem step_cons {s : State} {x : Input} {rest : List Input} (h : s.inputs = x :: rest) :
    step s = serve x (withInputs rest s) := by
  rw [step, serveNext, h]

theorem issue_decoded {code : Byte} {i : Instr} {rest : List Byte} (h : decode [code] = .ok (i, rest)) (s : State) :
    issue code s = exec i s := by
  rw [issue, h]

theorem issue_refused {code : Byte} {e : DecodeRefusal} (h : decode [code] = .error e) (s : State) :
    issue code s = .next (raise .illCmd s) := by
  rw [issue, h]

/-- Settles O30, clause by clause from `step_cons`. -/
theorem stepRunsDecodedCommand : Obligations.StepRunsDecodedCommand :=
  ⟨fun _ _ _ _ hinputs hcode _ => (step_cons hinputs).trans (issue_decoded hcode _),
    fun _ _ _ _ hinputs hcode => (step_cons hinputs).trans (issue_refused hcode _),
    fun _ _ hinputs => (step_cons hinputs).trans (issue_code .tick _),
    fun _ _ hinputs => step_cons hinputs⟩

/-- A table word is a command when its byte is one (R79). -/
theorem decode_of_decodeTableWord {w : Nat} {i : Instr} (h : decodeTableWord 8 w = some i) :
    ∃ rest, decode [BitVec.ofNat 8 w] = .ok (i, rest) := by
  have hbytes : bytesOfNat (8 / 8) w = [BitVec.ofNat 8 w] := rfl
  rw [decodeTableWord, hbytes] at h
  split at h
  · rename_i j rest hdecode
    cases h
    exact ⟨rest, hdecode⟩
  · cases h

/-- Settles O31: taking the placed write gives the state before it back. -/
theorem placedWordRunsNext : Obligations.PlacedWordRunsNext := by
  intro s w i h
  obtain ⟨_, hdecode⟩ := decode_of_decodeTableWord h
  have hinputs : (s.withFetchWord 8 w).inputs = .hostWrite 0x00#8 (BitVec.ofNat 8 w) :: s.inputs := rfl
  exact (step_cons hinputs).trans (issue_decoded hdecode _)

/-- Settles O29. -/
theorem writtenCodesDecode : Obligations.WrittenCodesDecode :=
  ⟨rfl, rfl, rfl, rfl, rfl⟩

/-! ### Reads -/

theorem memRead_hostRead (s : State) (off : Byte) : memRead (hostRead off s) = memRead s := by
  funext a
  rw [memRead, memRead]
  cases regAt a <;> rfl

theorem memRead_withInputs (s : State) (rest : List Input) : memRead (withInputs rest s) = memRead s := by
  funext a
  rw [memRead, memRead]
  cases regAt a <;> rfl

/-- Settles O37. -/
theorem readsHaveNoSideEffect : Obligations.ReadsHaveNoSideEffect := by
  intro s off rest hinputs
  refine ⟨hostRead off (withInputs rest s), step_cons hinputs, ?observed, rfl, ?recorded⟩
  case observed => rw [observe, observe, memRead_hostRead, memRead_withInputs]; rfl
  case recorded => rw [← memRead_withInputs s rest]; rfl

/-! ### What no command changes -/

/-- No command touches the parameters (R8) or the inputs still to come. -/
theorem exec_params_inputs {i : Instr} {s t : State} (h : exec i s = .next t) :
    t.params = s.params ∧ t.inputs = s.inputs := by
  rcases exec_cases h with ⟨-, rfl⟩ | ⟨-, rfl⟩ | ⟨-, rfl⟩ | ⟨-, -, rfl⟩ | ⟨-, -, rfl⟩ | ⟨-, -, -, rfl⟩ |
    ⟨-, -, -, rfl⟩ | ⟨-, -, rfl⟩ | ⟨-, -, rfl⟩ | ⟨-, -, rfl⟩ | ⟨-, -, rfl⟩
  iterate 9 exact ⟨rfl, rfl⟩
  · simp
  · simp

/-- No input but the one served leaves the bus, and no input changes the parameters. -/
theorem serve_params_inputs {x : Input} {s t : State} (h : serve x s = .next t) :
    t.params = s.params ∧ t.inputs = s.inputs := by
  rcases serve_cases h with ⟨_, -, rfl⟩ | ⟨_, _, -, -, rfl⟩ | ⟨_, -, hexec⟩ | ⟨-, hexec⟩ | ⟨_, -, -, rfl⟩ | ⟨-, rfl⟩
  · exact ⟨rfl, rfl⟩
  · exact ⟨memWrite_params .., memWrite_inputs ..⟩
  · exact exec_params_inputs hexec
  · exact exec_params_inputs (s := noteTickIssued s) hexec
  · exact ⟨rfl, rfl⟩
  · exact ⟨rfl, rfl⟩

/-! ### Every input completes -/

theorem exec_completes (i : Instr) (s : State) : ∃ t, exec i s = .next t := by
  cases i <;> exact ⟨_, rfl⟩

theorem issue_completes (code : Byte) (s : State) : ∃ t, issue code s = .next t := by
  rcases code_cases code with ⟨i, rfl⟩ | hundefined
  · rw [issue_code]
    exact exec_completes i s
  · exact ⟨_, issue_undefined hundefined s⟩

theorem serve_completes (x : Input) (s : State) : ∃ t, serve x s = .next t := by
  cases x with
  | hostRead off => exact ⟨_, rfl⟩
  | hostWrite off v =>
    by_cases hcmd : off = 0#8
    · subst hcmd
      exact issue_completes v s
    · exact ⟨_, hostWrite_register hcmd v s⟩
  | schedTick => exact issue_completes Instr.tick.code (noteTickIssued s)
  | reset => exact ⟨_, rfl⟩

/-- Settles O14. -/
theorem everyInputCompletes : Obligations.EveryInputCompletes := by
  refine ⟨exec_completes, fun s => ?_⟩
  cases hinputs : s.inputs with
  | nil => exact ⟨s, by rw [step, serveNext, hinputs], hinputs⟩
  | cons x rest =>
    obtain ⟨t, hserve⟩ := serve_completes x (withInputs rest s)
    exact ⟨t, (step_cons hinputs).trans hserve, (serve_params_inputs hserve).2⟩

/-! ### The scheduler and the driver's answers -/

/-- Settles O11: SCHED_START and TICK_DONE arm the scheduler, SCHED_STOP stops it, and the other commands send it
nothing. -/
theorem schedulerFollowsEvents : Obligations.SchedulerFollowsEvents := by
  intro i s t h
  rcases exec_cases h with hnop | hstart | hstop | hderive | hsetaddr | hencode | htooLong | hbusy | hignored |
    hbinding | hlive
  · obtain ⟨rfl, rfl⟩ := hnop
    simp
  · obtain ⟨hi, rfl⟩ := hstart
    rw [if_pos hi, startSession_eq]
  · obtain ⟨rfl, rfl⟩ := hstop
    rfl
  · obtain ⟨rfl, -, rfl⟩ := hderive
    simp
  · obtain ⟨rfl, -, rfl⟩ := hsetaddr
    simp
  · obtain ⟨rfl, -, -, rfl⟩ := hencode
    simp
  · obtain ⟨rfl, -, -, rfl⟩ := htooLong
    simp
  · obtain ⟨rfl | rfl | rfl, -, rfl⟩ := hbusy <;> simp
  · obtain ⟨rfl, hidle, rfl⟩ := hignored
    simp [hidle]
  · obtain ⟨rfl, hphase, rfl⟩ := hbinding
    simp [hphase]
  · obtain ⟨rfl, hphase, rfl⟩ := hlive
    simp [hphase]

/-- Only DEINIT draws an answer (R137). -/
theorem exec_draws_nothing {i : Instr} {s t : State} (hi : i ≠ .deinit) (h : exec i s = .next t) :
    t.drawIndex = s.drawIndex ∧ t.answers = s.answers := by
  rcases exec_cases h with ⟨-, rfl⟩ | ⟨-, rfl⟩ | ⟨rfl, -⟩ | ⟨-, -, rfl⟩ | ⟨-, -, rfl⟩ | ⟨-, -, -, rfl⟩ |
    ⟨-, -, -, rfl⟩ | ⟨-, -, rfl⟩ | ⟨-, -, rfl⟩ | ⟨-, -, rfl⟩ | ⟨-, -, rfl⟩
  case inr.inr.inl => exact absurd rfl hi
  iterate 8 exact ⟨rfl, rfl⟩
  · simp
  · simp

/-- Settles O56: `drawnAnswer` is the free value at the draw counter, and `stopSession` records it. -/
theorem deinitRecordsTheDrawnAnswer : Obligations.DeinitRecordsTheDrawnAnswer :=
  ⟨fun s => ⟨stopSession (drawnAnswer s) s, rfl, rfl, rfl, memRead_result_stopSession _ s, rfl⟩,
    fun _ _ _ => exec_draws_nothing⟩

/-! ### The row of the command table -/

/-- R82's row of a command, for the state it leaves: the register bytes it may write, the events it may emit. -/
structure KeepsRow (i : Instr) (s t : State) : Prop where
  registers : ∀ r : RegByte, mayWrite i r = false → readReg t r = readReg s r
  events : ∃ new, t.events = s.events ++ new ∧ ∀ e ∈ new, mayEmit i e = true

theorem keepsRow_of_no_events {i : Instr} {s t : State} (hevents : t.events = s.events)
    (hregisters : ∀ r : RegByte, mayWrite i r = false → readReg t r = readReg s r) : KeepsRow i s t :=
  ⟨hregisters, [], by rw [hevents, List.append_nil], nofun⟩

theorem keepsRow_nop (s : State) : KeepsRow .nop s s :=
  keepsRow_of_no_events rfl fun _ _ => rfl

/-- A refusal or an ignored tick writes STATUS, which the command's row names. -/
theorem keepsRow_raise {i : Instr} (hstatus : mayWrite i .status = true) (b : StatusBit) (s : State) :
    KeepsRow i s (raise b s) :=
  keepsRow_of_no_events rfl fun r hr => by
    cases r with
    | status => exact absurd (hstatus.symm.trans hr) (by decide)
    | _ => rfl

theorem keepsRow_identityDerive (s : State) : KeepsRow .derive s (identityDerive s) :=
  keepsRow_of_no_events rfl fun r hr => by
    cases r with
    | idAddr _ | idChan _ | prngState _ => cases hr
    | _ => rfl

theorem keepsRow_setActiveAddress (a : Vector Byte 5) (s : State) : KeepsRow .setaddr s (setActiveAddress a s) :=
  keepsRow_of_no_events rfl fun r hr => by
    cases r with
    | actAddr _ | seed _ => cases hr
    | _ => rfl

theorem keepsRow_encodeFrame (payload : List Byte) (s : State) : KeepsRow .encode s (encodeFrame payload s) :=
  keepsRow_of_no_events rfl fun r hr => by
    cases r with
    | frame _ | flen | pid => cases hr
    | _ => rfl

theorem keepsRow_startSession {i : Instr} (hi : i = .init ∨ i = .rebind) (s : State) :
    KeepsRow i s (startSession s) := by
  have hrow : KeepsRow .init s (startSession s) := by
    rw [startSession_eq]
    refine ⟨fun r hr => ?_, _, rfl, by simp [mayEmit]⟩
    cases r with
    | idAddr _ | idChan _ | prngState _ | phase | count _ | cursor | actAddr _ | seed _ | pwrApplied | status
    | nextPeriod _ => cases hr
    | _ => rfl
  rcases hi with rfl | rfl <;> exact ⟨hrow.registers, hrow.events⟩

theorem keepsRow_stopSession (ok : Bool) (s : State) : KeepsRow .deinit s (stopSession ok s) := by
  rw [stopSession_eq]
  refine ⟨fun r hr => ?_, _, rfl, by simp [mayEmit]⟩
  cases r with
  | phase | result | nextPeriod _ => cases hr
  | _ => rfl

theorem mayEmit_powerEvents (s : State) : ∀ e ∈ powerEvents s, mayEmit .tick e = true := by
  rw [powerEvents]
  split <;> simp [mayEmit]

theorem keepsRow_bindTick {s : State} (h : s.phase = .binding) : KeepsRow .tick s (finishTick (bindTick s)) := by
  rw [finishTick_bindTick_eq h]
  refine ⟨fun r hr => ?registers, ?events⟩
  case registers =>
    cases r with
    | frame _ | flen | pid | count _ | cursor | phase | actAddr _ | seed _ | status | pwrApplied | nextPeriod _ =>
      cases hr
    | _ => rfl
  case events =>
    simp only [boundState, List.append_assoc]
    refine ⟨_, rfl, ?_⟩
    have hpower := mayEmit_powerEvents s
    split <;> simpa [mayEmit, or_imp, forall_and] using hpower

theorem keepsRow_liveTick (s : State) : KeepsRow .tick s (finishTick (liveTick s)) := by
  rw [finishTick_liveTick_eq]
  refine ⟨fun r hr => ?registers, ?events⟩
  case registers =>
    cases r with
    | frame _ | flen | pid | count _ | cursor | phase | actAddr _ | seed _ | status | pwrApplied | nextPeriod _ =>
      cases hr
    | _ => rfl
  case events =>
    simp only [hoppedState, List.append_assoc]
    refine ⟨_, rfl, ?_⟩
    simpa [mayEmit, or_imp, forall_and] using mayEmit_powerEvents s

theorem exec_keepsRow {i : Instr} {s t : State} (h : exec i s = .next t) : KeepsRow i s t := by
  rcases exec_cases h with ⟨rfl, rfl⟩ | ⟨hi, rfl⟩ | ⟨rfl, rfl⟩ | ⟨rfl, -, rfl⟩ | ⟨rfl, -, rfl⟩ | ⟨rfl, -, -, rfl⟩ |
    ⟨rfl, -, -, rfl⟩ | ⟨hi, -, rfl⟩ | ⟨rfl, -, rfl⟩ | ⟨rfl, hbinding, rfl⟩ | ⟨rfl, -, rfl⟩
  · exact keepsRow_nop _
  · exact keepsRow_startSession hi s
  · exact keepsRow_stopSession _ s
  · exact keepsRow_identityDerive s
  · exact keepsRow_setActiveAddress _ s
  · exact keepsRow_encodeFrame _ s
  · exact keepsRow_raise rfl _ s
  · exact keepsRow_raise (by rcases hi with rfl | rfl | rfl <;> rfl) _ s
  · exact keepsRow_raise rfl _ s
  · exact keepsRow_bindTick hbinding
  · exact keepsRow_liveTick s

/-- Settles O38. -/
theorem commandsWriteOnlyTheirRow : Obligations.CommandsWriteOnlyTheirRow :=
  fun _ _ _ h => ⟨(exec_keepsRow h).registers, (exec_keepsRow h).events⟩

/-! ### The observer's start value -/

/-- Settles O27: a legal bind time is at least a microsecond (R8), so it rounds up to a millisecond or more. -/
theorem observerStartValueIsPositive : Obligations.ObserverStartValueIsPositive := by
  intro p h
  simp only [Params.wf, Params.bindCountOk, Params.periodOk, Bool.and_eq_true, decide_eq_true_eq] at h
  have hproduct : 1 ≤ p.bindCount.toNat * p.periodUs.toNat := Nat.mul_pos (by omega) (by omega)
  have hvalue : (bindTimeMs p).toNat = min ((p.bindCount.toNat * p.periodUs.toNat + 999) / 1000) (2 ^ 32 - 1) := by
    rw [bindTimeMs, BitVec.toNat_ofNat, Nat.mod_eq_of_lt (by omega)]
  exact ⟨hvalue, by omega⟩

end Sys2Proof.Machine
end

section
/-! PROOFS. The register map against the table of R22, what a read gives at each offset, and what a host write stores
(R23, R36). -/

namespace Sys2Proof.Machine

/-! ### The map -/

/-- Element or byte i of a register stands i above the register's base (R63, R64). -/
theorem regAt_ofNat_add {r : RegByte} {base i : Nat} (h : offsetOf r = BitVec.ofNat 8 base + BitVec.ofNat 8 i)
    (hr : r ≠ .reserved) : regAt (BitVec.ofNat 8 (base + i)) = r := by
  rw [BitVec.ofNat_add, ← h, regAt_offsetOf r hr]

theorem accessOf_regAt (off : Byte) : accessOf (regAt off) = accessInTable off := by
  revert off; decide +kernel

/-- Settles O55: one offset at a time for the single bytes, and by `regAt_ofNat_add` for the rest. -/
theorem registerMapFollowsTheTable : Obligations.RegisterMapFollowsTheTable := by
  refine ⟨fun _ _ => rfl, accessOf_regAt, rfl, fun b => ⟨?count, ?seed⟩, fun b => ⟨?fixedId, ?nextPeriod, ?prngState⟩,
    fun i => ⟨?addrIn, ?actAddr, ?idAddr⟩, fun i => ?idChan, fun i => ?serial, fun i => ?payload, fun i => ?frame,
    fun k b => ?chIn⟩
  case chIn =>
    rw [Nat.add_assoc]
    exact regAt_ofNat_add rfl RegByte.noConfusion
  all_goals exact regAt_ofNat_add rfl RegByte.noConfusion

/-! ### Reads -/

/-- A register narrower than a byte reads with its reserved bits 0 (R23). -/
theorem setWidth_eq_zero_append {n : Nat} (k : Nat) (v : BitVec n) : v.setWidth (k + n) = 0#k ++ v := by
  apply BitVec.eq_of_toNat_eq
  have hbound : v.toNat < 2 ^ (k + n) := v.isLt.trans_le (Nat.pow_le_pow_right (by decide) (Nat.le_add_left n k))
  rw [BitVec.toNat_setWidth, Nat.mod_eq_of_lt hbound]
  simp

theorem memRead_ofNat_add (s : State) {r : RegByte} {base i : Nat}
    (h : offsetOf r = BitVec.ofNat 8 base + BitVec.ofNat 8 i) (hr : r ≠ .reserved) :
    memRead s (BitVec.ofNat 8 (base + i)) = readReg s r := by
  rw [memRead, regAt_ofNat_add h hr]

/-- The reserved offsets of R51. -/
theorem regAt_reserved {off : Byte} (h : off = 0x2A#8 ∨ off = 0x2B#8 ∨ off = 0x4F#8 ∨ 0x88#8 ≤ off) :
    regAt off = .reserved := by
  revert off; decide +kernel

/-- Settles O54. -/
theorem readsShowTheRegisters : Obligations.ReadsShowTheRegisters := by
  intro s
  refine ⟨rfl, setWidth_eq_zero_append 3 s.status, ?result, setWidth_eq_zero_append 6 s.ctrl,
    setWidth_eq_zero_append 5 s.pwrReq, setWidth_eq_zero_append 5 s.pwrApplied, ?phase,
    setWidth_eq_zero_append 6 s.cursor, setWidth_eq_zero_append 6 s.pid, setWidth_eq_zero_append 2 s.plen,
    setWidth_eq_zero_append 2 s.flen, ?serialLen,
    fun i => memRead_ofNat_add s (r := .addrIn i) rfl nofun, fun i => memRead_ofNat_add s (r := .actAddr i) rfl nofun,
    fun i => memRead_ofNat_add s (r := .idAddr i) rfl nofun, fun i => memRead_ofNat_add s (r := .idChan i) rfl nofun,
    fun i => memRead_ofNat_add s (r := .serial i) rfl nofun, fun i => memRead_ofNat_add s (r := .payload i) rfl nofun,
    fun i => memRead_ofNat_add s (r := .frame i) rfl nofun, fun off hoff => ?reserved⟩
  case result =>
    have hread : memRead s 0x02#8 = resultByte s.result := rfl
    rw [hread]
    cases s.result <;> rfl
  case phase =>
    have hread : memRead s 0x06#8 = phaseByte s.phase := rfl
    rw [hread]
    cases s.phase <;> rfl
  case serialLen =>
    have hread : memRead s 0x0D#8 = BitVec.ofNat 8 s.serialLen := rfl
    have hbound := s.serialLen.isLt
    rw [hread, BitVec.toNat_ofNat, Nat.mod_eq_of_lt (by omega)]
  case reserved => rw [memRead, regAt_reserved hoff, readReg]

/-! ### Writes -/

/-- The live bits of CTRL, PWR_REQ and PLEN are the low 2, 3 and 6 (R27, R28, R34). -/
theorem setWidth_eq_and_liveMask (v : Byte) :
    (v.setWidth 2).setWidth 8 = v &&& 0x03#8 ∧ (v.setWidth 3).setWidth 8 = v &&& 0x07#8 ∧
      (v.setWidth 6).setWidth 8 = v &&& 0x3F#8 := by
  revert v; decide +kernel

/-- The STATUS byte after a write of v: v's ones cleared (R23); bits 7:5 read 0 before and after (R25). -/
theorem writeOneToClear_setWidth (v : Byte) (st : BitVec 5) :
    (writeOneToClear v st).setWidth 8 = st.setWidth 8 &&& ~~~v := by
  rw [writeOneToClear, BitVec.setWidth_and]
  ext j hj
  by_cases hbit : j < 5
  · simp [hbit, BitVec.getLsbD_eq_getElem hj]
  · simp [hbit, BitVec.getLsbD_of_ge st j (by omega)]

/-- What a write leaves in the byte it is made to, by the byte's access kind (R23, R36). -/
theorem readReg_writeReg_same (r : RegByte) (v : Byte) (s : State) :
    readReg (writeReg r v s) r = byteAfterWrite (readReg s r) v r := by
  have hall : v = v &&& 0xFF#8 := BitVec.and_allOnes.symm
  obtain ⟨hctrl, hpwrReq, hplen⟩ := setWidth_eq_and_liveMask v
  cases r with
  | status => exact writeOneToClear_setWidth v s.status
  | ctrl => exact hctrl
  | pwrReq => exact hpwrReq
  | plen => exact hplen
  | fixedId b => exact (getByte_setByte_same _ _ _ (by omega)).trans hall
  | addrIn i | serial i | payload i => exact (Vector.getElem_set_self _).trans hall
  | chIn k b =>
    have hword : (writeReg (.chIn k b) v s).chIn[k] = setByte s.chIn[k] b v := Vector.getElem_set_self _
    rw [readReg, hword, getByte_setByte_same _ _ _ (by omega)]
    exact hall
  | _ => rfl

theorem getElem_set_of_ne {α : Type} {n : Nat} {v : Vector α n} {x : α} {i j : Fin n} (h : j ≠ i) :
    (v.set i x)[j] = v[j] :=
  Vector.getElem_set_ne _ _ fun hij => h (Fin.ext hij.symm)

/-- A write to one byte leaves every other as it is. -/
theorem readReg_writeReg_other {r other : RegByte} (h : other ≠ r) (v : Byte) (s : State) :
    readReg (writeReg r v s) other = readReg s other := by
  cases r with
  | status => cases other with | status => exact absurd rfl h | _ => rfl
  | ctrl => cases other with | ctrl => exact absurd rfl h | _ => rfl
  | pwrReq => cases other with | pwrReq => exact absurd rfl h | _ => rfl
  | plen => cases other with | plen => exact absurd rfl h | _ => rfl
  | serialLen => cases other with | serialLen => exact absurd rfl h | _ => rfl
  | fixedId b =>
    cases other with
    | fixedId c => exact getByte_setByte_other _ _ _ _ fun hc => h (congrArg RegByte.fixedId (Fin.ext hc))
    | _ => rfl
  | addrIn i =>
    cases other with
    | addrIn j => exact getElem_set_of_ne fun hj => h (congrArg RegByte.addrIn hj)
    | _ => rfl
  | serial i =>
    cases other with
    | serial j => exact getElem_set_of_ne fun hj => h (congrArg RegByte.serial hj)
    | _ => rfl
  | payload i =>
    cases other with
    | payload j => exact getElem_set_of_ne fun hj => h (congrArg RegByte.payload hj)
    | _ => rfl
  | chIn k b =>
    cases other with
    | chIn l c =>
      by_cases hword : l = k
      · subst hword
        have hbyte : c.val ≠ b.val := fun hc => h (congrArg (RegByte.chIn l) (Fin.ext hc))
        have hset : (writeReg (.chIn l b) v s).chIn[l] = setByte s.chIn[l] b v := Vector.getElem_set_self _
        rw [readReg, hset, getByte_setByte_other _ _ _ _ hbyte, readReg]
      · exact congrArg (getByte · c) (getElem_set_of_ne hword)
    | _ => rfl
  | _ => rfl

/-- Settles O35. -/
theorem registerWriteFollowsAccessKind : Obligations.RegisterWriteFollowsAccessKind := by
  intro s off v hoff
  refine ⟨memWrite off v s, hostWrite_register hoff v s, readReg_writeReg_same _ v s, fun other hother => ?other,
    memWrite_events .., memWrite_answers .., memWrite_sched .., memWrite_params .., memWrite_inputs ..,
    memWrite_readLog .., memWrite_drawIndex ..⟩
  case other =>
    rw [memRead, memRead, memWrite]
    by_cases hreserved : regAt other = .reserved
    · rw [hreserved]; rfl
    · exact readReg_writeReg_other (fun hsame => hother (regAt_injective hsame hreserved)) v s

end Sys2Proof.Machine
end

section
/-! PROOFS. What a derivation reads (R101). -/

namespace Sys2Proof.Machine

theorem serialBytes_congr {s t : State} (hlen : s.serialLen = t.serialLen)
    (hserial : ∀ i : Fin 16, i.val < s.serialLen.val → s.serial[i] = t.serial[i]) : serialBytes s = serialBytes t := by
  rw [serialBytes, serialBytes, ← hlen]
  apply List.ext_getElem (by simp)
  intro i hi _
  have hbound : i < s.serialLen ∧ i < 16 := by simpa using hi
  simpa using hserial ⟨i, hbound.2⟩ hbound.1

/-- Settles O17: the folded bytes agree, so the folded states do, and the extraction reads nothing else. -/
theorem derivationReadsOnlyItsInputs : Obligations.DerivationReadsOnlyItsInputs := by
  intro s t hparams hlen hserial henabled hfixed
  have hfixedBytes :
      (if fixedEnabled s then fixedIdBytes s else []) = if fixedEnabled t then fixedIdBytes t else [] := by
    have hswitch : fixedEnabled s = fixedEnabled t := henabled
    rw [← hswitch]
    by_cases hon : fixedEnabled s = true
    · rw [if_pos hon, if_pos hon, fixedIdBytes, fixedIdBytes, hfixed hon]
    · rw [if_neg hon, if_neg hon]
  have hfolded : foldedState s = foldedState t := by
    rw [foldedState_eq, foldedState_eq, serialBytes_congr hlen hserial, hfixedBytes, hparams]
  rw [derivedIdentity, derivedIdentity, hfolded, hparams]

end Sys2Proof.Machine
end

section
/-! PROOFS. Rules over all inputs: the parameters and the stream (R8, R74), the STATUS bits (R25), the identity (R41,
R42), the packet id (R33), who writes a TICK (R164), and the frames of a session (R140). -/

namespace Sys2Proof.Machine

/-! ### Parameters and events -/

theorem serve_events {x : Input} {s t : State} (hreset : x ≠ .reset) (h : serve x s = .next t) :
    ∃ new, t.events = s.events ++ new := by
  have hsame : ∃ new, s.events = s.events ++ new := ⟨[], (List.append_nil _).symm⟩
  rcases serve_cases h with ⟨_, -, rfl⟩ | ⟨_, _, -, -, rfl⟩ | ⟨_, -, hexec⟩ | ⟨-, hexec⟩ | ⟨_, -, -, rfl⟩ | ⟨hx, -⟩
  · exact hsame
  · rw [memWrite_events]
    exact hsame
  · obtain ⟨new, hnew, -⟩ := (exec_keepsRow hexec).events
    exact ⟨new, hnew⟩
  · obtain ⟨new, hnew, -⟩ := (exec_keepsRow hexec).events
    exact ⟨new, hnew⟩
  · exact hsame
  · exact absurd hx hreset

/-- Settles O39. -/
theorem parametersFixedAndEventsOnlyGrow : Obligations.ParametersFixedAndEventsOnlyGrow := by
  intro s t hstep
  rcases step_cases hstep with ⟨-, rfl⟩ | ⟨x, rest, hinputs, hserve⟩
  · exact ⟨rfl, fun _ => ⟨[], (List.append_nil _).symm⟩⟩
  · have hreset (hhead : s.inputs.head? ≠ some .reset) : x ≠ .reset := by
      rintro rfl
      exact hhead (by rw [hinputs]; rfl)
    exact ⟨(serve_params_inputs hserve).1, fun hhead => serve_events (s := withInputs rest s) (hreset hhead) hserve⟩

/-! ### STATUS bits -/

/-- The only command that clears a STATUS bit is the start of a session (R118). -/
theorem exec_clears_statusBit {i : Instr} {s t : State} {b : StatusBit} (h : exec i s = .next t)
    (hset : statusBit b s = true) (hclear : statusBit b t = false) :
    b = .bindDone ∧ (i = .init ∨ i = .rebind) := by
  rcases exec_cases h with ⟨-, rfl⟩ | ⟨hi, rfl⟩ | ⟨-, rfl⟩ | ⟨-, -, rfl⟩ | ⟨-, -, rfl⟩ | ⟨-, -, -, rfl⟩ |
    ⟨-, -, -, rfl⟩ | ⟨-, -, rfl⟩ | ⟨-, -, rfl⟩ | ⟨-, -, rfl⟩ | ⟨-, -, rfl⟩
  case inr.inl =>
    rw [statusBit_startSession, hset, Bool.true_and, Bool.not_eq_false', decide_eq_true_eq] at hclear
    exact ⟨hclear.symm, hi⟩
  all_goals simp [hset] at hclear

/-- A register write clears a STATUS bit only at STATUS's own offset, where v's bit is 1 (R23). -/
theorem memWrite_clears_statusBit {off v : Byte} {s : State} {b : StatusBit} (hset : statusBit b s = true)
    (hclear : statusBit b (memWrite off v s) = false) : off = 0x01#8 ∧ v.getLsbD (statusIndex b) = true := by
  by_cases hstatus : regAt off = .status
  · have hoff : off = 0x01#8 := regAt_injective (b := 0x01#8) hstatus (by simp [hstatus])
    refine ⟨hoff, ?_⟩
    have hbit : s.status.getLsbD (statusIndex b) = true := hset
    rw [memWrite, hstatus] at hclear
    simpa [writeReg, statusBit, getLsbD_writeOneToClear, hbit] using hclear
  · have hsame : (memWrite off v s).status = s.status := by
      rw [memWrite]
      cases hr : regAt off with
      | status => exact absurd hr hstatus
      | _ => rfl
    rw [statusBit, hsame] at hclear
    exact absurd (hset.symm.trans hclear) (by decide)

/-- Settles O40. -/
theorem statusBitsAreSticky : Obligations.StatusBitsAreSticky := by
  intro x s t b h hset hclear
  have hkept {P : Prop} (hsame : statusBit b t = true) : P := absurd (hsame.symm.trans hclear) (by decide)
  rcases serve_cases h with ⟨_, -, rfl⟩ | ⟨off, v, rfl, -, rfl⟩ | ⟨i, rfl, hexec⟩ | ⟨rfl, hexec⟩ | ⟨_, -, -, rfl⟩ |
    ⟨hreset, -⟩
  · exact hkept hset
  · obtain ⟨rfl, hv⟩ := memWrite_clears_statusBit hset hclear
    exact .inl ⟨v, rfl, hv⟩
  · obtain ⟨hb, rfl | rfl⟩ := exec_clears_statusBit hexec hset hclear
    · exact .inr (.inr ⟨hb, .inl rfl⟩)
    · exact .inr (.inr ⟨hb, .inr rfl⟩)
  · obtain ⟨-, hi⟩ := exec_clears_statusBit (s := noteTickIssued s) hexec hset hclear
    simp at hi
  · exact hkept (by simp [hset])
  · exact .inr (.inl hreset)

/-! ### The identity -/

/-- A command writes the identity when it starts a session or is an accepted DERIVE (R41, R42). -/
theorem exec_identity {i : Instr} {s t : State} (h : exec i s = .next t) :
    (i = .init ∨ i = .rebind ∨ i = .derive ∧ s.phase = .idle) ∨ t.idAddr = s.idAddr ∧ t.idChan = s.idChan := by
  rcases exec_cases h with ⟨-, rfl⟩ | ⟨hi, rfl⟩ | ⟨-, rfl⟩ | ⟨hi, hidle, -⟩ | ⟨-, -, rfl⟩ | ⟨-, -, -, rfl⟩ |
    ⟨-, -, -, rfl⟩ | ⟨-, -, rfl⟩ | ⟨-, -, rfl⟩ | ⟨-, -, rfl⟩ | ⟨-, -, rfl⟩
  case inr.inl => exact .inl (hi.imp_right .inl)
  case inr.inr.inr.inl => exact .inl (.inr (.inr ⟨hi, hidle⟩))
  iterate 7 exact .inr ⟨rfl, rfl⟩
  · simp
  · simp

/-- Settles O43. -/
theorem identityImmutableInSession : Obligations.IdentityImmutableInSession := by
  intro x s t h hchanged
  have hkept {P : Prop} (hsame : t.idAddr = s.idAddr ∧ t.idChan = s.idChan) : P :=
    absurd hsame (not_and_or.mpr hchanged)
  rcases serve_cases h with ⟨_, -, rfl⟩ | ⟨off, v, -, -, rfl⟩ | ⟨i, rfl, hexec⟩ | ⟨-, hexec⟩ | ⟨_, -, -, rfl⟩ |
    ⟨hreset, -⟩
  · exact hkept ⟨rfl, rfl⟩
  · exact hkept ⟨memWrite_idAddr .., memWrite_idChan ..⟩
  · rcases exec_identity hexec with (rfl | rfl | ⟨rfl, hidle⟩) | hsame
    · exact .inr (.inl rfl)
    · exact .inr (.inr (.inl rfl))
    · exact .inr (.inr (.inr ⟨rfl, hidle⟩))
    · exact hkept hsame
  · rcases exec_identity hexec with hi | hsame
    · simp at hi
    · exact hkept hsame
  · exact hkept ⟨rfl, rfl⟩
  · exact .inl hreset

/-! ### The packet id -/

theorem exec_pid {i : Instr} {s t : State} (h : exec i s = .next t) :
    t.pid = if (i = .encode ∧ s.phase = .idle ∧ s.plen.toNat ≤ 15) ∨ (i = .tick ∧ s.phase ≠ .idle)
      then s.pid + 1 else s.pid := by
  rcases exec_cases h with hnop | hstart | hstop | hderive | hsetaddr | hencode | htooLong | hbusy | hignored |
    hbinding | hlive
  · obtain ⟨rfl, rfl⟩ := hnop
    simp
  · obtain ⟨rfl | rfl, rfl⟩ := hstart <;> rfl
  · obtain ⟨rfl, rfl⟩ := hstop
    rfl
  · obtain ⟨rfl, -, rfl⟩ := hderive
    simp
  · obtain ⟨rfl, -, rfl⟩ := hsetaddr
    simp
  · obtain ⟨rfl, hidle, hshort, rfl⟩ := hencode
    simp [hidle, hshort]
  · obtain ⟨rfl, -, hlong, rfl⟩ := htooLong
    simp [Nat.not_le.mpr hlong]
  · obtain ⟨rfl | rfl | rfl, hsession, rfl⟩ := hbusy <;> simp [hsession]
  · obtain ⟨rfl, hidle, rfl⟩ := hignored
    simp [hidle]
  · obtain ⟨rfl, hphase, rfl⟩ := hbinding
    simp [hphase]
  · obtain ⟨rfl, hphase, rfl⟩ := hlive
    simp [hphase, liveTick]

/-- Settles O44. -/
theorem packetIdCountsEncodes : Obligations.PacketIdCountsEncodes := by
  intro x s t hreset h
  rcases serve_cases h with ⟨_, rfl, rfl⟩ | ⟨off, v, rfl, hoff, rfl⟩ | ⟨i, rfl, hexec⟩ | ⟨rfl, hexec⟩ |
    ⟨code, rfl, hundefined, rfl⟩ | ⟨rfl, rfl⟩
  · simp [writesCode, isTick]
  · simp [writesCode, isTick, hoff]
  · have hencode : writesCode 0x12#8 (.hostWrite 0#8 i.code) = true ↔ i = .encode := by
      simp only [writesCode_iff, codeWritten, if_true, Option.some_inj]
      exact code_inj (j := .encode)
    have htick : isTick (.hostWrite 0#8 i.code) = true ↔ i = .tick := by
      simp only [isTick, writesCode_iff, codeWritten, if_true, Option.some_inj]
      exact code_inj (j := .tick)
    simp only [hencode, htick]
    exact exec_pid hexec
  · have htick := exec_pid hexec
    simpa [writesCode, isTick] using htick
  · have hencode : code ≠ 0x12#8 := fun hc => hundefined (hc ▸ code_mem_definedCodes .encode)
    have htick : code ≠ 0x20#8 := fun hc => hundefined (hc ▸ code_mem_definedCodes .tick)
    simp [writesCode, isTick, hencode, htick]
  · exact absurd rfl hreset

/-! ### Who writes a TICK -/

/-- Settles O46: in Idle the two differ in the scheduler's own move, and in a session in nothing. -/
theorem hostTickEqualsSchedulerTick : Obligations.HostTickEqualsSchedulerTick := by
  intro s
  have hhost : serve (.hostWrite 0x00#8 0x20#8) s = exec .tick s := issue_code .tick s
  have hscheduler : serve .schedTick s = exec .tick (noteTickIssued s) := issue_code .tick (noteTickIssued s)
  rw [hhost, hscheduler]
  by_cases hidle : s.phase = .idle
  · exact ⟨_, _, exec_tick_idle (s := noteTickIssued s) hidle, exec_tick_idle hidle, rfl⟩
  · obtain ⟨t, ht⟩ := exec_completes .tick s
    exact ⟨t, t, (exec_tick_noteTickIssued hidle).trans ht, ht, rfl⟩

/-! ### The frames of a session -/

theorem framesOf_append (xs ys : List Event) : framesOf (xs ++ ys) = framesOf xs ++ framesOf ys :=
  List.filterMap_append

theorem framesOf_powerEvents (s : State) : framesOf (powerEvents s) = [] := by
  rw [powerEvents]
  split <;> rfl

/-- A session's frame fits `FLEN` and `FRAME`, so both hold it whole (R114). -/
theorem sessionFrame_stored (s : State) {payload : List Byte} (h : payload.length = 15) :
    (BitVec.ofNat 6 (frameOf payload s).length).toNat = (frameOf payload s).length ∧
      (padVec 32 (frameOf payload s)).toList.take (frameOf payload s).length = frameOf payload s := by
  have hlength : (frameOf payload s).length ≤ 21 := by
    rw [length_sessionFrame s h]
    split <;> decide
  refine ⟨by rw [BitVec.toNat_ofNat, Nat.mod_eq_of_lt (by omega)], ?_⟩
  apply List.ext_getElem
  · simp; omega
  · intro j _ hj
    simp [padVec, hj]

/-- A state whose last frame is a session's, stored and sent. -/
theorem sessionFrame_sent {s t : State} {payload : List Byte} (h : payload.length = 15)
    (hsent : framesOf t.events = framesOf s.events ++ [frameOf payload s])
    (hflen : t.flen = BitVec.ofNat 6 (frameOf payload s).length) (hframe : t.frame = padVec 32 (frameOf payload s)) :
    ∃ f, framesOf t.events = framesOf s.events ++ [f] ∧ f.length = (if s.ctrl.getLsbD 0 then 21 else 19) ∧
      t.flen.toNat = f.length ∧ t.frame.toList.take t.flen.toNat = f := by
  obtain ⟨hlength, hbytes⟩ := sessionFrame_stored s h
  refine ⟨frameOf payload s, hsent, length_sessionFrame s h, ?_, ?_⟩
  · rw [hflen, hlength]
  · rw [hflen, hlength, hframe, hbytes]

/-- Settles O47: the tick of either phase sends one frame, of 15 payload bytes. -/
theorem sessionFramesHaveFixedLength : Obligations.SessionFramesHaveFixedLength := by
  intro s hsession
  cases hphase : s.phase with
  | idle => exact absurd hphase hsession
  | binding =>
    have hsent : framesOf (finishTick (bindTick s)).events = framesOf s.events ++ [frameOf (bindPayload s) s] := by
      rw [finishTick_bindTick_eq hphase]
      simp only [boundState, encodedFrame_eq_frameOf, framesOf_append, framesOf_powerEvents]
      split <;> simp [framesOf]
    obtain ⟨f, hf⟩ := sessionFrame_sent (length_bindPayload s) hsent (by simp) (by simp)
    exact ⟨_, f, exec_tick_binding hphase, hf⟩
  | live =>
    have hsent : framesOf (finishTick (liveTick s)).events = framesOf s.events ++ [frameOf (livePayload s) s] := by
      rw [finishTick_liveTick_eq]
      simp only [hoppedState, encodedFrame_eq_frameOf, framesOf_append, framesOf_powerEvents]
      simp [framesOf]
    obtain ⟨f, hf⟩ := sessionFrame_sent (length_livePayload s) hsent (by simp [liveTick]) (by simp [liveTick])
    exact ⟨_, f, exec_tick_live hphase, hf⟩

end Sys2Proof.Machine
end

section
/-! PROOFS. Runs of a session over inputs without a session command (42_session.md section 6): the bind countdown and
the hopping. -/

namespace Sys2Proof.Machine

/-! ### Runs -/

/-- A run over the next input and the rest serves that input, then runs the rest. -/
theorem run_cons {s u : State} {x : Input} {rest : List Input} (hinputs : s.inputs = x :: rest)
    (hserve : serve x (withInputs rest s) = .next u) (n : Nat) :
    Sys2Proof.core.run (n + 1) s = Sys2Proof.core.run n u := by
  have hstep : Sys2Proof.core.step s = .next u := (step_cons hinputs).trans hserve
  simp only [Host.Core.run, hstep]

/-! ### Quiet inputs -/

/-- What an input that runs no tick leaves of a session. -/
structure SameSession (s t : State) : Prop where
  phase : t.phase = s.phase
  count : t.count = s.count
  cursor : t.cursor = s.cursor
  idChan : t.idChan = s.idChan
  params : t.params = s.params
  events : t.events = s.events

/-- In a session a quiet input is a TICK, whoever issues it, or leaves the session as it is. -/
theorem serve_quiet_cases {x : Input} {s t : State} (hquiet : sessionQuiet x = true) (hsession : s.phase ≠ .idle)
    (h : serve x s = .next t) :
    (isTick x = true ∧ exec .tick s = .next t) ∨ (isTick x = false ∧ SameSession s t) := by
  rcases serve_cases h with ⟨_, rfl, rfl⟩ | ⟨off, v, rfl, hoff, rfl⟩ | ⟨i, rfl, hexec⟩ | ⟨rfl, hexec⟩ |
    ⟨code, rfl, hundefined, rfl⟩ | ⟨rfl, -⟩
  · exact .inr ⟨rfl, by constructor <;> rfl⟩
  · exact .inr ⟨by simp [isTick, writesCode, hoff], by constructor <;> simp⟩
  · cases i with
    | init | rebind | deinit => exact absurd hquiet (by decide)
    | nop =>
      cases hexec
      exact .inr ⟨rfl, by constructor <;> rfl⟩
    | derive =>
      cases (exec_derive_busy hsession).symm.trans hexec
      exact .inr ⟨rfl, by constructor <;> rfl⟩
    | setaddr =>
      cases (exec_setaddr_busy hsession).symm.trans hexec
      exact .inr ⟨rfl, by constructor <;> rfl⟩
    | encode =>
      cases (exec_encode_busy hsession).symm.trans hexec
      exact .inr ⟨rfl, by constructor <;> rfl⟩
    | tick => exact .inl ⟨rfl, hexec⟩
  · exact .inl ⟨rfl, (exec_tick_noteTickIssued hsession).symm.trans hexec⟩
  · have htick : code ≠ 0x20#8 := fun hc => hundefined (hc ▸ code_mem_definedCodes .tick)
    exact .inr ⟨by simp [isTick, writesCode, htick], by constructor <;> rfl⟩
  · exact absurd hquiet (by decide)

/-! ### Hopping -/

/-- The channels of n ticks from a cursor on, in table order (R126). -/
def hopChannels (table : Vector Byte 4) (cursor n : Nat) : List Byte :=
  (List.range n).map fun j => table.toList.getD ((cursor + j) % 4) 0

theorem hopChannels_succ (table : Vector Byte 4) (cursor n : Nat) :
    hopChannels table cursor (n + 1) = table.toList.getD (cursor % 4) 0 :: hopChannels table ((cursor + 1) % 4) n := by
  rw [hopChannels, List.range_succ_eq_map, List.map_cons, List.map_map, hopChannels]
  congr 1
  refine List.map_congr_left fun j _ => ?_
  have hindex : (cursor + (j + 1)) % 4 = ((cursor + 1) % 4 + j) % 4 := by omega
  exact congrArg (table.toList.getD · 0) hindex

/-- A Live tick in a run: Live again, the cursor one further, one channel, the one under the cursor (R125, R126). -/
theorem liveTick_hops {s t : State} (hlive : s.phase = .live) (h : exec .tick s = .next t) :
    t.phase = .live ∧ t.idChan = s.idChan ∧ t.cursor.toNat = (s.cursor.toNat + 1) % 4 ∧
      ∃ new, t.events = s.events ++ new ∧ channelsOf new = [s.idChan.toList.getD (s.cursor.toNat % 4) 0] := by
  obtain rfl : t = finishTick (liveTick s) := by
    cases (exec_tick_live hlive).symm.trans h
    rfl
  obtain ⟨later, hevents, hlater⟩ := finishTick_liveTick_events s
  refine ⟨by simp [hlive], by simp, by simp [BitVec.toNat_add], _, hevents, ?_⟩
  have hcursor : s.cursor.toNat < 4 := s.cursor.isLt
  have hchannel : s.idChan.toList.getD (s.cursor.toNat % 4) 0 = s.idChan[s.cursor.toFin] := by
    simp [Nat.mod_eq_of_lt hcursor, hcursor]
  rw [hchannel, channelsOf, List.filterMap_cons, ← channelsOf, hlater]

/-- Hopping over any quiet inputs, by induction on them. -/
theorem run_live {s : State} {xs : List Input} (hinputs : s.inputs = xs) (hlive : s.phase = .live)
    (hquiet : ∀ x ∈ xs, sessionQuiet x = true) :
    ∃ t new, Sys2Proof.core.run xs.length s = .next t ∧ t.phase = .live ∧ t.events = s.events ++ new ∧
      t.cursor.toNat = (s.cursor.toNat + xs.countP isTick) % 4 ∧
      channelsOf new = hopChannels s.idChan s.cursor.toNat (xs.countP isTick) := by
  induction xs generalizing s with
  | nil =>
    exact ⟨s, [], rfl, hlive, (List.append_nil _).symm, (Nat.mod_eq_of_lt s.cursor.isLt).symm, rfl⟩
  | cons x rest ih =>
    have hsession : (withInputs rest s).phase ≠ .idle := by simp [hlive]
    obtain ⟨u, hserve⟩ := serve_completes x (withInputs rest s)
    have hrest : u.inputs = rest := (serve_params_inputs hserve).2
    have hquietRest : ∀ y ∈ rest, sessionQuiet y = true := fun y hy => hquiet y (List.mem_cons_of_mem x hy)
    rw [List.length_cons, run_cons hinputs hserve]
    rcases serve_quiet_cases (hquiet x List.mem_cons_self) hsession hserve with ⟨htick, hexec⟩ | ⟨htick, hsame⟩
    · obtain ⟨huLive, hchan, hcursor, first, hfirst, hchannel⟩ := liveTick_hops (s := withInputs rest s) hlive hexec
      obtain ⟨t, new, hrun, htLive, hevents, htCursor, hchannels⟩ := ih hrest huLive hquietRest
      refine ⟨t, first ++ new, hrun, htLive, by rw [hevents, hfirst, List.append_assoc]; rfl, ?_, ?_⟩
      · rw [htCursor, hcursor, List.countP_cons_of_pos htick]
        simp only [withInputs_cursor]
        omega
      · rw [channelsOf_append, hchannel, hchannels, hchan, hcursor, List.countP_cons_of_pos htick, hopChannels_succ]
        rfl
    · obtain ⟨t, new, hrun, htLive, hevents, htCursor, hchannels⟩ := ih hrest (hsame.phase.trans hlive) hquietRest
      have hcount : (x :: rest).countP isTick = rest.countP isTick := List.countP_cons_of_neg (by simp [htick])
      refine ⟨t, new, hrun, htLive, by rw [hevents, hsame.events]; rfl, ?_, ?_⟩
      · rw [htCursor, hsame.cursor, hcount]
        rfl
      · rw [hchannels, hsame.idChan, hsame.cursor, hcount]
        rfl

/-- Settles O53. -/
theorem liveTicksHopThroughTheTable : Obligations.LiveTicksHopThroughTheTable :=
  fun _ hlive hquiet => run_live rfl hlive hquiet

/-! ### The bind countdown -/

/-- A session's phase follows its count: Binding while a tick is left, Live when none is (R53, INV2 and INV3). -/
def CountsDown (s : State) : Prop := s.phase = if s.count = 0 then .live else .binding

/-- The observer's 0 at the completion of a bind (R124). -/
def completionNotice (complete : Bool) : List Event := if complete then [.bindState 0] else []

theorem eventsFor_append (a : Agent) (xs ys : List Event) :
    eventsFor a (xs ++ ys) = eventsFor a xs ++ eventsFor a ys :=
  List.filter_append ..

theorem eventsFor_observer_powerEvents (s : State) : eventsFor .observer (powerEvents s) = [] := by
  rw [powerEvents]
  split <;> rfl

/-- What the events `new` of a run show, when the count was c and k ticks have been served: the observer's notice when
they complete the bind, and while the bind lasts one frame for each, on the channel ch. -/
structure BindEvents (ch : Byte) (c k : Nat) (new : List Event) : Prop where
  notice : eventsFor .observer new = completionNotice (decide (1 ≤ c ∧ c ≤ k))
  frames : k ≤ c → (framesOf new).length = k
  channels : k ≤ c → channelsOf new = List.replicate k ch

theorem BindEvents.nil (ch : Byte) (c : Nat) : BindEvents ch c 0 [] := by
  have hnotice : decide (1 ≤ c ∧ c ≤ 0) = false := decide_eq_false (by omega)
  exact ⟨by rw [hnotice]; rfl, fun _ => rfl, fun _ => rfl⟩

/-- The events of a tick and of a run after it, which begins one lower. -/
theorem BindEvents.append {ch : Byte} {c k : Nat} {first new : List Event} (hfirst : BindEvents ch c 1 first)
    (hnew : BindEvents ch (c - 1) k new) : BindEvents ch c (k + 1) (first ++ new) where
  notice := by
    rw [eventsFor_append, hfirst.notice, hnew.notice]
    rcases Nat.lt_trichotomy c 1 with hzero | rfl | hmore
    · obtain rfl : c = 0 := by omega
      simp [completionNotice]
    · simp [completionNotice]
    · have hfirstNot : ¬ (1 ≤ c ∧ c ≤ 1) := by omega
      have hshift : (1 ≤ c - 1 ∧ c - 1 ≤ k) ↔ (1 ≤ c ∧ c ≤ k + 1) := by omega
      simp only [hfirstNot, hshift, decide_false]
      rfl
  frames h := by
    rw [framesOf_append, List.length_append, hfirst.frames (by omega), hnew.frames (by omega), Nat.add_comm]
  channels h := by
    rw [channelsOf_append, hfirst.channels (by omega), hnew.channels (by omega), List.replicate_succ]
    rfl

/-- A tick's events: one channel and one frame on it, and the observer's 0 when the tick completes the bind. -/
theorem bindEvents_tick (s : State) (ch : Byte) (frame : List Byte) {c : Nat} (complete : Bool)
    (hcomplete : complete = decide (c = 1)) :
    BindEvents ch c 1 ([.setChannel ch, .writePayload frame] ++ completionNotice complete ++ powerEvents s ++
      [.tickDone s.params.periodUs]) := by
  have hone : (1 ≤ c ∧ c ≤ 1) ↔ c = 1 := by omega
  constructor
  case notice =>
    simp only [eventsFor_append, eventsFor_observer_powerEvents, hone, ← hcomplete]
    cases complete <;> rfl
  case frames =>
    simp only [framesOf_append, framesOf_powerEvents]
    cases complete <;> exact fun _ => rfl
  case channels =>
    simp only [channelsOf_append, channelsOf_powerEvents]
    cases complete <;> exact fun _ => rfl

/-- A tick in Binding counts down, to Live from 1 (R122, R124). -/
theorem countsDown_bindTick {s : State} (hbinding : s.phase = .binding) : CountsDown (finishTick (bindTick s)) := by
  have hlast : s.count - 1 = 0 ↔ s.count = 1 := by bv_omega
  rw [CountsDown, finishTick_phase, finishTick_count, bindTick_phase, bindTick_count, hbinding]
  simp only [hlast]

/-- One tick of the countdown: one off the count, down to 0, where the ticks are Live ones and the bind's rules ask
nothing more. -/
theorem tick_countsDown {s t : State} (hcounts : CountsDown s) (h : exec .tick s = .next t) :
    CountsDown t ∧ t.count.toNat = s.count.toNat - 1 ∧
      ∃ new, t.events = s.events ++ new ∧ BindEvents s.params.bindCh s.count.toNat 1 new := by
  by_cases hzero : s.count = 0
  · have hlive : s.phase = .live := by rw [hcounts, if_pos hzero]
    have hnone : s.count.toNat = 0 := by rw [hzero]; rfl
    cases (exec_tick_live hlive).symm.trans h
    have htick := bindEvents_tick s s.idChan[s.cursor.toFin] (frameOf (livePayload s) s) (c := 0) false rfl
    have hafter : BindEvents s.params.bindCh 0 1 _ :=
      ⟨htick.notice, fun hnot => absurd hnot (by decide), fun hnot => absurd hnot (by decide)⟩
    rw [hnone]
    refine ⟨by simp [CountsDown, hlive, hzero], by simp [hzero], _, ?_, hafter⟩
    rw [finishTick_liveTick_eq]
    simp [hoppedState, completionNotice]
  · have hbinding : s.phase = .binding := by rw [hcounts, if_neg hzero]
    cases (exec_tick_binding hbinding).symm.trans h
    refine ⟨countsDown_bindTick hbinding, ?_, _, ?_, bindEvents_tick s s.params.bindCh (frameOf (bindPayload s) s)
      (s.count = 1) ?_⟩
    · rw [finishTick_count, bindTick_count]
      bv_omega
    · rw [finishTick_bindTick_eq hbinding]
      simp [boundState, completionNotice]
    · have hone : s.count = 1 ↔ s.count.toNat = 1 := by bv_omega
      simp only [hone]

/-- The countdown over any quiet inputs, by induction on them. -/
theorem run_countsDown {s : State} {xs : List Input} (hinputs : s.inputs = xs) (hcounts : CountsDown s)
    (hquiet : ∀ x ∈ xs, sessionQuiet x = true) :
    ∃ t new, Sys2Proof.core.run xs.length s = .next t ∧ CountsDown t ∧
      t.count.toNat = s.count.toNat - xs.countP isTick ∧ t.events = s.events ++ new ∧
      BindEvents s.params.bindCh s.count.toNat (xs.countP isTick) new := by
  induction xs generalizing s with
  | nil => exact ⟨s, [], rfl, hcounts, rfl, (List.append_nil _).symm, BindEvents.nil _ _⟩
  | cons x rest ih =>
    have hsession : (withInputs rest s).phase ≠ .idle := by
      rw [withInputs_phase, hcounts]
      split <;> decide
    obtain ⟨u, hserve⟩ := serve_completes x (withInputs rest s)
    obtain ⟨hparams, hrest⟩ := serve_params_inputs hserve
    have hquietRest : ∀ y ∈ rest, sessionQuiet y = true := fun y hy => hquiet y (List.mem_cons_of_mem x hy)
    rw [List.length_cons, run_cons hinputs hserve]
    rcases serve_quiet_cases (hquiet x List.mem_cons_self) hsession hserve with ⟨htick, hexec⟩ | ⟨htick, hsame⟩
    · obtain ⟨huCounts, huCount, first, hfirst, hfirstBind⟩ := tick_countsDown (s := withInputs rest s) hcounts hexec
      obtain ⟨t, new, hrun, htCounts, htCount, hevents, hbind⟩ := ih hrest huCounts hquietRest
      rw [List.countP_cons_of_pos htick]
      refine ⟨t, first ++ new, hrun, htCounts, ?_, by rw [hevents, hfirst, List.append_assoc]; rfl,
        hfirstBind.append ?_⟩
      · rw [htCount, huCount, withInputs_count]
        omega
      · rw [hparams, huCount] at hbind
        exact hbind
    · have huCounts : CountsDown u := by
        rw [CountsDown, hsame.phase, hsame.count]
        exact hcounts
      obtain ⟨t, new, hrun, htCounts, htCount, hevents, hbind⟩ := ih hrest huCounts hquietRest
      rw [List.countP_cons_of_neg (by simp [htick])]
      refine ⟨t, new, hrun, htCounts, ?_, by rw [hevents, hsame.events]; rfl, ?_⟩
      · rw [htCount, hsame.count]
        rfl
      · rw [hparams, hsame.count] at hbind
        exact hbind

/-- R118: a session starts with BIND_COUNT ticks to count, at least one (R8). -/
theorem startSession_countsDown {s : State} (hwf : s.params.wf = true) :
    CountsDown (startSession s) ∧ 1 ≤ s.params.bindCount.toNat := by
  have hpositive : 1 ≤ s.params.bindCount.toNat := by
    simp only [Params.wf, Params.bindCountOk, Bool.and_eq_true, decide_eq_true_eq] at hwf
    omega
  have hnonzero : s.params.bindCount ≠ 0 := by bv_omega
  exact ⟨(if_neg hnonzero).symm, hpositive⟩

/-- The four events of a start: no frame and no channel, and one for the observer, the start value. -/
theorem startSession_new_events (s : State) :
    ∃ new, (startSession s).events = s.events ++ new ∧ framesOf new = [] ∧ channelsOf new = [] ∧
      eventsFor .observer new = [.bindState (bindTimeMs s.params)] :=
  ⟨_, startSession_events s, rfl, rfl, rfl⟩

/-- A countdown that has reached k ticks of c. -/
theorem CountsDown.phase_of_ticks {t : State} {c k : Nat} (h : CountsDown t) (hcount : t.count.toNat = c - k) :
    (k < c → t.phase = .binding) ∧ (c ≤ k → t.phase = .live ∧ t.count = 0) := by
  constructor
  · intro hmore
    have hnonzero : t.count ≠ 0 := by bv_omega
    rw [h, if_neg hnonzero]
  · intro hdone
    have hzero : t.count = 0 := by bv_omega
    exact ⟨by rw [h, if_pos hzero], hzero⟩

/-- Settles O52: INIT, then the countdown over the rest. -/
theorem bindCountdownReachesLive : Obligations.BindCountdownReachesLive := by
  intro s rest hwf hinputs hquiet
  obtain ⟨hcounts, hpositive⟩ := startSession_countsDown (s := withInputs rest s) hwf
  obtain ⟨first, hfirst, hfirstFrames, hfirstChannels, hfirstObserver⟩ := startSession_new_events (withInputs rest s)
  obtain ⟨t, new, hrun, htCounts, htCount, hevents, hbind⟩ :=
    run_countsDown (s := startSession (withInputs rest s)) (xs := rest) rfl hcounts hquiet
  have hcount : (startSession (withInputs rest s)).count = s.params.bindCount := rfl
  have hstart : bindTimeMs s.params ≠ 0 := fun hzero => by
    have hvalue := (observerStartValueIsPositive s.params hwf).2
    rw [hzero] at hvalue
    exact absurd hvalue (by decide)
  rw [hcount] at htCount hbind
  obtain ⟨hbinding, hlive⟩ := htCounts.phase_of_ticks htCount
  refine ⟨t, first ++ new, (run_cons hinputs rfl _).trans hrun, ?events, fun hmore => ⟨hbinding hmore, htCount⟩, hlive,
    ⟨bindTimeMs s.params, hstart, ?observer⟩, fun hwithin => ⟨?frames, ?channels⟩⟩
  case events => rw [hevents, hfirst, List.append_assoc]; rfl
  case observer =>
    rw [eventsFor_append, hfirstObserver, hbind.notice]
    have hcomplete : (1 ≤ s.params.bindCount.toNat ∧ s.params.bindCount.toNat ≤ rest.countP isTick) ↔
        s.params.bindCount.toNat ≤ rest.countP isTick := and_iff_right hpositive
    simp [completionNotice, hcomplete]
  case frames => rw [framesOf_append, hfirstFrames, List.nil_append, hbind.frames hwithin]
  case channels => rw [channelsOf_append, hfirstChannels, List.nil_append, hbind.channels hwithin]; rfl

end Sys2Proof.Machine
end
